-- ==== Sys2Proof/Word.lean ====
section
/-! DEFINITION. The words of the unit: the 64-bit command word (30_encoding.md R70), its 16-bit
fields, the 64-bit STATUS word and 32-bit width fields (10_state.md R25, R31), and a data bus as its
list of limbs, limb 0 first (10_state.md R22). -/

namespace Sys2Proof

/-- The command word of format C64 (R70). -/
abbrev CmdWord := BitVec 64

/-- A 16-bit field of the command word: WA, WB or IMM (R70). -/
abbrev Field16 := BitVec 16

/-- The contents of a data bus: its limbs, least significant first (R22, R52). A limb is a natural
number; that it is below `2^L` and that a bus has NBUS limbs is an invariant (`State.Wf`). -/
abbrev Bus := List Nat

end Sys2Proof
end

