-- ==== Sys2Proof/Config.lean ====
section
/-! DEFINITION. What is fixed when a unit is built (00_scope.md R6 to R8, 70_reset_and_hazards.md
R403): the limb width L and the maximum operand width WMAX, with the derived NBUS and CHARCAP; and
the one free value of the model, the latency LAT (R10, R411). -/

namespace Sys2Proof

/-- The legal limb widths L (R6). -/
inductive LimbWidth where
  | w8 | w16 | w32 | w64
deriving DecidableEq, Repr

/-- L in bits (R6). -/
def LimbWidth.bits : LimbWidth → Nat
  | .w8 => 8
  | .w16 => 16
  | .w32 => 32
  | .w64 => 64

/-- The build parameters of one unit (R6, R7). -/
structure Config where
  /-- the limb width L -/
  limb : LimbWidth
  /-- the maximum operand width WMAX -/
  wmax : Nat
deriving DecidableEq, Repr

/-- L, in bits (R6). -/
def Config.L (c : Config) : Nat := c.limb.bits

/-- `NBUS = ceil(8 * WMAX / L)`, the limbs of every data bus (R8). -/
def Config.nbus (c : Config) : Nat := (8 * c.wmax + c.L - 1) / c.L

/-- `CHARCAP = NBUS * L / 8`, the bytes of every data bus (R8). -/
def Config.charcap (c : Config) : Nat := c.nbus * c.L / 8

/-- The legal values of WMAX (R7); every `LimbWidth` is a legal L. -/
abbrev Config.Legal (c : Config) : Prop := 1 ≤ c.wmax ∧ c.wmax ≤ 65535

/-- The reference configuration: L = 64, WMAX = 1024 (R6 to R8). -/
def Config.reference : Config := { limb := .w64, wmax := 1024 }

/-- FREE VALUE (log entry 3). The cycles a command takes beyond the first, so `LAT = latency + 1`:
finite and at least one cycle (R405), otherwise left open (R10, R411). It may depend on the
implementation, the command and its operands, and here also on the number of the acceptance. -/
opaque Config.latency (c : Config) (n : Nat) (cmd : CmdWord) (a b : Bus) : Nat

end Sys2Proof
end

