-- ==== Sys2Proof/Syntax.lean ====
section
/-! DEFINITION. The 42 commands of the opcode map (30_encoding.md R77): one constructor a row of
spec/opcode_table.json, holding exactly the fields of the command word the command uses (R70 to
R76). A field a command ignores has no place here. -/

namespace Sys2Proof

/-- The signedness tag, bit S of the command word (R71): 0 = Unsigned, 1 = Signed. -/
inductive Tag where
  | unsigned
  | signed
deriving DecidableEq, Repr

/-- One command. `wa` and `wb` are the width fields (R74), `i`, `k`, `p` and `n` are IMM as index,
amount, split point and count (R75), `s` is the tag (R71), `ci` and `v` are the bit CI (R72). -/
inductive Instr where
  -- LimbStorage, accessors and constructors (41_limb_storage.md)
  /-- WORD (R102) -/
  | word (wa : Field16) (i : Field16)
  /-- SETWORD (R103) -/
  | setword (wa : Field16) (i : Field16)
  /-- BIT (R104) -/
  | bit (wa : Field16) (i : Field16)
  /-- SETBIT (R105) -/
  | setbit (wa : Field16) (i : Field16) (v : Bool)
  /-- CONCAT (R106) -/
  | concat (wa : Field16) (wb : Field16)
  /-- SPLIT (R107) -/
  | split (wa : Field16) (p : Field16)
  /-- WIDTH (R108) -/
  | width (wa : Field16)
  /-- WORDCOUNT (R109) -/
  | wordcount (wa : Field16)
  /-- WORDMASK (R110) -/
  | wordmask (wa : Field16) (i : Field16)
  /-- FROMNAT (R111) -/
  | fromnat (s : Tag) (wa : Field16)
  /-- FROMLIMBS (R112) -/
  | fromlimbs (wa : Field16) (n : Field16)
  /-- FROMBITS (R113) -/
  | frombits (wa : Field16) (n : Field16)
  /-- TOBITS (R114) -/
  | tobits (wa : Field16)
  -- ShiftEngine (42_shift.md)
  /-- SHL (R141) -/
  | shl (wa : Field16) (k : Field16)
  /-- SHR (R142) -/
  | shr (wa : Field16) (k : Field16)
  /-- SAR (R143) -/
  | sar (wa : Field16) (k : Field16)
  /-- ROL (R144) -/
  | rol (wa : Field16) (k : Field16)
  /-- ROR (R145) -/
  | ror (wa : Field16) (k : Field16)
  /-- RCL (R146) -/
  | rcl (wa : Field16) (k : Field16) (ci : Bool)
  /-- RCR (R147) -/
  | rcr (wa : Field16) (k : Field16) (ci : Bool)
  -- AddSubEngine (43_addsub.md)
  /-- ADD (R161) -/
  | add (wa : Field16) (wb : Field16)
  /-- EXPADD (R162) -/
  | expadd (s : Tag) (wa : Field16) (wb : Field16) (ci : Bool)
  /-- SUB (R163) -/
  | sub (wa : Field16) (wb : Field16)
  /-- EXPSUB (R164) -/
  | expsub (s : Tag) (wa : Field16) (wb : Field16)
  -- MulEngine (44_mul.md)
  /-- SMUL (R180) -/
  | smul (wa : Field16) (wb : Field16)
  /-- BMUL (R181) -/
  | bmul (wa : Field16) (wb : Field16)
  /-- KMUL (R182) -/
  | kmul (wa : Field16) (wb : Field16)
  /-- MUL (R183) -/
  | mul (s : Tag) (wa : Field16) (wb : Field16)
  /-- EXPMUL (R184) -/
  | expmul (s : Tag) (wa : Field16) (wb : Field16)
  -- DivEngine (45_div.md)
  /-- RDIV (R200) -/
  | rdiv (s : Tag) (wa : Field16) (wb : Field16)
  /-- DIV (R202) -/
  | div (s : Tag) (wa : Field16) (wb : Field16)
  /-- REM (R203) -/
  | rem (s : Tag) (wa : Field16) (wb : Field16)
  -- WidthCast (46_widthcast.md)
  /-- CAST (R220) -/
  | cast (s : Tag) (wa : Field16) (wb : Field16)
  -- bitwise operations and comparisons (47_bitwise_compare.md)
  /-- AND (R230) -/
  | and (wa : Field16) (wb : Field16)
  /-- OR (R231) -/
  | or (wa : Field16) (wb : Field16)
  /-- NOT (R232) -/
  | not (wa : Field16)
  /-- EQ (R233) -/
  | eq (wa : Field16) (wb : Field16)
  /-- NE (R234) -/
  | ne (wa : Field16) (wb : Field16)
  /-- LT (R235) -/
  | lt (s : Tag) (wa : Field16) (wb : Field16)
  /-- LE (R236) -/
  | le (s : Tag) (wa : Field16) (wb : Field16)
  /-- GT (R237) -/
  | gt (s : Tag) (wa : Field16) (wb : Field16)
  /-- GE (R238) -/
  | ge (s : Tag) (wa : Field16) (wb : Field16)
deriving DecidableEq, Repr

end Sys2Proof
end

