-- ==== Sys2Proof/WellFormed.lean ====
section
/-! DEFINITION. When a command is well formed: the static checks of 30_encoding.md R79 that give
BadCommand and that a decoded command can still fail (widths, R9 and R74; the immediates of SPLIT
R107, FROMLIMBS R112 and FROMBITS R113), and apart from them the equal widths of R300. The decoder
has already refused a reserved OPC, non-zero RSV and a wrong fixed tag. The meanings do not call
these checks: that they agree is stated and proved. -/

namespace Sys2Proof

/-- A width field a command uses lies in 1..WMAX (R9, R74). -/
def widthFieldLegal (c : Config) (w : Field16) : Bool :=
  decide (1 ≤ w.toNat) && decide (w.toNat ≤ c.wmax)

/-- The field WA: every command uses it (R79). -/
def Instr.wa : Instr → Field16
  | .word wa _ => wa
  | .setword wa _ => wa
  | .bit wa _ => wa
  | .setbit wa _ _ => wa
  | .concat wa _ => wa
  | .split wa _ => wa
  | .width wa => wa
  | .wordcount wa => wa
  | .wordmask wa _ => wa
  | .fromnat _ wa => wa
  | .fromlimbs wa _ => wa
  | .frombits wa _ => wa
  | .tobits wa => wa
  | .shl wa _ => wa
  | .shr wa _ => wa
  | .sar wa _ => wa
  | .rol wa _ => wa
  | .ror wa _ => wa
  | .rcl wa _ _ => wa
  | .rcr wa _ _ => wa
  | .add wa _ => wa
  | .expadd _ wa _ _ => wa
  | .sub wa _ => wa
  | .expsub _ wa _ => wa
  | .smul wa _ => wa
  | .bmul wa _ => wa
  | .kmul wa _ => wa
  | .mul _ wa _ => wa
  | .expmul _ wa _ => wa
  | .rdiv _ wa _ => wa
  | .div _ wa _ => wa
  | .rem _ wa _ => wa
  | .cast _ wa _ => wa
  | .and wa _ => wa
  | .or wa _ => wa
  | .not wa => wa
  | .eq wa _ => wa
  | .ne wa _ => wa
  | .lt _ wa _ => wa
  | .le _ wa _ => wa
  | .gt _ wa _ => wa
  | .ge _ wa _ => wa

/-- The field WB where the command uses it: column WB of R77 is V, =WA or T. -/
def Instr.wb? : Instr → Option Field16
  | .word _ _ => none
  | .setword _ _ => none
  | .bit _ _ => none
  | .setbit _ _ _ => none
  | .concat _ wb => some wb
  | .split _ _ => none
  | .width _ => none
  | .wordcount _ => none
  | .wordmask _ _ => none
  | .fromnat _ _ => none
  | .fromlimbs _ _ => none
  | .frombits _ _ => none
  | .tobits _ => none
  | .shl _ _ => none
  | .shr _ _ => none
  | .sar _ _ => none
  | .rol _ _ => none
  | .ror _ _ => none
  | .rcl _ _ _ => none
  | .rcr _ _ _ => none
  | .add _ wb => some wb
  | .expadd _ _ wb _ => some wb
  | .sub _ wb => some wb
  | .expsub _ _ wb => some wb
  | .smul _ wb => some wb
  | .bmul _ wb => some wb
  | .kmul _ wb => some wb
  | .mul _ _ wb => some wb
  | .expmul _ _ wb => some wb
  | .rdiv _ _ wb => some wb
  | .div _ _ wb => some wb
  | .rem _ _ wb => some wb
  | .cast _ _ wb => some wb
  | .and _ wb => some wb
  | .or _ wb => some wb
  | .not _ => none
  | .eq _ wb => some wb
  | .ne _ wb => some wb
  | .lt _ _ wb => some wb
  | .le _ _ wb => some wb
  | .gt _ _ wb => some wb
  | .ge _ _ wb => some wb

/-- The command-specific checks of the immediate that give BadCommand (R79): SPLIT with p = 0 or
p >= WA, FROMLIMBS with n > NBUS, FROMBITS with n > CHARCAP. -/
def Instr.immLegal (c : Config) : Instr → Bool
  | .word _ _ => true
  | .setword _ _ => true
  | .bit _ _ => true
  | .setbit _ _ _ => true
  | .concat _ _ => true
  | .split wa p => decide (p.toNat ≠ 0) && decide (p.toNat < wa.toNat)
  | .width _ => true
  | .wordcount _ => true
  | .wordmask _ _ => true
  | .fromnat _ _ => true
  | .fromlimbs _ n => decide (n.toNat ≤ c.nbus)
  | .frombits _ n => decide (n.toNat ≤ c.charcap)
  | .tobits _ => true
  | .shl _ _ => true
  | .shr _ _ => true
  | .sar _ _ => true
  | .rol _ _ => true
  | .ror _ _ => true
  | .rcl _ _ _ => true
  | .rcr _ _ _ => true
  | .add _ _ => true
  | .expadd _ _ _ _ => true
  | .sub _ _ => true
  | .expsub _ _ _ => true
  | .smul _ _ => true
  | .bmul _ _ => true
  | .kmul _ _ => true
  | .mul _ _ _ => true
  | .expmul _ _ _ => true
  | .rdiv _ _ _ => true
  | .div _ _ _ => true
  | .rem _ _ _ => true
  | .cast _ _ _ => true
  | .and _ _ => true
  | .or _ _ => true
  | .not _ => true
  | .eq _ _ => true
  | .ne _ _ => true
  | .lt _ _ _ => true
  | .le _ _ _ => true
  | .gt _ _ _ => true
  | .ge _ _ _ => true

/-- The command passes every check of R79 that gives BadCommand. -/
def Instr.wellFormed (c : Config) (i : Instr) : Bool :=
  widthFieldLegal c i.wa && (i.wb?.all (widthFieldLegal c)) && i.immLegal c

/-- Column WB of R77 is "=WA": the commands that can raise WidthMismatch (R300). -/
def Instr.needsEqualWidths : Instr → Bool
  | .word _ _ => false
  | .setword _ _ => false
  | .bit _ _ => false
  | .setbit _ _ _ => false
  | .concat _ _ => false
  | .split _ _ => false
  | .width _ => false
  | .wordcount _ => false
  | .wordmask _ _ => false
  | .fromnat _ _ => false
  | .fromlimbs _ _ => false
  | .frombits _ _ => false
  | .tobits _ => false
  | .shl _ _ => false
  | .shr _ _ => false
  | .sar _ _ => false
  | .rol _ _ => false
  | .ror _ _ => false
  | .rcl _ _ _ => false
  | .rcr _ _ _ => false
  | .add _ _ => true
  | .expadd _ _ _ _ => false
  | .sub _ _ => true
  | .expsub _ _ _ => false
  | .smul _ _ => false
  | .bmul _ _ => false
  | .kmul _ _ => false
  | .mul _ _ _ => true
  | .expmul _ _ _ => false
  | .rdiv _ _ _ => false
  | .div _ _ _ => false
  | .rem _ _ _ => false
  | .cast _ _ _ => false
  | .and _ _ => true
  | .or _ _ => true
  | .not _ => false
  | .eq _ _ => true
  | .ne _ _ => true
  | .lt _ _ _ => true
  | .le _ _ _ => true
  | .gt _ _ _ => true
  | .ge _ _ _ => true

/-- Where equal widths are needed, WB equals WA (R300). -/
def Instr.widthsAgree (i : Instr) : Bool :=
  !i.needsEqualWidths || decide (i.wb? = some i.wa)

end Sys2Proof
end

