-- ==== Sys2Proof/Decode.lean ====
section
/-! DEFINITION. The command word (30_encoding.md R70), the opcode map (R77), the decoder with the
checks of R79 that do not need the build parameters (OPC, RSV, fixed tag), and the encoder.
The decoder takes any 64-bit word and refuses by name; the unit answers every refusal with
BadCommand. -/

namespace Sys2Proof

/-- The fields of a command word (R70). -/
structure Fields where
  /-- bits 7:0 -/
  opc : BitVec 8
  /-- bit 8 -/
  s : Bool
  /-- bit 9 -/
  ci : Bool
  /-- bits 15:10 -/
  rsv : BitVec 6
  /-- bits 31:16 -/
  wa : Field16
  /-- bits 47:32 -/
  wb : Field16
  /-- bits 63:48 -/
  imm : Field16
deriving DecidableEq, Repr

/-- The word of given fields: `OPC | S<<8 | CI<<9 | RSV<<10 | WA<<16 | WB<<32 | IMM<<48` (R70),
written as the concatenation of the fields, IMM highest. -/
def Fields.word (f : Fields) : CmdWord :=
  f.imm ++ f.wb ++ f.wa ++ f.rsv ++ BitVec.ofBool f.ci ++ BitVec.ofBool f.s ++ f.opc

/-- The fields of a word, bit by bit as R70 and R79 place them. -/
def Fields.ofWord (w : CmdWord) : Fields where
  opc := w.extractLsb' 0 8
  s := w.getLsbD 8
  ci := w.getLsbD 9
  rsv := w.extractLsb' 10 6
  wa := w.extractLsb' 16 16
  wb := w.extractLsb' 32 16
  imm := w.extractLsb' 48 16

/-- The tag of bit S: 0 = Unsigned, 1 = Signed (R71). -/
def Tag.ofBit : Bool → Tag
  | false => .unsigned
  | true => .signed

/-- Bit S of a tag (R71). -/
def Tag.bit : Tag → Bool
  | .unsigned => false
  | .signed => true

/-- How a command uses bit S: column S of R77. -/
inductive TagUse where
  /-- "-": ignored -/
  | ignored
  /-- "tag": the signedness tag -/
  | tag
  /-- "0" or "1": must have that value -/
  | fixed (v : Bool)
deriving DecidableEq, Repr

/-- One row of the opcode map (R77): the number and the name, how S is used, and whether CI, WB and
IMM are used (not "-"). -/
structure OpcodeRow where
  opc : BitVec 8
  name : String
  s : TagUse
  ci : Bool
  wb : Bool
  imm : Bool
deriving DecidableEq, Repr

/-- The rows of R77: LimbStorage, accessors and constructors (41_limb_storage.md). -/
def storageRows : List OpcodeRow := [
  ⟨0x01#8, "WORD", .ignored, false, false, true⟩,
  ⟨0x02#8, "SETWORD", .ignored, false, false, true⟩,
  ⟨0x03#8, "BIT", .ignored, false, false, true⟩,
  ⟨0x04#8, "SETBIT", .ignored, true, false, true⟩,
  ⟨0x05#8, "CONCAT", .ignored, false, true, false⟩,
  ⟨0x06#8, "SPLIT", .ignored, false, false, true⟩,
  ⟨0x07#8, "WIDTH", .ignored, false, false, false⟩,
  ⟨0x08#8, "WORDCOUNT", .ignored, false, false, false⟩,
  ⟨0x09#8, "WORDMASK", .ignored, false, false, true⟩,
  ⟨0x0A#8, "FROMNAT", .tag, false, false, false⟩,
  ⟨0x0B#8, "FROMLIMBS", .ignored, false, false, true⟩,
  ⟨0x0C#8, "FROMBITS", .ignored, false, false, true⟩,
  ⟨0x0D#8, "TOBITS", .ignored, false, false, false⟩]

/-- The rows of R77: ShiftEngine (42_shift.md). -/
def shiftRows : List OpcodeRow := [
  ⟨0x10#8, "SHL", .ignored, false, false, true⟩,
  ⟨0x11#8, "SHR", .ignored, false, false, true⟩,
  ⟨0x12#8, "SAR", .fixed true, false, false, true⟩,
  ⟨0x13#8, "ROL", .ignored, false, false, true⟩,
  ⟨0x14#8, "ROR", .ignored, false, false, true⟩,
  ⟨0x15#8, "RCL", .ignored, true, false, true⟩,
  ⟨0x16#8, "RCR", .ignored, true, false, true⟩]

/-- The rows of R77: AddSubEngine (43_addsub.md). -/
def addSubRows : List OpcodeRow := [
  ⟨0x20#8, "ADD", .ignored, false, true, false⟩,
  ⟨0x21#8, "EXPADD", .tag, true, true, false⟩,
  ⟨0x22#8, "SUB", .ignored, false, true, false⟩,
  ⟨0x23#8, "EXPSUB", .tag, false, true, false⟩]

/-- The rows of R77: MulEngine (44_mul.md). -/
def mulRows : List OpcodeRow := [
  ⟨0x30#8, "SMUL", .fixed false, false, true, false⟩,
  ⟨0x31#8, "BMUL", .fixed true, false, true, false⟩,
  ⟨0x32#8, "KMUL", .fixed false, false, true, false⟩,
  ⟨0x33#8, "MUL", .tag, false, true, false⟩,
  ⟨0x34#8, "EXPMUL", .tag, false, true, false⟩]

/-- The rows of R77: DivEngine and WidthCast (45_div.md, 46_widthcast.md). -/
def divCastRows : List OpcodeRow := [
  ⟨0x40#8, "RDIV", .tag, false, true, false⟩,
  ⟨0x41#8, "DIV", .tag, false, true, false⟩,
  ⟨0x42#8, "REM", .tag, false, true, false⟩,
  ⟨0x50#8, "CAST", .tag, false, true, false⟩]

/-- The rows of R77: bitwise operations and comparisons (47_bitwise_compare.md). -/
def bitwiseRows : List OpcodeRow := [
  ⟨0x60#8, "AND", .ignored, false, true, false⟩,
  ⟨0x61#8, "OR", .ignored, false, true, false⟩,
  ⟨0x62#8, "NOT", .ignored, false, false, false⟩,
  ⟨0x68#8, "EQ", .ignored, false, true, false⟩,
  ⟨0x69#8, "NE", .ignored, false, true, false⟩,
  ⟨0x6A#8, "LT", .tag, false, true, false⟩,
  ⟨0x6B#8, "LE", .tag, false, true, false⟩,
  ⟨0x6C#8, "GT", .tag, false, true, false⟩,
  ⟨0x6D#8, "GE", .tag, false, true, false⟩]

/-- The opcode map (R77). -/
def opcodeTable : List OpcodeRow :=
  storageRows ++ shiftRows ++ addSubRows ++ mulRows ++ divCastRows ++ bitwiseRows

/-- The command of given fields, by OPC; none where OPC is reserved (R77, R78). -/
def instrOf (f : Fields) : Option Instr :=
  match f.opc with
  | 0x01#8 => some (.word f.wa f.imm)
  | 0x02#8 => some (.setword f.wa f.imm)
  | 0x03#8 => some (.bit f.wa f.imm)
  | 0x04#8 => some (.setbit f.wa f.imm f.ci)
  | 0x05#8 => some (.concat f.wa f.wb)
  | 0x06#8 => some (.split f.wa f.imm)
  | 0x07#8 => some (.width f.wa)
  | 0x08#8 => some (.wordcount f.wa)
  | 0x09#8 => some (.wordmask f.wa f.imm)
  | 0x0A#8 => some (.fromnat (Tag.ofBit f.s) f.wa)
  | 0x0B#8 => some (.fromlimbs f.wa f.imm)
  | 0x0C#8 => some (.frombits f.wa f.imm)
  | 0x0D#8 => some (.tobits f.wa)
  | 0x10#8 => some (.shl f.wa f.imm)
  | 0x11#8 => some (.shr f.wa f.imm)
  | 0x12#8 => some (.sar f.wa f.imm)
  | 0x13#8 => some (.rol f.wa f.imm)
  | 0x14#8 => some (.ror f.wa f.imm)
  | 0x15#8 => some (.rcl f.wa f.imm f.ci)
  | 0x16#8 => some (.rcr f.wa f.imm f.ci)
  | 0x20#8 => some (.add f.wa f.wb)
  | 0x21#8 => some (.expadd (Tag.ofBit f.s) f.wa f.wb f.ci)
  | 0x22#8 => some (.sub f.wa f.wb)
  | 0x23#8 => some (.expsub (Tag.ofBit f.s) f.wa f.wb)
  | 0x30#8 => some (.smul f.wa f.wb)
  | 0x31#8 => some (.bmul f.wa f.wb)
  | 0x32#8 => some (.kmul f.wa f.wb)
  | 0x33#8 => some (.mul (Tag.ofBit f.s) f.wa f.wb)
  | 0x34#8 => some (.expmul (Tag.ofBit f.s) f.wa f.wb)
  | 0x40#8 => some (.rdiv (Tag.ofBit f.s) f.wa f.wb)
  | 0x41#8 => some (.div (Tag.ofBit f.s) f.wa f.wb)
  | 0x42#8 => some (.rem (Tag.ofBit f.s) f.wa f.wb)
  | 0x50#8 => some (.cast (Tag.ofBit f.s) f.wa f.wb)
  | 0x60#8 => some (.and f.wa f.wb)
  | 0x61#8 => some (.or f.wa f.wb)
  | 0x62#8 => some (.not f.wa)
  | 0x68#8 => some (.eq f.wa f.wb)
  | 0x69#8 => some (.ne f.wa f.wb)
  | 0x6A#8 => some (.lt (Tag.ofBit f.s) f.wa f.wb)
  | 0x6B#8 => some (.le (Tag.ofBit f.s) f.wa f.wb)
  | 0x6C#8 => some (.gt (Tag.ofBit f.s) f.wa f.wb)
  | 0x6D#8 => some (.ge (Tag.ofBit f.s) f.wa f.wb)
  | _ => none

/-- The value bit S must hold for SAR, SMUL, BMUL and KMUL (R71). -/
def fixedTag (opc : BitVec 8) : Option Bool :=
  match opc with
  | 0x12#8 => some true
  | 0x30#8 => some false
  | 0x31#8 => some true
  | 0x32#8 => some false
  | _ => none

/-- Why a word is no command (R78, R73, R71); each gives BadCommand (R79). -/
inductive DecodeError where
  /-- OPC is not in the opcode map -/
  | reservedOpcode (opc : BitVec 8)
  /-- RSV is not 0 -/
  | reservedBits (rsv : BitVec 6)
  /-- S differs from the value the command fixes -/
  | wrongTag (s : Bool)
deriving DecidableEq, Repr

/-- What a word decodes to. -/
inductive Decoded where
  | command (i : Instr)
  | rejected (e : DecodeError)
deriving DecidableEq, Repr

/-- The checks of R79 on OPC, RSV and S, in its order. -/
def decodeFields (f : Fields) : Decoded :=
  match instrOf f with
  | none => .rejected (.reservedOpcode f.opc)
  | some i =>
    if f.rsv ≠ 0#6 then .rejected (.reservedBits f.rsv)
    else if (fixedTag f.opc).all (· == f.s) then .command i
    else .rejected (.wrongTag f.s)

/-- Decoding, total on any 64-bit word (R79, R80). -/
def decode (w : CmdWord) : Decoded := decodeFields (Fields.ofWord w)

/-- The fields of a command's word, an unused field 0 (R81). -/
def fieldsOf : Instr → Fields
  | .word wa i => ⟨0x01#8, false, false, 0, wa, 0, i⟩
  | .setword wa i => ⟨0x02#8, false, false, 0, wa, 0, i⟩
  | .bit wa i => ⟨0x03#8, false, false, 0, wa, 0, i⟩
  | .setbit wa i v => ⟨0x04#8, false, v, 0, wa, 0, i⟩
  | .concat wa wb => ⟨0x05#8, false, false, 0, wa, wb, 0⟩
  | .split wa p => ⟨0x06#8, false, false, 0, wa, 0, p⟩
  | .width wa => ⟨0x07#8, false, false, 0, wa, 0, 0⟩
  | .wordcount wa => ⟨0x08#8, false, false, 0, wa, 0, 0⟩
  | .wordmask wa i => ⟨0x09#8, false, false, 0, wa, 0, i⟩
  | .fromnat s wa => ⟨0x0A#8, s.bit, false, 0, wa, 0, 0⟩
  | .fromlimbs wa n => ⟨0x0B#8, false, false, 0, wa, 0, n⟩
  | .frombits wa n => ⟨0x0C#8, false, false, 0, wa, 0, n⟩
  | .tobits wa => ⟨0x0D#8, false, false, 0, wa, 0, 0⟩
  | .shl wa k => ⟨0x10#8, false, false, 0, wa, 0, k⟩
  | .shr wa k => ⟨0x11#8, false, false, 0, wa, 0, k⟩
  | .sar wa k => ⟨0x12#8, true, false, 0, wa, 0, k⟩
  | .rol wa k => ⟨0x13#8, false, false, 0, wa, 0, k⟩
  | .ror wa k => ⟨0x14#8, false, false, 0, wa, 0, k⟩
  | .rcl wa k ci => ⟨0x15#8, false, ci, 0, wa, 0, k⟩
  | .rcr wa k ci => ⟨0x16#8, false, ci, 0, wa, 0, k⟩
  | .add wa wb => ⟨0x20#8, false, false, 0, wa, wb, 0⟩
  | .expadd s wa wb ci => ⟨0x21#8, s.bit, ci, 0, wa, wb, 0⟩
  | .sub wa wb => ⟨0x22#8, false, false, 0, wa, wb, 0⟩
  | .expsub s wa wb => ⟨0x23#8, s.bit, false, 0, wa, wb, 0⟩
  | .smul wa wb => ⟨0x30#8, false, false, 0, wa, wb, 0⟩
  | .bmul wa wb => ⟨0x31#8, true, false, 0, wa, wb, 0⟩
  | .kmul wa wb => ⟨0x32#8, false, false, 0, wa, wb, 0⟩
  | .mul s wa wb => ⟨0x33#8, s.bit, false, 0, wa, wb, 0⟩
  | .expmul s wa wb => ⟨0x34#8, s.bit, false, 0, wa, wb, 0⟩
  | .rdiv s wa wb => ⟨0x40#8, s.bit, false, 0, wa, wb, 0⟩
  | .div s wa wb => ⟨0x41#8, s.bit, false, 0, wa, wb, 0⟩
  | .rem s wa wb => ⟨0x42#8, s.bit, false, 0, wa, wb, 0⟩
  | .cast s wa wb => ⟨0x50#8, s.bit, false, 0, wa, wb, 0⟩
  | .and wa wb => ⟨0x60#8, false, false, 0, wa, wb, 0⟩
  | .or wa wb => ⟨0x61#8, false, false, 0, wa, wb, 0⟩
  | .not wa => ⟨0x62#8, false, false, 0, wa, 0, 0⟩
  | .eq wa wb => ⟨0x68#8, false, false, 0, wa, wb, 0⟩
  | .ne wa wb => ⟨0x69#8, false, false, 0, wa, wb, 0⟩
  | .lt s wa wb => ⟨0x6A#8, s.bit, false, 0, wa, wb, 0⟩
  | .le s wa wb => ⟨0x6B#8, s.bit, false, 0, wa, wb, 0⟩
  | .gt s wa wb => ⟨0x6C#8, s.bit, false, 0, wa, wb, 0⟩
  | .ge s wa wb => ⟨0x6D#8, s.bit, false, 0, wa, wb, 0⟩

/-- Encoding: the word of a command, every ignored field 0. -/
def encode (i : Instr) : CmdWord := (fieldsOf i).word

/-- The row of the opcode map for a number. -/
def rowOf (opc : BitVec 8) : Option OpcodeRow := opcodeTable.find? (·.opc == opc)

/-- The bits of the word a command of this row ignores (columns S, CI, WB, IMM of R77 with "-";
R71, R72, R74, R75), as a word with 1 in each of them. -/
def OpcodeRow.ignoredBits (r : OpcodeRow) : CmdWord :=
  Fields.word {
    opc := 0
    s := decide (r.s = .ignored)
    ci := !r.ci
    rsv := 0
    wa := 0
    wb := if r.wb then 0 else BitVec.allOnes 16
    imm := if r.imm then 0 else BitVec.allOnes 16 }

/-- The bits of the word a command ignores. -/
def Instr.ignoredBits (i : Instr) : CmdWord :=
  match rowOf (fieldsOf i).opc with
  | some r => r.ignoredBits
  | none => 0

/-- The decoder's answer for an instruction whose low `nbits` bits are `w` and whose other bits are
0, numbered as spec/opcode_table.json numbers them; none where the decoder refuses. -/
def decodeTableWord (nbits w : Nat) : Option Instr :=
  match decode (BitVec.ofNat 64 (w % 2 ^ min nbits 64)) with
  | .command i => some i
  | .rejected _ => none

end Sys2Proof
end

