-- ==== Sys2Proof/Machine/State.lean ====
section
/-! DEFINITION. The state of the unit as plain data (10_state.md), what the host does to it, and the
state after reset (10_state.md R39). -/

namespace Sys2Proof.Machine

/-- PHASE, the unit's control state (R24). BUSY = 1 with DONE = 1 cannot be written down. -/
inductive Phase where
  /-- no command has completed since reset and none is executing -/
  | idle
  /-- a command is executing -/
  | busy
  /-- the last accepted command has completed and its response is held -/
  | done
deriving DecidableEq, Repr

/-- The causes of an error (60_exceptions.md R300 to R305). -/
inductive ErrorCode where
  | indexError
  | divisionByZero
  | widthMismatch
  | parseError
  | badCommand
deriving DecidableEq, Repr

/-- ST, the status of a completed command (R30). Codes 6 and 7 cannot be written down. -/
inductive StatusCode where
  | ok
  | error (e : ErrorCode)
deriving DecidableEq, Repr

/-- The input ports the unit sees at one rising edge of `clk` (R38). -/
structure Pins where
  rst : Bool
  cmdValid : Bool
  cmd : CmdWord
  a : Bus
  b : Bus
deriving DecidableEq, Repr

/-- An edge at which the host does nothing: no reset and no command. -/
def Pins.idle : Pins := { rst := false, cmdValid := false, cmd := 0, a := [], b := [] }

/-- What the host can read (R25, R28 to R32, R38). -/
inductive Output where
  /-- the STATUS register, port `status` -/
  | status
  /-- its field ST -/
  | st
  /-- its field CO -/
  | co
  /-- the result bus R0, port `r0` -/
  | r0
  /-- the field RW0 of port `rw` -/
  | rw0
  /-- the result bus R1, port `r1` -/
  | r1
  /-- the field RW1 of port `rw` -/
  | rw1
deriving DecidableEq, Repr

/-- What a read gives. -/
inductive ReadValue where
  | status (w : BitVec 64)
  | code (st : StatusCode)
  | bit (c : Bool)
  | bus (x : Bus)
  | width (w : BitVec 32)
deriving DecidableEq, Repr

/-- One thing the host does, and one step of the machine (log entry 2). -/
inductive HostEvent where
  /-- a rising edge of `clk` with these input ports -/
  | clk (p : Pins)
  /-- a read of an output between two edges -/
  | read (o : Output)
deriving DecidableEq, Repr

/-- Why the machine stops. -/
inductive Fault where
  /-- A host event reads an output that holds no value (R29, I1, I17): R0, RW0, R1, RW1 or CO with
  its valid bit 0, or ST before DONE. Raised by `hostRead` only, never by a command. Safe: the unit
  itself would go on and give the host meaningless bits. -/
  | noValue (o : Output)
deriving DecidableEq, Repr

/-- Why an instruction has no meaning here. -/
inductive Refusal where
  /-- A command whose arm of `exec` has no meaning yet. No arm raises it: all 42 commands are
  modelled. Safe. -/
  | notModelled (mnemonic : String)
deriving DecidableEq, Repr

/-- The state. From `phase` to `r1` it is the spec's (10_state.md R23 to R32); `cfg` are the build
parameters; the last four fields are the model's own. -/
structure State where
  /-- the build parameters L and WMAX, which no step changes (R403, log entry 1) -/
  cfg : Config
  /-- PHASE (R24) -/
  phase : Phase
  /-- CMD, the captured command word (R23) -/
  cmd : CmdWord
  /-- A, the captured operand bus (R23) -/
  a : Bus
  /-- B, the captured operand bus (R23) -/
  b : Bus
  /-- STATUS.CO (R25, R28) -/
  co : Bool
  /-- STATUS.R0V (R25, R29) -/
  r0v : Bool
  /-- STATUS.R1V (R25, R29) -/
  r1v : Bool
  /-- STATUS.COV (R25) -/
  cov : Bool
  /-- STATUS.ST (R25, R30) -/
  st : StatusCode
  /-- RW[31:0], the width of the value on R0 (R31) -/
  rw0 : BitVec 32
  /-- RW[63:32], the width of the value on R1 (R31) -/
  rw1 : BitVec 32
  /-- R0 (R32) -/
  r0 : Bus
  /-- R1 (R32) -/
  r1 : Bus
  /-- further edges before the one that completes the executing command (log entry 3) -/
  wait : Nat
  /-- how many commands have been accepted: the counter of the free latency (log entry 3) -/
  accepted : Nat
  /-- what the host does next, oldest first; none left means edges with `Pins.idle` (log entry 2) -/
  events : List HostEvent
  /-- what the host has read, newest first (log entry 11) -/
  seen : List (Output × ReadValue)
deriving DecidableEq, Repr

/-- The unit of configuration `c` right after reset (R39, R400): PHASE = IDLE, STATUS = 0, RW = 0.
The bits of CMD, A, B, R0 and R1 are unspecified there: DESIGN CHOICE 0 (log entry 4). -/
def State.resetOf (c : Config) : State where
  cfg := c
  phase := .idle
  cmd := 0
  a := List.replicate c.nbus 0
  b := List.replicate c.nbus 0
  co := false
  r0v := false
  r1v := false
  cov := false
  st := .ok
  rw0 := 0
  rw1 := 0
  r0 := List.replicate c.nbus 0
  r1 := List.replicate c.nbus 0
  wait := 0
  accepted := 0
  events := []
  seen := []

/-- The reference unit (L = 64, WMAX = 1024; log entry 1) right after reset. -/
def State.reset : State := State.resetOf Config.reference

end Sys2Proof.Machine
end

