-- ==== Sys2Proof/Machine/Operands.lean ====
section
/-! DEFINITION. Values, limbs and buses: the notation of 00_scope.md R11 to R15 (truncation, signed
reading, extension, fields, word count and mask), the reading of operands (R13, R76), the layout of
a value on a bus (10_state.md R22, 20_memory.md R52 to R54), and the width checks of 30_encoding.md
R79 as they guard a command's operands. -/

namespace Sys2Proof.Machine

/-! ## Numbers (R12) -/

/-- `trunc_n(v) = v mod 2^n` (R12). -/
def trunc (n v : Nat) : Nat := v % 2 ^ n

/-- `trunc_n` of an integer: the n-bit two's-complement pattern of `z` (R12). -/
def truncInt (n : Nat) (z : Int) : Nat := (z % ((2 ^ n : Nat) : Int)).toNat

/-- `sval_w(v)`, the two's-complement reading of a `w`-bit value (R12). -/
def sval (w v : Nat) : Int :=
  if v.testBit (w - 1) then (v : Int) - ((2 ^ w : Nat) : Int) else (v : Int)

/-- The value of a `w`-bit pattern under a tag (R12). -/
def valueOf (t : Tag) (w v : Nat) : Int :=
  match t with
  | .unsigned => (v : Int)
  | .signed => sval w v

/-- `ext_n^S(v)` of a `w`-bit value: zero-extension for S = 0, sign-extension for S = 1 (R12). -/
def ext (t : Tag) (n w v : Nat) : Nat :=
  match t with
  | .unsigned => v
  | .signed => truncInt n (sval w v)

/-- `~_w v = 2^w - 1 - v` (R12). -/
def complement (w v : Nat) : Nat := 2 ^ w - 1 - v

/-- `v[lo + n - 1 : lo]`, the `n` bits of `v` from bit `lo` up (R11). -/
def bitsAt (v lo n : Nat) : Nat := v / 2 ^ lo % 2 ^ n

/-- `v[i]` as 0 or 1 (R11). -/
def bitAt (v i : Nat) : Nat := (v.testBit i).toNat

/-! ## Limbs of a width (R14) -/

/-- `wc(W) = ceil(W / L)`, the word count (R14). -/
def wc (c : Config) (w : Nat) : Nat := (w + c.L - 1) / c.L

/-- `wmask(W, i)`, the word mask (R14): all ones but for the last limb, which has `W mod L` ones
unless W is a multiple of L. -/
def wmask (c : Config) (w i : Nat) : Nat :=
  if i + 1 = wc c w ∧ w % c.L ≠ 0 then 2 ^ (w % c.L) - 1 else 2 ^ c.L - 1

/-! ## Buses (R13, R22, R52 to R54) -/

/-- The number on a bus: `sum over j of X.limb[j] * 2^(j*L)` (R13), limb 0 least significant. -/
def busNat (L : Nat) : Bus → Nat
  | [] => 0
  | x :: xs => x + 2 ^ L * busNat L xs

/-- `X.limb[j]` (R13). -/
def limbAt (x : Bus) (j : Nat) : Nat := x.getD j 0

/-- `val(X, W)`, the `W`-bit value of bus X: bus bits at and above W are ignored (R13, R76). -/
def val (c : Config) (x : Bus) (w : Nat) : Nat := trunc w (busNat c.L x)

/-- `bytes(X, j)`, byte `j` of a bus: little-endian in a limb, limbs in increasing order (R13, R54). -/
def byteAt (c : Config) (x : Bus) (j : Nat) : Nat :=
  bitsAt (limbAt x (j / (c.L / 8))) (8 * (j % (c.L / 8))) 8

/-- The bus that carries the `w`-bit value `v`: limb `j` is `v[j*L+L-1 : j*L]` for `j < wc(w)` and 0
from there on (R15, R22). -/
def busOf (c : Config) (v w : Nat) : Bus :=
  (List.range c.nbus).map fun j => if j < wc c w then bitsAt v (j * c.L) c.L else 0

/-- What the NBUS*L wires of an operand port hold (R8, R38): exactly NBUS limbs of L bits, whatever
list a `Pins` record gives (log entry 6). -/
def portBus (c : Config) (x : Bus) : Bus :=
  (List.range c.nbus).map fun j => trunc c.L (limbAt x j)

/-- A bus has NBUS limbs of L bits (R8, R22). -/
def busWf (c : Config) (x : Bus) : Bool :=
  x.length == c.nbus && x.all (fun l => decide (l < 2 ^ c.L))

/-! ## Responses and the guards of R79 -/

/-- What a command produces (R15): a value and its width for R0 and for R1, a bit for CO; none for
an output it does not write. -/
structure Outputs where
  r0 : Option (Nat × Nat) := none
  r1 : Option (Nat × Nat) := none
  co : Option Bool := none
deriving DecidableEq, Repr

/-- How a command ends (R15): its outputs, or `raise E`. -/
inductive Response where
  | ok (o : Outputs)
  | raise (e : ErrorCode)
deriving DecidableEq, Repr

/-- `R0 <- (v, w)` and nothing else (R15). -/
def Response.r0 (v w : Nat) : Response := .ok { r0 := some (v, w) }

/-- `R0 <- (v, w); R1 <- (v', w')` (R15). -/
def Response.r0r1 (v w v' w' : Nat) : Response := .ok { r0 := some (v, w), r1 := some (v', w') }

/-- `CO <- c` and nothing else (R15). -/
def Response.bit (c : Bool) : Response := .ok { co := some c }

/-- `R0 <- (v, w); CO <- c` (R15). -/
def Response.r0bit (v w : Nat) (c : Bool) : Response := .ok { r0 := some (v, w), co := some c }

/-- A width field lies in 1..WMAX (R9, R74). -/
def widthOk (c : Config) (w : Field16) : Bool := decide (1 ≤ w.toNat ∧ w.toNat ≤ c.wmax)

/-- A command that uses WA but reads no operand by it: `k` gets W. -/
def usingWidth (s : State) (wa : Field16) (k : Nat → Response) : Response :=
  if widthOk s.cfg wa then k wa.toNat else .raise .badCommand

/-- A command with one operand: `k` gets `a = val(A, WA)` and W. -/
def withA (s : State) (wa : Field16) (k : Nat → Nat → Response) : Response :=
  usingWidth s wa fun w => k (val s.cfg s.a w) w

/-- A command whose WA and WB are both used: `k` gets both widths. -/
def usingWidths (s : State) (wa wb : Field16) (k : Nat → Nat → Response) : Response :=
  if widthOk s.cfg wa then
    if widthOk s.cfg wb then k wa.toNat wb.toNat else .raise .badCommand
  else .raise .badCommand

/-- A command with two operands of independent widths: `k` gets a, W, b, V (R74, column WB "V"). -/
def withAB (s : State) (wa wb : Field16) (k : Nat → Nat → Nat → Nat → Response) : Response :=
  usingWidths s wa wb fun w v => k (val s.cfg s.a w) w (val s.cfg s.b v) v

/-- A command with two operands of one width: `k` gets a, b, W. WidthMismatch where WB differs,
after the BadCommand checks (R74, R79, R300, column WB "=WA"). -/
def withEqualAB (s : State) (wa wb : Field16) (k : Nat → Nat → Nat → Response) : Response :=
  usingWidths s wa wb fun w v =>
    if v ≠ w then .raise .widthMismatch else k (val s.cfg s.a w) (val s.cfg s.b w) w

end Sys2Proof.Machine
end

