-- ==== Sys2Proof/Machine/Flags.lean ====
section
/-! DEFINITION. The flag-like outputs (10_state.md R33): the STATUS and RW words assembled from
their fields (R25, R30, R31), and the bits the comparisons put on CO (47_bitwise_compare.md R233 to
R238). -/

namespace Sys2Proof.Machine

/-- The code of an error (R30). -/
def ErrorCode.code : ErrorCode → Nat
  | .indexError => 1
  | .divisionByZero => 2
  | .widthMismatch => 3
  | .parseError => 4
  | .badCommand => 5

/-- ST as a number (R30). -/
def StatusCode.code : StatusCode → Nat
  | .ok => 0
  | .error e => e.code

/-- STATUS.BUSY: 1 while PHASE = BUSY (R24, R25). -/
def busyBit (s : State) : Bool := decide (s.phase = .busy)

/-- STATUS.DONE: 1 while PHASE = DONE (R24, R25). -/
def doneBit (s : State) : Bool := decide (s.phase = .done)

/-- The STATUS register: BUSY, DONE, CO, R0V, R1V, COV in bits 0 to 5, ST in bits 10:8, every other
bit 0 (R25). -/
def statusWord (s : State) : BitVec 64 :=
  BitVec.ofNat 64
    ((busyBit s).toNat + 2 * (doneBit s).toNat + 4 * s.co.toNat + 8 * s.r0v.toNat
      + 16 * s.r1v.toNat + 32 * s.cov.toNat + 256 * s.st.code)

/-- The RW register: RW0 in bits 31:0, RW1 in bits 63:32 (R31). -/
def rwWord (s : State) : BitVec 64 := s.rw1 ++ s.rw0

/-- Equality of two values of one width (R233). -/
def eqFlag (a b : Nat) : Bool := decide (a = b)

/-- Less than, by the tag (R235). -/
def ltFlag (t : Tag) (w a b : Nat) : Bool := decide (valueOf t w a < valueOf t w b)

/-- Less than or equal, by the tag (R236). -/
def leFlag (t : Tag) (w a b : Nat) : Bool := decide (valueOf t w a ≤ valueOf t w b)

end Sys2Proof.Machine
end

