-- ==== Sys2Proof/Machine/Ops.lean ====
section
/-! DEFINITION. The operations on the unit's registers, each written once: acceptance (10_state.md
R26, 70_reset_and_hazards.md R404), completion with outputs (10_state.md R27, 00_scope.md R15),
completion with an error (60_exceptions.md R303; the unit's only exception, it transfers no control
and nothing returns from it, R309, R310), reset (R400, R401) and the host's reads (R29, R58). -/

namespace Sys2Proof.Machine

/-- Completion with an error (R303): DONE with the code, no output valid, nothing else changed. -/
def State.failed (s : State) (e : ErrorCode) : State :=
  { s with phase := .done, st := .error e, r0v := false, r1v := false, cov := false }

/-- Completion with outputs (R15, R27): DONE with status OK; an output the command writes gets its
value, width and valid bit; of any other the valid bit is 0 (its bits stay, log entry 5). -/
def State.completed (s : State) (o : Outputs) : State :=
  { s with
    phase := .done
    st := .ok
    r0v := o.r0.isSome
    r1v := o.r1.isSome
    cov := o.co.isSome
    co := o.co.getD s.co
    rw0 := match o.r0 with
      | some (_, w) => BitVec.ofNat 32 w
      | none => s.rw0
    rw1 := match o.r1 with
      | some (_, w) => BitVec.ofNat 32 w
      | none => s.rw1
    r0 := match o.r0 with
      | some (v, w) => busOf s.cfg v w
      | none => s.r0
    r1 := match o.r1 with
      | some (v, w) => busOf s.cfg v w
      | none => s.r1 }

/-- Completion of the executing command with its response (R27, R303). -/
def State.respond (s : State) : Response → State
  | .ok o => s.completed o
  | .raise e => s.failed e

/-- The outcome of a command: it always completes (R405). -/
def respond (s : State) (r : Response) : Host.Outcome State Fault Refusal := .next (s.respond r)

/-- `cmd_ready`: 1 iff PHASE != BUSY and rst = 0, combinational (R38, C9). -/
def cmdReady (s : State) (rst : Bool) : Bool := decide (s.phase ≠ .busy) && !rst

/-- Acceptance of a command (R404, R26): CMD, A and B captured, PHASE = BUSY, the valid bits 0; ST,
CO, RW, R0 and R1 keep their bits. The command will take `latency + 1` edges (log entry 3). -/
def State.accept (s : State) (p : Pins) : State :=
  let a := portBus s.cfg p.a
  let b := portBus s.cfg p.b
  { s with
    phase := .busy
    cmd := p.cmd
    a := a
    b := b
    r0v := false
    r1v := false
    cov := false
    wait := Config.latency s.cfg s.accepted p.cmd a b
    accepted := s.accepted + 1 }

/-- An edge with rst = 1 (R400, R401): the reset state of R39, whatever the unit was doing. The
build parameters and the model's record of the host stay; so does the counter of the free latency. -/
def State.resetUnit (s : State) : State :=
  { State.resetOf s.cfg with accepted := s.accepted, events := s.events, seen := s.seen }

/-- One more edge of a command that is still executing (R405). -/
def State.waited (s : State) : State := { s with wait := s.wait - 1 }

/-- The host has taken its next event. -/
def State.took (s : State) (rest : List HostEvent) : State := { s with events := rest }

/-- What a read of an output gives; none where it holds no value (R25, R26, R29, R31, R32, I1, I2). -/
def readOutput (s : State) : Output → Option ReadValue
  | .status => some (.status (statusWord s))
  | .st => if s.phase = .done then some (.code s.st) else none
  | .co => if s.cov then some (.bit s.co) else none
  | .r0 => if s.r0v then some (.bus s.r0) else none
  | .rw0 => if s.r0v then some (.width s.rw0) else none
  | .r1 => if s.r1v then some (.bus s.r1) else none
  | .rw1 => if s.r1v then some (.width s.rw1) else none

/-- A host read: no effect on the unit (R58), the value goes to the host; a read of an output that
holds no value is a fault of the reading program (R29). -/
def hostRead (s : State) (o : Output) : Host.Outcome State Fault Refusal :=
  match readOutput s o with
  | some v => .next { s with seen := (o, v) :: s.seen }
  | none => .fault (.noValue o)

end Sys2Proof.Machine
end

