-- ==== Sys2Proof/Machine/AddSub.lean ====
section
/-! DEFINITION. AddSubEngine (43_addsub.md): ADD, EXPADD, SUB, EXPSUB, and the ripple-carry datapath
of R160. -/

namespace Sys2Proof.Machine

/-- ADD (R161): modulo 2^WA, no carry reported. -/
def execAdd (wa wb : Field16) (s : State) : Host.Outcome State Fault Refusal :=
  respond s <| withEqualAB s wa wb fun a b w => .r0 (trunc w (a + b)) w

/-- The value of EXPADD at `m = max(WA, WB)` (R162). -/
def expaddValue (t : Tag) (w v a b : Nat) (ci : Bool) : Nat :=
  trunc (max w v + 1) (ext t (max w v + 1) w a + ext t (max w v + 1) v b + ci.toNat)

/-- EXPADD (R162): one bit wider than the wider operand, exact. -/
def execExpadd (t : Tag) (wa wb : Field16) (ci : Bool) (s : State) :
    Host.Outcome State Fault Refusal :=
  respond s <| withAB s wa wb fun a w b v => .r0 (expaddValue t w v a b ci) (max w v + 1)

/-- SUB (R163): `a + not b + 1` modulo 2^WA. -/
def execSub (wa wb : Field16) (s : State) : Host.Outcome State Fault Refusal :=
  respond s <| withEqualAB s wa wb fun a b w => .r0 (trunc w (a + complement w b + 1)) w

/-- The value of EXPSUB at `m = max(WA, WB)` (R164). -/
def expsubValue (t : Tag) (w v a b : Nat) : Nat :=
  truncInt (max w v) ((ext t (max w v) w a : Int) - (ext t (max w v) v b : Int))

/-- EXPSUB (R164): at the wider width, no guard bit. -/
def execExpsub (t : Tag) (wa wb : Field16) (s : State) : Host.Outcome State Fault Refusal :=
  respond s <| withAB s wa wb fun a w b v => .r0 (expsubValue t w v a b) (max w v)

/-- The ripple-carry datapath on limbs (R160): `s_j = (A_j + B_j + c_j) mod 2^L` and
`c_(j+1) = 1 iff A_j + B_j + c_j >= 2^L`. It stops with the shorter list. No output exposes it; that
it gives the modular sum is stated and proved. -/
def rippleAdd (L : Nat) : Bus → Bus → Bool → Bus
  | x :: xs, y :: ys, c =>
    trunc L (x + y + c.toNat) :: rippleAdd L xs ys (decide (2 ^ L ≤ x + y + c.toNat))
  | _, _, _ => []

end Sys2Proof.Machine
end

