-- ==== Sys2Proof/Machine/Bitwise.lean ====
section
/-! DEFINITION. Bitwise operations and comparisons (47_bitwise_compare.md): AND, OR, NOT, EQ, NE, LT,
LE, GT, GE. -/

namespace Sys2Proof.Machine

/-- AND (R230). -/
def execAnd (wa wb : Field16) (s : State) : Host.Outcome State Fault Refusal :=
  respond s <| withEqualAB s wa wb fun a b w => .r0 (a &&& b) w

/-- OR (R231). -/
def execOr (wa wb : Field16) (s : State) : Host.Outcome State Fault Refusal :=
  respond s <| withEqualAB s wa wb fun a b w => .r0 (a ||| b) w

/-- NOT (R232): within the width. -/
def execNot (wa : Field16) (s : State) : Host.Outcome State Fault Refusal :=
  respond s <| withA s wa fun a w => .r0 (complement w a) w

/-- EQ (R233). -/
def execEq (wa wb : Field16) (s : State) : Host.Outcome State Fault Refusal :=
  respond s <| withEqualAB s wa wb fun a b _ => .bit (eqFlag a b)

/-- NE (R234). -/
def execNe (wa wb : Field16) (s : State) : Host.Outcome State Fault Refusal :=
  respond s <| withEqualAB s wa wb fun a b _ => .bit (!eqFlag a b)

/-- LT (R235). -/
def execLt (t : Tag) (wa wb : Field16) (s : State) : Host.Outcome State Fault Refusal :=
  respond s <| withEqualAB s wa wb fun a b w => .bit (ltFlag t w a b)

/-- LE (R236). -/
def execLe (t : Tag) (wa wb : Field16) (s : State) : Host.Outcome State Fault Refusal :=
  respond s <| withEqualAB s wa wb fun a b w => .bit (leFlag t w a b)

/-- GT (R237): a > b. -/
def execGt (t : Tag) (wa wb : Field16) (s : State) : Host.Outcome State Fault Refusal :=
  respond s <| withEqualAB s wa wb fun a b w => .bit (ltFlag t w b a)

/-- GE (R238): a >= b. -/
def execGe (t : Tag) (wa wb : Field16) (s : State) : Host.Outcome State Fault Refusal :=
  respond s <| withEqualAB s wa wb fun a b w => .bit (leFlag t w b a)

end Sys2Proof.Machine
end

