-- ==== Sys2Proof/Machine/Div.lean ====
section
/-! DEFINITION. DivEngine (45_div.md): RDIV, DIV, REM by restoring division. The fast paths of R201
are not taken: they give the same values and are observable only in latency, which is free. -/

namespace Sys2Proof.Machine

/-- The loop of `udivrem` (R200) over numerator bits `i-1` down to 0, from remainder `r` and quotient
`q`; it answers (q, R). -/
def udivremLoop (n d : Nat) : Nat → Nat → Nat → Nat × Nat
  | 0, r, q => (q, r)
  | i + 1, r, q =>
    if 2 * r + bitAt n i ≥ d then udivremLoop n d i (2 * r + bitAt n i - d) (q + 2 ^ i)
    else udivremLoop n d i (2 * r + bitAt n i) q

/-- `udivrem(n, d, W)`: unsigned restoring division (R200). -/
def udivrem (n d w : Nat) : Nat × Nat := udivremLoop n d w 0 0

/-- The fast paths that may answer before the loop (R201). No output tells whether they are taken. -/
def fastPath (n d : Nat) : Option (Nat × Nat) :=
  if n = d then some (1, 0)
  else if n = 0 then some (0, 0)
  else if n < d then some (0, n)
  else if d = 1 then some (n, 0)
  else none

/-- Quotient and remainder by the tag (R200): for S = 1 of the absolute values, the quotient's sign
the XOR of the operands' signs, the remainder's the numerator's. -/
def divrem (t : Tag) (w v a b : Nat) : Nat × Nat :=
  match t with
  | .unsigned => udivrem a b w
  | .signed =>
    let qr := udivrem (sval w a).natAbs (sval v b).natAbs w
    (truncInt w (if (sval w a < 0) ↔ (sval v b < 0) then (qr.1 : Int) else -(qr.1 : Int)),
      truncInt w (if 0 ≤ sval w a then (qr.2 : Int) else -(qr.2 : Int)))

/-- RDIV (R200): quotient on R0, remainder on R1. -/
def execRdiv (t : Tag) (wa wb : Field16) (s : State) : Host.Outcome State Fault Refusal :=
  respond s <| withAB s wa wb fun a w b v =>
    if b = 0 then .raise .divisionByZero
    else .r0r1 (divrem t w v a b).1 w (divrem t w v a b).2 w

/-- DIV (R202): the quotient. -/
def execDiv (t : Tag) (wa wb : Field16) (s : State) : Host.Outcome State Fault Refusal :=
  respond s <| withAB s wa wb fun a w b v =>
    if b = 0 then .raise .divisionByZero else .r0 (divrem t w v a b).1 w

/-- REM (R203): the remainder. -/
def execRem (t : Tag) (wa wb : Field16) (s : State) : Host.Outcome State Fault Refusal :=
  respond s <| withAB s wa wb fun a w b v =>
    if b = 0 then .raise .divisionByZero else .r0 (divrem t w v a b).2 w

end Sys2Proof.Machine
end

