-- ==== Sys2Proof/Machine/LimbStorage.lean ====
section
/-! DEFINITION. LimbStorage, accessors and constructors (41_limb_storage.md): WORD, SETWORD, BIT,
SETBIT, CONCAT, SPLIT, WIDTH, WORDCOUNT, WORDMASK, FROMNAT, FROMLIMBS, FROMBITS, TOBITS. -/

namespace Sys2Proof.Machine

/-! ## Accessors and mutators -/

/-- WORD (R102): limb i of A. -/
def execWord (wa i : Field16) (s : State) : Host.Outcome State Fault Refusal :=
  respond s <| withA s wa fun a w =>
    if i.toNat ≥ wc s.cfg w then .raise .indexError
    else .r0 (bitsAt a (i.toNat * s.cfg.L) s.cfg.L) s.cfg.L

/-- `a` with the `n` bits from bit `lo` up replaced by `v` (R103, R105). -/
def replaceBits (a lo n v : Nat) : Nat := a - bitsAt a lo n * 2 ^ lo + v * 2 ^ lo

/-- SETWORD (R103): A with limb i replaced by `B.limb[0]`, masked. -/
def execSetword (wa i : Field16) (s : State) : Host.Outcome State Fault Refusal :=
  respond s <| withA s wa fun a w =>
    if i.toNat ≥ wc s.cfg w then .raise .indexError
    else .r0 (replaceBits a (i.toNat * s.cfg.L) s.cfg.L
      (limbAt s.b 0 &&& wmask s.cfg w i.toNat)) w

/-- BIT (R104): bit i of A on CO. -/
def execBit (wa i : Field16) (s : State) : Host.Outcome State Fault Refusal :=
  respond s <| withA s wa fun a w =>
    if i.toNat ≥ w then .raise .indexError else .bit (a.testBit i.toNat)

/-- SETBIT (R105): A with bit i replaced by CI. -/
def execSetbit (wa i : Field16) (v : Bool) (s : State) : Host.Outcome State Fault Refusal :=
  respond s <| withA s wa fun a w =>
    if i.toNat ≥ w then .raise .indexError else .r0 (replaceBits a i.toNat 1 v.toNat) w

/-- CONCAT (R106): A in the low bits, B in the high bits. -/
def execConcat (wa wb : Field16) (s : State) : Host.Outcome State Fault Refusal :=
  respond s <| withAB s wa wb fun a w b v => .r0 (a + b * 2 ^ w) (w + v)

/-- SPLIT (R107): high part on R0, low part on R1. -/
def execSplit (wa p : Field16) (s : State) : Host.Outcome State Fault Refusal :=
  respond s <| withA s wa fun a w =>
    if p.toNat = 0 ∨ p.toNat ≥ w then .raise .badCommand
    else .r0r1 (a / 2 ^ p.toNat) (w - p.toNat) (a % 2 ^ p.toNat) p.toNat

/-- WIDTH (R108): WA as a 16-bit value. -/
def execWidth (wa : Field16) (s : State) : Host.Outcome State Fault Refusal :=
  respond s <| usingWidth s wa fun w => .r0 w 16

/-- WORDCOUNT (R109): `wc(WA)` as a 16-bit value. -/
def execWordcount (wa : Field16) (s : State) : Host.Outcome State Fault Refusal :=
  respond s <| usingWidth s wa fun w => .r0 (wc s.cfg w) 16

/-- WORDMASK (R110): the mask of limb i. -/
def execWordmask (wa i : Field16) (s : State) : Host.Outcome State Fault Refusal :=
  respond s <| usingWidth s wa fun w =>
    if i.toNat ≥ wc s.cfg w then .raise .indexError
    else .r0 (wmask s.cfg w i.toNat) s.cfg.L

/-! ## Constructors -/

/-- FROMNAT (R111): the native integer `A.limb[0]`, unsigned or L-bit two's complement by the tag. -/
def execFromnat (t : Tag) (wa : Field16) (s : State) : Host.Outcome State Fault Refusal :=
  respond s <| usingWidth s wa fun w => .r0 (truncInt w (valueOf t s.cfg.L (limbAt s.a 0))) w

/-- FROMLIMBS (R112): the first n raw limbs of A, least significant first. -/
def execFromlimbs (wa n : Field16) (s : State) : Host.Outcome State Fault Refusal :=
  respond s <| usingWidth s wa fun w =>
    if n.toNat > s.cfg.nbus then .raise .badCommand
    else .r0 (trunc w (busNat s.cfg.L (s.a.take n.toNat))) w

/-- The first `n` characters on a bus, character j in byte j (R113). -/
def charsOn (c : Config) (x : Bus) (n : Nat) : List Nat := (List.range n).map (byteAt c x)

/-- '0' = 0x30 or '1' = 0x31 (R113). -/
def isBitChar (ch : Nat) : Bool := ch == 0x30 || ch == 0x31

/-- The number a bit string denotes, first character most significant (R113). -/
def parseBits (chars : List Nat) : Nat := chars.foldl (fun v ch => 2 * v + (ch - 0x30)) 0

/-- FROMBITS (R113): the value of a bit string of n characters. -/
def execFrombits (wa n : Field16) (s : State) : Host.Outcome State Fault Refusal :=
  respond s <| usingWidth s wa fun w =>
    if n.toNat > s.cfg.charcap then .raise .badCommand
    else if (charsOn s.cfg s.a n.toNat).all isBitChar then
      .r0 (trunc w (parseBits (charsOn s.cfg s.a n.toNat))) w
    else .raise .parseError

/-- The characters of a `w`-bit value, most significant bit first (R114). -/
def bitChars (a w : Nat) : List Nat := (List.range w).map fun j => 0x30 + bitAt a (w - 1 - j)

/-- TOBITS (R114): the bit-string encoding of A, character j in byte j of R0. -/
def execTobits (wa : Field16) (s : State) : Host.Outcome State Fault Refusal :=
  respond s <| withA s wa fun a w => .r0 (busNat 8 (bitChars a w)) (8 * w)

end Sys2Proof.Machine
end

