-- ==== Sys2Proof/Machine/Mul.lean ====
section
/-! DEFINITION. MulEngine (44_mul.md): SMUL, BMUL, KMUL, MUL, EXPMUL, each computed by the algorithm
its rule gives. That the algorithms give the exact products, which the rules call normative, is
stated and proved. Their working registers are not state (10_state.md R35). -/

namespace Sys2Proof.Machine

/-! ## The three algorithms -/

/-- The schoolbook accumulator of width W + V after multiplier bits 0 to i-1 (R180). -/
def schoolbookAcc (w v a b : Nat) : Nat → Nat
  | 0 => 0
  | i + 1 =>
    if b.testBit i then trunc (w + v) (schoolbookAcc w v a b i + a * 2 ^ i)
    else schoolbookAcc w v a b i

/-- Schoolbook multiplication of a W-bit by a V-bit value (R180). -/
def schoolbook (w v a b : Nat) : Nat := schoolbookAcc w v a b v

/-- One Booth iteration on P of K bits (R181): the add chosen by P[1:0], then an arithmetic shift
right by one. -/
def boothStep (K areg sreg p : Nat) : Nat :=
  truncInt K (sval K
    (if p % 4 = 1 then trunc K (p + areg) else if p % 4 = 2 then trunc K (p + sreg) else p) / 2)

/-- `n` Booth iterations (R181). -/
def boothSteps (K areg sreg : Nat) : Nat → Nat → Nat
  | 0, p => p
  | n + 1, p => boothSteps K areg sreg n (boothStep K areg sreg p)

/-- The register A: the sign-extended multiplicand in bits [K-1 : y+1] (R181). -/
def boothA (x y a : Nat) : Nat := trunc (x + y + 2) (ext .signed (x + 1) x a * 2 ^ (y + 1))

/-- The register S: the multiplicand negated at x+1 bits, in bits [K-1 : y+1] (R181). -/
def boothS (x y a : Nat) : Nat := trunc (x + y + 2) (truncInt (x + 1) (-sval x a) * 2 ^ (y + 1))

/-- Radix-2 Booth multiplication of an x-bit by a y-bit signed value (R181). -/
def booth (x y a b : Nat) : Nat :=
  bitsAt (boothSteps (x + y + 2) (boothA x y a) (boothS x y a) y (b * 2)) 1 (x + y)

/-- Karatsuba multiplication of two n-bit values (R182). The first argument bounds the recursion; n
suffices, since the width falls at every level. -/
def karatsuba (L : Nat) : Nat → Nat → Nat → Nat → Nat
  | 0, _, u, v => u * v
  | fuel + 1, n, u, v =>
    if n ≤ L then u * v
    else
      let k := n / 2
      let h := n - k
      let p1 := karatsuba L fuel h (u / 2 ^ k) (v / 2 ^ k)
      let p2 := karatsuba L fuel h (u % 2 ^ k) (v % 2 ^ k)
      let p3 := karatsuba L fuel (h + 1) (u / 2 ^ k + u % 2 ^ k) (v / 2 ^ k + v % 2 ^ k)
      p1 * 2 ^ (2 * k) + (p3 - p1 - p2) * 2 ^ k + p2

/-- The product by the tag: schoolbook for S = 0, Booth for S = 1 (R183, R184). -/
def taggedProduct (t : Tag) (w v a b : Nat) : Nat :=
  match t with
  | .unsigned => schoolbook w v a b
  | .signed => booth w v a b

/-! ## Commands -/

/-- SMUL (R180). S = 1 does not decode to it. -/
def execSmul (wa wb : Field16) (s : State) : Host.Outcome State Fault Refusal :=
  respond s <| withAB s wa wb fun a w b v => .r0 (schoolbook w v a b) (w + v)

/-- BMUL (R181). S = 0 does not decode to it. -/
def execBmul (wa wb : Field16) (s : State) : Host.Outcome State Fault Refusal :=
  respond s <| withAB s wa wb fun a w b v => .r0 (booth w v a b) (w + v)

/-- KMUL (R182): both operands zero-extended to `n = max(WA, WB)` bits, the product 2n bits wide. -/
def execKmul (wa wb : Field16) (s : State) : Host.Outcome State Fault Refusal :=
  respond s <| withAB s wa wb fun a w b v =>
    .r0 (karatsuba s.cfg.L (max w v) (max w v) a b) (2 * max w v)

/-- MUL (R183): the product truncated to the operands' width. -/
def execMul (t : Tag) (wa wb : Field16) (s : State) : Host.Outcome State Fault Refusal :=
  respond s <| withEqualAB s wa wb fun a b w => .r0 (trunc w (taggedProduct t w w a b)) w

/-- EXPMUL (R184): the exact product by the tag. -/
def execExpmul (t : Tag) (wa wb : Field16) (s : State) : Host.Outcome State Fault Refusal :=
  respond s <| withAB s wa wb fun a w b v => .r0 (taggedProduct t w v a b) (w + v)

end Sys2Proof.Machine
end

