-- ==== Sys2Proof/Machine/Shift.lean ====
section
/-! DEFINITION. ShiftEngine (42_shift.md): SHL, SHR, SAR, ROL, ROR, RCL, RCR, and the limb datapath
of R140 that computes the logical shifts. A rotation by k >= W gives 0 (90_conflicts.md C1). -/

namespace Sys2Proof.Machine

/-! ## Shifts -/

/-- The value of SHL (R141). -/
def shlValue (w a k : Nat) : Nat := if k ≥ w then 0 else trunc w (a * 2 ^ k)

/-- The value of SHR (R142). -/
def shrValue (w a k : Nat) : Nat := if k ≥ w then 0 else a / 2 ^ k

/-- The value of SAR (R143): vacated bits take the sign bit, rounding toward minus infinity. -/
def sarValue (w a k : Nat) : Nat :=
  if k ≥ w then (if a.testBit (w - 1) then 2 ^ w - 1 else 0)
  else truncInt w (sval w a / ((2 ^ k : Nat) : Int))

/-- SHL (R141). -/
def execShl (wa k : Field16) (s : State) : Host.Outcome State Fault Refusal :=
  respond s <| withA s wa fun a w => .r0 (shlValue w a k.toNat) w

/-- SHR (R142). -/
def execShr (wa k : Field16) (s : State) : Host.Outcome State Fault Refusal :=
  respond s <| withA s wa fun a w => .r0 (shrValue w a k.toNat) w

/-- SAR (R143). S = 0 does not decode to it. -/
def execSar (wa k : Field16) (s : State) : Host.Outcome State Fault Refusal :=
  respond s <| withA s wa fun a w => .r0 (sarValue w a k.toNat) w

/-! ## Rotations -/

/-- The value of ROL (R144). -/
def rolValue (w a k : Nat) : Nat :=
  if k = 0 then a
  else if k < w then trunc w (a * 2 ^ k) + a / 2 ^ (w - k)
  else 0

/-- The value of ROR (R145). -/
def rorValue (w a k : Nat) : Nat :=
  if k = 0 then a
  else if k < w then a / 2 ^ k + trunc w (a * 2 ^ (w - k))
  else 0

/-- The (w+1)-bit ring `T = {CI, a}`, the carry above bit w-1 (R146). -/
def ring (w a : Nat) (ci : Bool) : Nat := ci.toNat * 2 ^ w + a

/-- The value and the carry of a ring: `T mod 2^w` and `T[w]` (R146). -/
def ringParts (w t : Nat) : Nat × Bool := (t % 2 ^ w, t.testBit w)

/-- The value and the carry of RCL (R146). -/
def rclValue (w a k : Nat) (ci : Bool) : Nat × Bool :=
  if k = 0 then (a, ci)
  else if k < w then
    ringParts w (trunc (w + 1) (ring w a ci * 2 ^ k) + ring w a ci / 2 ^ (w + 1 - k))
  else (0, false)

/-- The value and the carry of RCR (R147). -/
def rcrValue (w a k : Nat) (ci : Bool) : Nat × Bool :=
  if k = 0 then (a, ci)
  else if k < w then
    ringParts w (ring w a ci / 2 ^ k + trunc (w + 1) (ring w a ci * 2 ^ (w + 1 - k)))
  else (0, false)

/-- ROL (R144). -/
def execRol (wa k : Field16) (s : State) : Host.Outcome State Fault Refusal :=
  respond s <| withA s wa fun a w => .r0 (rolValue w a k.toNat) w

/-- ROR (R145). -/
def execRor (wa k : Field16) (s : State) : Host.Outcome State Fault Refusal :=
  respond s <| withA s wa fun a w => .r0 (rorValue w a k.toNat) w

/-- RCL (R146): the rotated value on R0, the new carry on CO. -/
def execRcl (wa k : Field16) (ci : Bool) (s : State) : Host.Outcome State Fault Refusal :=
  respond s <| withA s wa fun a w =>
    .r0bit (rclValue w a k.toNat ci).1 w (rclValue w a k.toNat ci).2

/-- RCR (R147): the rotated value on R0, the new carry on CO. -/
def execRcr (wa k : Field16) (ci : Bool) (s : State) : Host.Outcome State Fault Refusal :=
  respond s <| withA s wa fun a w =>
    .r0bit (rcrValue w a k.toNat ci).1 w (rcrValue w a k.toNat ci).2

/-! ## The limb datapath (R140)

No output exposes it; that it gives the values above is stated and proved. -/

/-- Limb `j` of the left shift by `k` of a value held in limbs `x`: the limb `k div L` below, shifted
by `k mod L`, joined with the spill of the next lower one, and masked to the width. -/
def shlLimb (c : Config) (x : Bus) (w k j : Nat) : Nat :=
  let moved := if k / c.L ≤ j then limbAt x (j - k / c.L) else 0
  let spill := if k / c.L + 1 ≤ j then limbAt x (j - k / c.L - 1) else 0
  (trunc c.L (moved * 2 ^ (k % c.L)) + spill / 2 ^ (c.L - k % c.L)) &&& wmask c w j

/-- The left shift on limbs. -/
def shlLimbs (c : Config) (x : Bus) (w k : Nat) : Bus :=
  (List.range (wc c w)).map (shlLimb c x w k)

/-- Limb `j` of the logical right shift by `k`: the limb `k div L` above, shifted down by `k mod L`,
joined with the spill of the next higher one. -/
def shrLimb (c : Config) (x : Bus) (w k j : Nat) : Nat :=
  (limbAt x (j + k / c.L) / 2 ^ (k % c.L)
    + trunc c.L (limbAt x (j + k / c.L + 1) * 2 ^ (c.L - k % c.L))) &&& wmask c w j

/-- The logical right shift on limbs. -/
def shrLimbs (c : Config) (x : Bus) (w k : Nat) : Bus :=
  (List.range (wc c w)).map (shrLimb c x w k)

end Sys2Proof.Machine
end

