-- ==== Sys2Proof/Machine/WidthCast.lean ====
section
/-! DEFINITION. WidthCast (46_widthcast.md): CAST. -/

namespace Sys2Proof.Machine

/-- The value of CAST from width `w` to width `n` (R220): growing extends by the tag, shrinking
truncates. -/
def castValue (t : Tag) (w n a : Nat) : Nat := if n ≥ w then ext t n w a else trunc n a

/-- CAST (R220): A at the target width WB. -/
def execCast (t : Tag) (wa wb : Field16) (s : State) : Host.Outcome State Fault Refusal :=
  respond s <| usingWidths s wa wb fun w n => .r0 (castValue t w n (val s.cfg s.a w)) n

end Sys2Proof.Machine
end

