-- ==== Sys2Proof/Machine/Dispatch.lean ====
section
/-! DEFINITION. The meaning of every command: what it does when it completes, one arm a constructor. -/

namespace Sys2Proof.Machine

def exec (i : Instr) (s : State) : Host.Outcome State Fault Refusal :=
  match i with
  | .word wa i0 => Sys2Proof.Machine.execWord wa i0 s
  | .setword wa i0 => Sys2Proof.Machine.execSetword wa i0 s
  | .bit wa i0 => Sys2Proof.Machine.execBit wa i0 s
  | .setbit wa i0 v => Sys2Proof.Machine.execSetbit wa i0 v s
  | .concat wa wb => Sys2Proof.Machine.execConcat wa wb s
  | .split wa p => Sys2Proof.Machine.execSplit wa p s
  | .width wa => Sys2Proof.Machine.execWidth wa s
  | .wordcount wa => Sys2Proof.Machine.execWordcount wa s
  | .wordmask wa i0 => Sys2Proof.Machine.execWordmask wa i0 s
  | .fromnat t wa => Sys2Proof.Machine.execFromnat t wa s
  | .fromlimbs wa n => Sys2Proof.Machine.execFromlimbs wa n s
  | .frombits wa n => Sys2Proof.Machine.execFrombits wa n s
  | .tobits wa => Sys2Proof.Machine.execTobits wa s
  | .shl wa k => Sys2Proof.Machine.execShl wa k s
  | .shr wa k => Sys2Proof.Machine.execShr wa k s
  | .sar wa k => Sys2Proof.Machine.execSar wa k s
  | .rol wa k => Sys2Proof.Machine.execRol wa k s
  | .ror wa k => Sys2Proof.Machine.execRor wa k s
  | .rcl wa k ci => Sys2Proof.Machine.execRcl wa k ci s
  | .rcr wa k ci => Sys2Proof.Machine.execRcr wa k ci s
  | .add wa wb => Sys2Proof.Machine.execAdd wa wb s
  | .expadd t wa wb ci => Sys2Proof.Machine.execExpadd t wa wb ci s
  | .sub wa wb => Sys2Proof.Machine.execSub wa wb s
  | .expsub t wa wb => Sys2Proof.Machine.execExpsub t wa wb s
  | .smul wa wb => Sys2Proof.Machine.execSmul wa wb s
  | .bmul wa wb => Sys2Proof.Machine.execBmul wa wb s
  | .kmul wa wb => Sys2Proof.Machine.execKmul wa wb s
  | .mul t wa wb => Sys2Proof.Machine.execMul t wa wb s
  | .expmul t wa wb => Sys2Proof.Machine.execExpmul t wa wb s
  | .rdiv t wa wb => Sys2Proof.Machine.execRdiv t wa wb s
  | .div t wa wb => Sys2Proof.Machine.execDiv t wa wb s
  | .rem t wa wb => Sys2Proof.Machine.execRem t wa wb s
  | .cast t wa wb => Sys2Proof.Machine.execCast t wa wb s
  | .and wa wb => Sys2Proof.Machine.execAnd wa wb s
  | .or wa wb => Sys2Proof.Machine.execOr wa wb s
  | .not wa => Sys2Proof.Machine.execNot wa s
  | .eq wa wb => Sys2Proof.Machine.execEq wa wb s
  | .ne wa wb => Sys2Proof.Machine.execNe wa wb s
  | .lt t wa wb => Sys2Proof.Machine.execLt t wa wb s
  | .le t wa wb => Sys2Proof.Machine.execLe t wa wb s
  | .gt t wa wb => Sys2Proof.Machine.execGt t wa wb s
  | .ge t wa wb => Sys2Proof.Machine.execGe t wa wb s

end Sys2Proof.Machine
end

