-- ==== Sys2Proof/Machine/Clock.lean ====
section
/-! DEFINITION. The rising edge of `clk` (70_reset_and_hazards.md): reset, acceptance, waiting and
completion of the captured command. Step.lean only calls it. -/

namespace Sys2Proof.Machine

/-- The captured command completes: a word the decoder refuses gives BadCommand (R78, R79), any
other its command's meaning. -/
def runCaptured (s : State) : Host.Outcome State Fault Refusal :=
  match decode s.cmd with
  | .command i => exec i s
  | .rejected _ => respond s (.raise .badCommand)

/-- One rising edge of `clk` with the input ports `p`: reset first (R400), then acceptance where
`cmd_valid` and `cmd_ready` are 1 (R404), then, while BUSY, one cycle of the command (R405, R407);
otherwise nothing changes (R406). -/
def clockEdge (p : Pins) (s : State) : Host.Outcome State Fault Refusal :=
  if p.rst then .next s.resetUnit
  else if p.cmdValid && cmdReady s p.rst then .next (s.accept p)
  else match s.phase with
    | .busy => if s.wait = 0 then runCaptured s else .next s.waited
    | .idle => .next s
    | .done => .next s

/-- One host event: an edge, or a read between two edges. -/
def hostEvent (e : HostEvent) (s : State) : Host.Outcome State Fault Refusal :=
  match e with
  | .clk p => clockEdge p s
  | .read o => hostRead s o

/-- Placing a command word for the very next step (log entry 10): the word captured in CMD as if the
host had presented it and it had been accepted (R404, R26), one edge before it completes, and an idle
edge as the host's next event. -/
def placeCommand (s : State) (w : CmdWord) : State :=
  { s with
    phase := .busy
    cmd := w
    r0v := false
    r1v := false
    cov := false
    wait := 0
    events := .clk Pins.idle :: s.events }

end Sys2Proof.Machine
end

