-- ==== Sys2Proof/Machine/Step.lean ====
section
/-! DEFINITION. One step: the host's next event; where the list is used up, an idle edge of `clk`
(log entry 2). -/

namespace Sys2Proof.Machine

/-- One step of the machine. -/
def step (s : State) : Host.Outcome State Fault Refusal :=
  match s.events with
  | [] => hostEvent (.clk Pins.idle) s
  | e :: rest => hostEvent e (s.took rest)

/-- `s` with the instruction whose low `nbits` bits are `w`, other bits 0, placed so that the next
step completes exactly it. -/
def State.withFetchWord (s : State) (nbits w : Nat) : State :=
  placeCommand s (BitVec.ofNat 64 (w % 2 ^ min nbits 64))

end Sys2Proof.Machine
end

