-- ==== Sys2Proof/Machine/Assembler.lean ====
section
/-! DEFINITION. Assembler lines and pseudo-commands (30_encoding.md R81, R82). They are notation: each
line is one command word, each pseudo-command one real command. The text form of a line is read into
an `AsmLine` outside the model. -/

namespace Sys2Proof.Machine

/-- A line `MNEMONIC[.u|.s] wa=<n>[, wb=<n>][, imm=<n>][, ci=<0|1>]`; an omitted field is 0 and no
suffix is S = 0 (R81). -/
structure AsmLine where
  name : String
  suffix : Option Tag := none
  wa : Nat := 0
  wb : Nat := 0
  imm : Nat := 0
  ci : Bool := false
deriving DecidableEq, Repr

/-- The word a line encodes to (R81); none for an unknown mnemonic or a number that does not fit its
field. -/
def assemble (l : AsmLine) : Option CmdWord :=
  match opcodeTable.find? (·.name == l.name) with
  | none => none
  | some r =>
    if l.wa < 2 ^ 16 ∧ l.wb < 2 ^ 16 ∧ l.imm < 2 ^ 16 then
      some (Fields.word {
        opc := r.opc
        s := (l.suffix.map Tag.bit).getD false
        ci := l.ci
        rsv := 0
        wa := BitVec.ofNat 16 l.wa
        wb := BitVec.ofNat 16 l.wb
        imm := BitVec.ofNat 16 l.imm })
    else none

/-- The pseudo-commands (R82). -/
inductive Pseudo where
  | zext (wa wb : Field16)
  | sext (wa wb : Field16)
  | trunc (wa wb : Field16)
  | clrbit (wa i : Field16)
  | setbit1 (wa i : Field16)
  | canon (wa : Field16)
  | udivrem (wa wb : Field16)
  | sdivrem (wa wb : Field16)
deriving DecidableEq, Repr

/-- The real command of a pseudo-command; none where the widths are not as R82 requires. -/
def Pseudo.expand (c : Config) : Pseudo → Option Instr
  | .zext wa wb => if wb.toNat ≥ wa.toNat then some (.cast .unsigned wa wb) else none
  | .sext wa wb => if wb.toNat ≥ wa.toNat then some (.cast .signed wa wb) else none
  | .trunc wa wb => if wb.toNat < wa.toNat then some (.cast .unsigned wa wb) else none
  | .clrbit wa i => some (.setbit wa i false)
  | .setbit1 wa i => some (.setbit wa i true)
  | .canon wa => some (.fromlimbs wa (BitVec.ofNat 16 (wc c wa.toNat)))
  | .udivrem wa wb => some (.rdiv .unsigned wa wb)
  | .sdivrem wa wb => some (.rdiv .signed wa wb)

end Sys2Proof.Machine
end

