-- ==== Sys2Proof/Safety.lean ====
section
/-! DEFINITION. The terms claims are stated in: the operands of a command, the next state of a command
that produced given outputs or an error, written out field by field, and when a state is well
formed. No meaning uses these. -/

namespace Sys2Proof.Machine

/-! ## Operands (00_scope.md R13) -/

/-- `a = val(A, WA)`. -/
abbrev State.opA (s : State) (wa : Field16) : Nat := val s.cfg s.a wa.toNat

/-- `b = val(B, WB)`. -/
abbrev State.opB (s : State) (wb : Field16) : Nat := val s.cfg s.b wb.toNat

/-! ## Next states

Every field not written here keeps its value: these are results and frames at once. That an output
which holds no value keeps its bits after an OK response is the model's reading (log entry 5); after
an error it is R303's. -/

/-- DONE with status OK, R0 holding the `w`-bit value `v`, R1 and CO holding none. -/
def State.gaveR0 (s : State) (v w : Nat) : State :=
  { s with
    phase := .done, st := .ok, r0v := true, r1v := false, cov := false
    r0 := busOf s.cfg v w, rw0 := BitVec.ofNat 32 w }

/-- DONE with status OK, R0 holding `v` of `w` bits and R1 `v'` of `w'` bits, CO holding none. -/
def State.gaveR0R1 (s : State) (v w v' w' : Nat) : State :=
  { s with
    phase := .done, st := .ok, r0v := true, r1v := true, cov := false
    r0 := busOf s.cfg v w, rw0 := BitVec.ofNat 32 w
    r1 := busOf s.cfg v' w', rw1 := BitVec.ofNat 32 w' }

/-- DONE with status OK, CO holding `c`, R0 and R1 holding none. -/
def State.gaveBit (s : State) (c : Bool) : State :=
  { s with phase := .done, st := .ok, r0v := false, r1v := false, cov := true, co := c }

/-- DONE with status OK, R0 holding the `w`-bit value `v` and CO holding `c`, R1 holding none. -/
def State.gaveR0Bit (s : State) (v w : Nat) (c : Bool) : State :=
  { s with
    phase := .done, st := .ok, r0v := true, r1v := false, cov := true, co := c
    r0 := busOf s.cfg v w, rw0 := BitVec.ofNat 32 w }

/-- DONE with the error's status, no output holding a value (60_exceptions.md R303). -/
def State.gaveError (s : State) (e : ErrorCode) : State :=
  { s with phase := .done, st := .error e, r0v := false, r1v := false, cov := false }

/-! ## Well-formed states -/

/-- A held result is in its width: the masking invariant (10_state.md R22), with a width of at least
one bit. -/
abbrev resultWf (c : Config) (x : Bus) (w : BitVec 32) : Prop :=
  1 ≤ w.toNat ∧ busNat c.L x < 2 ^ w.toNat

/-- What holds of the state at reset and after every step. -/
structure State.Wf (s : State) : Prop where
  /-- WMAX is legal (R7) -/
  legal : s.cfg.Legal
  /-- the captured buses have NBUS limbs of L bits (R23) -/
  busA : busWf s.cfg s.a = true
  busB : busWf s.cfg s.b = true
  /-- the result buses have NBUS limbs of L bits (R32) -/
  busR0 : busWf s.cfg s.r0 = true
  busR1 : busWf s.cfg s.r1 = true
  /-- an output is valid only in the response of a command that ended with OK (R26, R27, R303) -/
  valid : s.r0v = true ∨ s.r1v = true ∨ s.cov = true → s.phase = .done ∧ s.st = .ok
  /-- a valid result satisfies the masking invariant (R22) -/
  resultR0 : s.r0v = true → resultWf s.cfg s.r0 s.rw0
  resultR1 : s.r1v = true → resultWf s.cfg s.r1 s.rw1
  /-- in IDLE the STATUS and RW registers are 0 (R24, R39) -/
  idle : s.phase = .idle → statusWord s = 0 ∧ rwWord s = 0

/-! ## Encodings (30_encoding.md) -/

/-- Every word with this OPC, RSV = 0 and any other fields is the command `mk` makes of its fields
(R77). -/
abbrev EncodedAs (opc : BitVec 8) (mk : Fields → Instr) : Prop :=
  ∀ f : Fields, f.opc = opc → f.rsv = 0#6 → decode f.word = .command (mk f)

/-- The same for a command whose bit S is fixed (R71): with the other value of S the word completes
with BadCommand. -/
abbrev EncodedWithTag (opc : BitVec 8) (tag : Bool) (mk : Fields → Instr) : Prop :=
  ∀ f : Fields, f.opc = opc → f.rsv = 0#6 →
    (f.s = tag → decode f.word = .command (mk f)) ∧
    (f.s ≠ tag → ∀ s : State, s.cmd = f.word → runCaptured s = .next (s.gaveError .badCommand))

/-- The OPC values R78 lists as reserved. -/
def ReservedOpcode (opc : BitVec 8) : Bool :=
  [(0x00, 0x00), (0x0E, 0x0F), (0x17, 0x1F), (0x24, 0x2F), (0x35, 0x3F), (0x43, 0x4F),
    (0x51, 0x5F), (0x63, 0x67), (0x6E, 0xFF)].any
    fun (r : Nat × Nat) => decide (r.1 ≤ opc.toNat) && decide (opc.toNat ≤ r.2)

/-- The state is at the edge that completes its command: BUSY with no further cycle to wait. -/
abbrev State.Completing (s : State) : Prop := s.phase = .busy ∧ s.wait = 0

end Sys2Proof.Machine
end

