-- ==== Sys2Proof/Certificates/Slice0/Obligations.lean ====
section
/-! DEFINITION. The statements for the provers. Each docstring names the rule of spec/ it formalises;
OBLIGATIONS.json lists them in the same order. -/

open Sys2Proof Sys2Proof.Machine

/-! ## Encoding (30_encoding.md) -/

/-- R70: the word is `OPC | S<<8 | CI<<9 | RSV<<10 | WA<<16 | WB<<32 | IMM<<48`, and every word is the
word of exactly one choice of fields. -/
def Obligations.CommandWordLayout : Prop :=
  (∀ f : Fields, f.word =
    f.opc.setWidth 64 ||| (BitVec.ofBool f.s).setWidth 64 <<< 8
      ||| (BitVec.ofBool f.ci).setWidth 64 <<< 9 ||| f.rsv.setWidth 64 <<< 10
      ||| f.wa.setWidth 64 <<< 16 ||| f.wb.setWidth 64 <<< 32 ||| f.imm.setWidth 64 <<< 48) ∧
  ∀ w : CmdWord, ∃! f : Fields, f.word = w

/-- R70 to R77, D42: every command, with every value of every field, is decoded back from its word,
whatever stands in the bits the command ignores. -/
def Obligations.DecodeInvertsEncode : Prop :=
  ∀ (i : Instr) (junk : CmdWord), decode (encode i ||| (junk &&& i.ignoredBits)) = .command i

/-- R70 to R77: a word that decodes is the encoding of what it decodes to, up to the bits the command
ignores, and those bits are none of OPC, RSV and WA. -/
def Obligations.DecodedWordIsItsEncoding : Prop :=
  ∀ (w : CmdWord) (i : Instr), decode w = .command i →
    w &&& ~~~ i.ignoredBits = encode i ∧ i.ignoredBits &&& 0xFFFFFCFF#64 = 0

/-- R78, R73 and, for S, R71: a word decodes to no command exactly when its OPC is one of the listed
reserved values, its RSV is not 0, or S is not the value SAR, BMUL, SMUL or KMUL fixes; such a
command completes with BadCommand and no output. That nothing else changes is R303's; that an empty
list of events is an idle edge is the model's choice (log entry 2). -/
def Obligations.ReservedEncodingsAreBadCommand : Prop :=
  (∀ f : Fields, (∃ e, decode f.word = .rejected e) ↔
    ReservedOpcode f.opc = true ∨ f.rsv ≠ 0#6 ∨ (f.opc = 0x12#8 ∨ f.opc = 0x31#8) ∧ f.s = false ∨
      (f.opc = 0x30#8 ∨ f.opc = 0x32#8) ∧ f.s = true) ∧
  ∀ (s : State) (e : DecodeError), decode s.cmd = .rejected e → s.Completing →
    (s.events = [] → step s = .next (s.gaveError .badCommand)) ∧
    ∀ (p : Pins) (rest : List HostEvent), s.events = .clk p :: rest → p.rst = false →
      step s = .next (({ s with events := rest } : State).gaveError .badCommand)

/-- R71: the thirteen tagged commands read S as the tag, SAR and BMUL need S = 1, SMUL and KMUL need
S = 0, any other value of S there is refused, and no other command depends on S. -/
def Obligations.TagBitUse : Prop :=
  (∀ f : Fields, f.rsv = 0#6 →
    (f.opc = 0x12#8 ∨ f.opc = 0x31#8 → ((∃ i, decode f.word = .command i) ↔ f.s = true)) ∧
    (f.opc = 0x30#8 ∨ f.opc = 0x32#8 → ((∃ i, decode f.word = .command i) ↔ f.s = false))) ∧
  EncodedAs 0x0A#8 (fun f => .fromnat (Tag.ofBit f.s) f.wa) ∧
  EncodedAs 0x21#8 (fun f => .expadd (Tag.ofBit f.s) f.wa f.wb f.ci) ∧
  EncodedAs 0x23#8 (fun f => .expsub (Tag.ofBit f.s) f.wa f.wb) ∧
  EncodedAs 0x33#8 (fun f => .mul (Tag.ofBit f.s) f.wa f.wb) ∧
  EncodedAs 0x34#8 (fun f => .expmul (Tag.ofBit f.s) f.wa f.wb) ∧
  EncodedAs 0x40#8 (fun f => .rdiv (Tag.ofBit f.s) f.wa f.wb) ∧
  EncodedAs 0x41#8 (fun f => .div (Tag.ofBit f.s) f.wa f.wb) ∧
  EncodedAs 0x42#8 (fun f => .rem (Tag.ofBit f.s) f.wa f.wb) ∧
  EncodedAs 0x50#8 (fun f => .cast (Tag.ofBit f.s) f.wa f.wb) ∧
  EncodedAs 0x6A#8 (fun f => .lt (Tag.ofBit f.s) f.wa f.wb) ∧
  EncodedAs 0x6B#8 (fun f => .le (Tag.ofBit f.s) f.wa f.wb) ∧
  EncodedAs 0x6C#8 (fun f => .gt (Tag.ofBit f.s) f.wa f.wb) ∧
  EncodedAs 0x6D#8 (fun f => .ge (Tag.ofBit f.s) f.wa f.wb) ∧
  ∀ f : Fields, f.opc ∉ [0x0A#8, 0x12#8, 0x21#8, 0x23#8, 0x30#8, 0x31#8, 0x32#8, 0x33#8, 0x34#8,
      0x40#8, 0x41#8, 0x42#8, 0x50#8, 0x6A#8, 0x6B#8, 0x6C#8, 0x6D#8] →
    decode f.word = decode ({ f with s := !f.s } : Fields).word

/-- 95_test_vectors.md: words written out there decode to the commands they stand for. -/
def Obligations.SpecWordsDecode : Prop :=
  decode 0x0001000000480001 = .command (.word 72 1) ∧
  decode 0x0004000000080204 = .command (.setbit 8 4 true) ∧
  decode 0x012C000000080112 = .command (.sar 8 300) ∧
  decode 0x0000000800080221 = .command (.expadd .unsigned 8 8 true) ∧
  decode 0x0000000300040131 = .command (.bmul 4 3) ∧
  decode 0x0000004100800040 = .command (.rdiv .unsigned 128 65) ∧
  decode 0x0000040000010150 = .command (.cast .signed 1 1024) ∧
  decode 0x000000080008016A = .command (.lt .signed 8 8)

/-! ## Protocol (70_reset_and_hazards.md) -/

/-- R404 with R26: a command offered at an edge with rst = 0 while PHASE is not BUSY is accepted:
CMD, A and B are captured, PHASE = BUSY, the valid bits are 0, ST, CO, RW, R0 and R1 keep their
bits, and no output but STATUS holds a value. How many edges the command then waits is open
(log entry 3), and of a list that is no bus of NBUS limbs of L bits the model captures one
(log entry 6): both the model's choice. -/
def Obligations.AcceptanceCapturesCommand : Prop :=
  ∀ (s : State) (p : Pins) (rest : List HostEvent), s.events = .clk p :: rest →
    p.rst = false → p.cmdValid = true → s.phase ≠ .busy →
    cmdReady s p.rst = true ∧
    (busWf s.cfg p.a = true → portBus s.cfg p.a = p.a) ∧
    (busWf s.cfg p.b = true → portBus s.cfg p.b = p.b) ∧
    (∃ lat : Nat, step s = .next { s with
      events := rest, phase := .busy, cmd := p.cmd, a := portBus s.cfg p.a, b := portBus s.cfg p.b
      r0v := false, r1v := false, cov := false, wait := lat, accepted := s.accepted + 1 }) ∧
    ∀ t, step s = .next t → statusWord t = 1 ||| (statusWord s &&& 0x704#64) ∧
      ∀ o : Output, o ≠ .status → readOutput t o = none

/-- R407: a command offered while PHASE = BUSY is not accepted: whatever the host presents, the edge
does what it does when nothing is offered. -/
def Obligations.OfferWhileBusyIsIgnored : Prop :=
  ∀ (s : State) (p : Pins) (rest : List HostEvent), s.events = .clk p :: rest →
    p.rst = false → s.phase = .busy →
    cmdReady s p.rst = false ∧ step s = step { s with events := .clk Pins.idle :: rest }

/-- R400, R401: an edge with rst = 1 enters the reset state from any phase, BUSY included: PHASE =
IDLE, STATUS = 0, RW = 0, no valid output and none readable; no command is accepted there. The build
parameters stay by R403; that the host's events and what it has read stay is the model's choice
(log entry 15). -/
def Obligations.ResetEdge : Prop :=
  ∀ (s : State) (p : Pins) (rest : List HostEvent), s.events = .clk p :: rest → p.rst = true →
    cmdReady s p.rst = false ∧
    ∃ t, step s = .next t ∧ t.phase = .idle ∧ statusWord t = 0 ∧ rwWord t = 0 ∧
      t.r0v = false ∧ t.r1v = false ∧ t.cov = false ∧
      (∀ o : Output, o ≠ .status → readOutput t o = none) ∧
      t.cfg = s.cfg ∧ t.events = rest ∧ t.seen = s.seen

/-- R39: the reset state of every configuration: PHASE = IDLE, STATUS = 0, RW = 0, R0 and R1 holding
no value; the model starts in it with the reference configuration. -/
def Obligations.ResetStateHoldsNoValue : Prop :=
  State.reset = State.resetOf Config.reference ∧
  ∀ c : Config, (State.resetOf c).phase = .idle ∧ statusWord (State.resetOf c) = 0 ∧
    rwWord (State.resetOf c) = 0 ∧ (State.resetOf c).r0v = false ∧ (State.resetOf c).r1v = false ∧
    (State.resetOf c).cov = false ∧ (State.resetOf c).st = .ok ∧
    ∀ o : Output, o ≠ .status → readOutput (State.resetOf c) o = none

/-- R405, R79: at the completing edge the step is the meaning of the command the captured word
decodes to, on the state with the host's event taken; and the word `withFetchWord` places is that
command. The idle edge where no event is listed (log entry 2) and `withFetchWord` (log entry 10) are
the model's choice. -/
def Obligations.StepRunsDecodedCommand : Prop :=
  (∀ (s : State) (i : Instr), decode s.cmd = .command i → s.Completing →
    (s.events = [] → step s = exec i s) ∧
    ∀ (p : Pins) (rest : List HostEvent), s.events = .clk p :: rest → p.rst = false →
      step s = exec i { s with events := rest }) ∧
  ∀ (s : State) (nbits w : Nat) (i : Instr), decodeTableWord nbits w = some i →
    step (s.withFetchWord nbits w) = exec i { s with
      phase := .busy, cmd := BitVec.ofNat 64 (w % 2 ^ min nbits 64)
      r0v := false, r1v := false, cov := false, wait := 0 }

/-- R405: an accepted command completes after finitely many edges without reset: after `wait` of
them it is still BUSY, and the next one gives PHASE = DONE with the response of the captured
command. The count of edges by `wait` (log entry 3) and that no command is accepted at the
completing edge (log entry 17) are the model's reading. -/
def Obligations.EveryAcceptedCommandCompletes : Prop :=
  ∀ (s : State) (ps : List Pins) (rest : List HostEvent), s.phase = .busy →
    ps.length = s.wait + 1 → (∀ p ∈ ps, p.rst = false) → s.events = ps.map .clk ++ rest →
    (∀ k ≤ s.wait, ∃ u, Host.Core.run core k s = .next u ∧ u.phase = .busy ∧
      u.wait = s.wait - k ∧ u.cmd = s.cmd ∧ u.a = s.a ∧ u.b = s.b) ∧
    ∃ t, Host.Core.run core (s.wait + 1) s = .next t ∧ t.phase = .done ∧ t.events = rest ∧
      runCaptured { s with wait := 0, events := rest } = .next t

/-- R406, R58: from completion until the next acceptance or reset, edges that present values without
an acceptance and reads of outputs that hold a value change neither STATUS, RW, R0 nor R1, and every
such read gives what it gave before. -/
def Obligations.ResponseIsStable : Prop :=
  ∀ (es : List HostEvent) (s : State) (rest : List HostEvent), s.phase = .done →
    s.events = es ++ rest →
    (∀ e ∈ es, (∃ p : Pins, e = .clk p ∧ p.rst = false ∧ p.cmdValid = false) ∨
      ∃ o v, e = .read o ∧ readOutput s o = some v) →
    ∃ t, Host.Core.run core es.length s = .next t ∧ t.phase = .done ∧ t.events = rest ∧
      statusWord t = statusWord s ∧ rwWord t = rwWord s ∧ t.r0 = s.r0 ∧ t.r1 = s.r1 ∧
      ∀ o, readOutput t o = readOutput s o

/-- R29, R25, I1, I17: a read of R0, RW0, R1, RW1 or CO gives the register exactly when its valid
bit is 1, a read of ST exactly when DONE = 1, a read of STATUS always; any other read is a fault of
the reader. A read changes nothing in the unit (R58). That a read of ST before DONE is a fault while
STATUS is always read (log entry 7), and the log `seen` of reads (log entry 11), are the model's
reading. -/
def Obligations.ReadsGiveValidOutputsOnly : Prop :=
  ∀ (s : State) (rest : List HostEvent) (o : Output), s.events = .read o :: rest →
    ∀ (ok : Bool) (v : ReadValue),
      (match o with
        | .status => ok = true ∧ v = .status (statusWord s)
        | .st => ok = decide (s.phase = .done) ∧ v = .code s.st
        | .co => ok = s.cov ∧ v = .bit s.co
        | .r0 => ok = s.r0v ∧ v = .bus s.r0
        | .rw0 => ok = s.r0v ∧ v = .width s.rw0
        | .r1 => ok = s.r1v ∧ v = .bus s.r1
        | .rw1 => ok = s.r1v ∧ v = .width s.rw1) →
      (ok = true → step s = .next { s with events := rest, seen := (o, v) :: s.seen }) ∧
      (ok = false → step s = .fault (.noValue o))

/-- R25, R30, R31: the bits of STATUS and RW. -/
def Obligations.StatusAndWidthRegisterLayout : Prop :=
  ∀ s : State,
    (statusWord s).getLsbD 0 = decide (s.phase = .busy) ∧
    (statusWord s).getLsbD 1 = decide (s.phase = .done) ∧
    (statusWord s).getLsbD 2 = s.co ∧ (statusWord s).getLsbD 3 = s.r0v ∧
    (statusWord s).getLsbD 4 = s.r1v ∧ (statusWord s).getLsbD 5 = s.cov ∧
    (statusWord s).getLsbD 6 = false ∧ (statusWord s).getLsbD 7 = false ∧
    (statusWord s).extractLsb' 8 3 = BitVec.ofNat 3 (match s.st with
      | .ok => 0
      | .error .indexError => 1
      | .error .divisionByZero => 2
      | .error .widthMismatch => 3
      | .error .parseError => 4
      | .error .badCommand => 5) ∧
    (∀ k, 11 ≤ k → (statusWord s).getLsbD k = false) ∧
    (rwWord s).extractLsb' 0 32 = s.rw0 ∧ (rwWord s).extractLsb' 32 32 = s.rw1

/-! ## Whole-machine rules (10_state.md, 60_exceptions.md) -/

/-- R307, R35: the same command word with the same captured A and B always gives the same status and
the same outputs, whatever else the state holds. -/
def Obligations.ResponseDependsOnlyOnCapture : Prop :=
  ∀ s t : State, s.cfg = t.cfg → s.cmd = t.cmd → s.a = t.a → s.b = t.b →
    ∃ s' t', runCaptured s = .next s' ∧ runCaptured t = .next t' ∧
      s'.phase = t'.phase ∧ s'.st = t'.st ∧
      s'.r0v = t'.r0v ∧ s'.r1v = t'.r1v ∧ s'.cov = t'.cov ∧
      (s'.r0v = true → s'.r0 = t'.r0 ∧ s'.rw0 = t'.rw0) ∧
      (s'.r1v = true → s'.r1 = t'.r1 ∧ s'.rw1 = t'.rw1) ∧
      (s'.cov = true → s'.co = t'.co)

/-- R27, R405: every command completes with PHASE = DONE and changes nothing but its response; that an
output it does not produce keeps its bits is the model's reading (log entry 5). -/
def Obligations.CompletionFrame : Prop :=
  ∀ (i : Instr) (s : State), ∃ t, exec i s = .next t ∧ t.phase = .done ∧
    t.cfg = s.cfg ∧ t.cmd = s.cmd ∧ t.a = s.a ∧ t.b = s.b ∧ t.wait = s.wait ∧
    t.accepted = s.accepted ∧ t.events = s.events ∧ t.seen = s.seen ∧
    (t.r0v = false → t.r0 = s.r0 ∧ t.rw0 = s.rw0) ∧
    (t.r1v = false → t.r1 = s.r1 ∧ t.rw1 = s.rw1) ∧ (t.cov = false → t.co = s.co)

/-- R303: a command that raises completes with DONE and the code, no output is produced, nothing else
changes, and the unit is at once ready for the next command. -/
def Obligations.ErrorProducesNoOutput : Prop :=
  ∀ (s t : State) (e : ErrorCode), runCaptured s = .next t → t.st = .error e →
    t = { s with phase := .done, st := .error e, r0v := false, r1v := false, cov := false } ∧
    cmdReady t false = true

/-- R79, R301, R306: exactly the words the decoder refuses and the ill-formed commands complete with
BadCommand; among the others exactly those whose widths must agree and do not complete with
WidthMismatch. -/
def Obligations.ValidationOrder : Prop :=
  ∀ s : State, ∃ t, runCaptured s = .next t ∧
    match decode s.cmd with
    | .rejected _ => t.st = .error .badCommand
    | .command i =>
      (t.st = .error .badCommand ↔ i.wellFormed s.cfg = false) ∧
      (t.st = .error .widthMismatch ↔ i.wellFormed s.cfg = true ∧ i.widthsAgree = false)

/-- R300: ADD, SUB, MUL, AND, OR and the six comparisons with WB != WA complete with WidthMismatch;
no other command ever does. -/
def Obligations.WidthMismatchCommands : Prop :=
  (∀ (s : State) (t : Tag) (wa wb : Field16), widthOk s.cfg wa = true → widthOk s.cfg wb = true →
    wb ≠ wa →
    ∀ i ∈ [Instr.add wa wb, .sub wa wb, .mul t wa wb, .and wa wb, .or wa wb, .eq wa wb, .ne wa wb,
      .lt t wa wb, .le t wa wb, .gt t wa wb, .ge t wa wb],
      exec i s = .next (s.gaveError .widthMismatch)) ∧
  ∀ (i : Instr) (s t' : State), exec i s = .next t' → t'.st = .error .widthMismatch →
    ∃ (t : Tag) (wa wb : Field16), wb ≠ wa ∧
      i ∈ [Instr.add wa wb, .sub wa wb, .mul t wa wb, .and wa wb, .or wa wb, .eq wa wb, .ne wa wb,
        .lt t wa wb, .le t wa wb, .gt t wa wb, .ge t wa wb]

/-- R302: IndexError is raised exactly by WORD, SETWORD and WORDMASK with IMM >= wc(WA) and by BIT and
SETBIT with IMM >= WA (WA legal). -/
def Obligations.IndexErrorExactly : Prop :=
  ∀ (i : Instr) (s : State), ∃ t, exec i s = .next t ∧
    (t.st = .error .indexError ↔
      ∃ (wa k : Field16) (v : Bool), widthOk s.cfg wa = true ∧
        (i ∈ [Instr.word wa k, .setword wa k, .wordmask wa k] ∧ wc s.cfg wa.toNat ≤ k.toNat ∨
          i ∈ [Instr.bit wa k, .setbit wa k v] ∧ wa.toNat ≤ k.toNat))

/-- R304: DivisionByZero is raised exactly by RDIV, DIV and REM whose denominator `val(B, WB)` is 0,
for both tags (widths legal). -/
def Obligations.DivisionByZeroExactly : Prop :=
  ∀ (i : Instr) (s : State), ∃ t, exec i s = .next t ∧
    (t.st = .error .divisionByZero ↔
      ∃ (tag : Tag) (wa wb : Field16), widthOk s.cfg wa = true ∧ widthOk s.cfg wb = true ∧
        i ∈ [Instr.rdiv tag wa wb, .div tag wa wb, .rem tag wa wb] ∧ val s.cfg s.b wb.toNat = 0)

/-- R305: ParseError is raised exactly by FROMBITS when one of the n characters is neither 0x30 nor
0x31 (WA legal, n within CHARCAP). -/
def Obligations.ParseErrorExactly : Prop :=
  ∀ (i : Instr) (s : State), ∃ t, exec i s = .next t ∧
    (t.st = .error .parseError ↔
      ∃ wa n : Field16, i = .frombits wa n ∧ widthOk s.cfg wa = true ∧ n.toNat ≤ s.cfg.charcap ∧
        ∃ j < n.toNat, byteAt s.cfg s.a j ≠ 0x30 ∧ byteAt s.cfg s.a j ≠ 0x31)

/-- R28, R77 and, for EXPADD, R162: of the commands that end with OK, CO is produced exactly by BIT,
RCL, RCR and the six comparisons, R1 exactly by SPLIT and RDIV, R0 by all but BIT and the
comparisons. The carry of an addition shows only as the top bit of EXPADD. That outputs not produced
keep their bits is the model's reading (log entry 5), not the rules'. -/
def Obligations.ProducedOutputs : Prop :=
  (∀ (i : Instr) (s t : State), exec i s = .next t → t.st = .ok →
    (t.cov = true ↔ ∃ (tag : Tag) (wa x : Field16) (c : Bool),
      i ∈ [Instr.bit wa x, .rcl wa x c, .rcr wa x c, .eq wa x, .ne wa x, .lt tag wa x, .le tag wa x,
        .gt tag wa x, .ge tag wa x]) ∧
    (t.r1v = true ↔ ∃ (tag : Tag) (wa x : Field16), i ∈ [Instr.split wa x, .rdiv tag wa x]) ∧
    (t.r0v = false ↔ ∃ (tag : Tag) (wa x : Field16),
      i ∈ [Instr.bit wa x, .eq wa x, .ne wa x, .lt tag wa x, .le tag wa x, .gt tag wa x,
        .ge tag wa x])) ∧
  ∀ (s : State) (wa : Field16) (ci : Bool), widthOk s.cfg wa = true →
    ∃ r, exec (.expadd .unsigned wa wa ci) s = .next (s.gaveR0 r (wa.toNat + 1)) ∧
      r.testBit wa.toNat = decide (2 ^ wa.toNat ≤ s.opA wa + s.opB wa + ci.toNat)

/-! ## LimbStorage (41_limb_storage.md) -/

/-- R102, R103: WORD gives limb i; SETWORD replaces limb i by the masked `B.limb[0]` and keeps every
other limb; an index at or above wc(WA) raises IndexError. That outputs not produced keep their bits
is the model's reading (log entry 5), not the rules'. -/
def Obligations.LimbReadAndWrite : Prop :=
  EncodedAs 0x01#8 (fun f => .word f.wa f.imm) ∧ EncodedAs 0x02#8 (fun f => .setword f.wa f.imm) ∧
  ∀ (s : State) (wa i : Field16), widthOk s.cfg wa = true →
    (i.toNat < wc s.cfg wa.toNat →
      exec (.word wa i) s
        = .next (s.gaveR0 (bitsAt (s.opA wa) (i.toNat * s.cfg.L) s.cfg.L) s.cfg.L) ∧
      ∃ r, exec (.setword wa i) s = .next (s.gaveR0 r wa.toNat) ∧ r < 2 ^ wa.toNat ∧
        ∀ j < wc s.cfg wa.toNat, bitsAt r (j * s.cfg.L) s.cfg.L =
          if j = i.toNat then limbAt s.b 0 &&& wmask s.cfg wa.toNat j
          else bitsAt (s.opA wa) (j * s.cfg.L) s.cfg.L) ∧
    (wc s.cfg wa.toNat ≤ i.toNat →
      exec (.word wa i) s = .next (s.gaveError .indexError) ∧
      exec (.setword wa i) s = .next (s.gaveError .indexError))

/-- R104, R105: BIT puts bit i on CO; SETBIT replaces bit i by CI and keeps every other bit; an
index at or above WA raises IndexError. That outputs not produced keep their bits is the model's
reading (log entry 5), not the rules'. -/
def Obligations.BitReadAndWrite : Prop :=
  EncodedAs 0x03#8 (fun f => .bit f.wa f.imm) ∧ EncodedAs 0x04#8 (fun f => .setbit f.wa f.imm f.ci) ∧
  ∀ (s : State) (wa i : Field16) (v : Bool), widthOk s.cfg wa = true →
    (i.toNat < wa.toNat →
      exec (.bit wa i) s = .next (s.gaveBit ((s.opA wa).testBit i.toNat)) ∧
      ∃ r, exec (.setbit wa i v) s = .next (s.gaveR0 r wa.toNat) ∧ r < 2 ^ wa.toNat ∧
        ∀ j, r.testBit j = if j = i.toNat then v else (s.opA wa).testBit j) ∧
    (wa.toNat ≤ i.toNat →
      exec (.bit wa i) s = .next (s.gaveError .indexError) ∧
      exec (.setbit wa i v) s = .next (s.gaveError .indexError))

/-- R106, R107: CONCAT puts A in the low and B in the high bits, whatever the widths; SPLIT gives
the high part on R0 and the low part on R1, BadCommand for p = 0 or p >= WA. That outputs not
produced keep their bits is the model's reading (log entry 5), not the rules'. -/
def Obligations.ConcatAndSplit : Prop :=
  EncodedAs 0x05#8 (fun f => .concat f.wa f.wb) ∧ EncodedAs 0x06#8 (fun f => .split f.wa f.imm) ∧
  (∀ (s : State) (wa wb : Field16), widthOk s.cfg wa = true → widthOk s.cfg wb = true →
    exec (.concat wa wb) s
      = .next (s.gaveR0 (s.opA wa + s.opB wb * 2 ^ wa.toNat) (wa.toNat + wb.toNat))) ∧
  ∀ (s : State) (wa p : Field16), widthOk s.cfg wa = true →
    (1 ≤ p.toNat → p.toNat < wa.toNat →
      exec (.split wa p) s = .next (s.gaveR0R1 (s.opA wa / 2 ^ p.toNat) (wa.toNat - p.toNat)
        (s.opA wa % 2 ^ p.toNat) p.toNat)) ∧
    (p.toNat = 0 ∨ wa.toNat ≤ p.toNat → exec (.split wa p) s = .next (s.gaveError .badCommand))

/-- R108, R109, R110, R14: WIDTH and WORDCOUNT in 16 bits; the word count is the least number of
limbs that holds WA bits; bit k of the mask of limb i is 1 exactly for the bits i*L + k below WA;
WORDMASK with an index at or above wc(WA) raises IndexError. That outputs not produced keep their
bits is the model's reading (log entry 5), not the rules'. So is how a 16-bit result stands on the
8-bit bus of L = 8, WMAX = 1 (log entry 8). -/
def Obligations.WidthCountAndMask : Prop :=
  EncodedAs 0x07#8 (fun f => .width f.wa) ∧ EncodedAs 0x08#8 (fun f => .wordcount f.wa) ∧
  EncodedAs 0x09#8 (fun f => .wordmask f.wa f.imm) ∧
  ∀ (s : State) (wa : Field16), widthOk s.cfg wa = true →
    exec (.width wa) s = .next (s.gaveR0 wa.toNat 16) ∧
    (∃ n, exec (.wordcount wa) s = .next (s.gaveR0 n 16) ∧ n = wc s.cfg wa.toNat ∧
      wa.toNat ≤ n * s.cfg.L ∧ (n - 1) * s.cfg.L < wa.toNat) ∧
    ∀ i : Field16,
      (i.toNat < wc s.cfg wa.toNat →
        ∃ m, exec (.wordmask wa i) s = .next (s.gaveR0 m s.cfg.L) ∧
          ∀ k, m.testBit k = decide (k < s.cfg.L ∧ i.toNat * s.cfg.L + k < wa.toNat)) ∧
      (wc s.cfg wa.toNat ≤ i.toNat → exec (.wordmask wa i) s = .next (s.gaveError .indexError))

/-- R111, R112: FROMNAT truncates or extends the native integer `A.limb[0]` by the tag; FROMLIMBS
puts the n listed limbs together, least significant first, and raises BadCommand for n > NBUS. That
outputs not produced keep their bits is the model's reading (log entry 5), not the rules'. -/
def Obligations.NativeAndLimbConstructors : Prop :=
  EncodedAs 0x0A#8 (fun f => .fromnat (Tag.ofBit f.s) f.wa) ∧
  EncodedAs 0x0B#8 (fun f => .fromlimbs f.wa f.imm) ∧
  ∀ (s : State) (wa : Field16), widthOk s.cfg wa = true →
    exec (.fromnat .unsigned wa) s = .next (s.gaveR0 (limbAt s.a 0 % 2 ^ wa.toNat) wa.toNat) ∧
    exec (.fromnat .signed wa) s
      = .next (s.gaveR0 (truncInt wa.toNat (sval s.cfg.L (limbAt s.a 0))) wa.toNat) ∧
    ∀ n : Field16,
      (n.toNat ≤ s.cfg.nbus → exec (.fromlimbs wa n) s = .next (s.gaveR0
        ((∑ j ∈ Finset.range n.toNat, limbAt s.a j * 2 ^ (j * s.cfg.L)) % 2 ^ wa.toNat) wa.toNat)) ∧
      (s.cfg.nbus < n.toNat → exec (.fromlimbs wa n) s = .next (s.gaveError .badCommand))

/-- R113, R114: FROMBITS gives the number its n characters write, first character most significant,
truncated to WA; any other character raises ParseError, n > CHARCAP BadCommand. TOBITS gives exactly
WA characters, character j the code of bit WA-1-j. That outputs not produced keep their bits is the
model's reading (log entry 5), not the rules'. -/
def Obligations.BitStringConstructorAndEncoding : Prop :=
  EncodedAs 0x0C#8 (fun f => .frombits f.wa f.imm) ∧ EncodedAs 0x0D#8 (fun f => .tobits f.wa) ∧
  ∀ (s : State) (wa : Field16), widthOk s.cfg wa = true →
    (∀ n : Field16,
      (n.toNat ≤ s.cfg.charcap →
        ((∀ j < n.toNat, byteAt s.cfg s.a j = 0x30 ∨ byteAt s.cfg s.a j = 0x31) →
          exec (.frombits wa n) s = .next (s.gaveR0
            ((∑ j ∈ Finset.range n.toNat,
              (byteAt s.cfg s.a j - 0x30) * 2 ^ (n.toNat - 1 - j)) % 2 ^ wa.toNat) wa.toNat)) ∧
        ((∃ j < n.toNat, byteAt s.cfg s.a j ≠ 0x30 ∧ byteAt s.cfg s.a j ≠ 0x31) →
          exec (.frombits wa n) s = .next (s.gaveError .parseError))) ∧
      (s.cfg.charcap < n.toNat → exec (.frombits wa n) s = .next (s.gaveError .badCommand))) ∧
    ∃ v, exec (.tobits wa) s = .next (s.gaveR0 v (8 * wa.toNat)) ∧ v < 2 ^ (8 * wa.toNat) ∧
      ∀ j < wa.toNat, bitsAt v (8 * j) 8 = 0x30 + bitAt (s.opA wa) (wa.toNat - 1 - j)

/-! ## ShiftEngine (42_shift.md) -/

/-- R141, R142, R143: SHL and SHR give 0 and SAR all sign bits for k >= W; below W they multiply and
divide by 2^k, SAR rounding toward minus infinity. That outputs not produced keep their bits is the
model's reading (log entry 5), not the rules'. -/
def Obligations.ShiftResults : Prop :=
  EncodedAs 0x10#8 (fun f => .shl f.wa f.imm) ∧ EncodedAs 0x11#8 (fun f => .shr f.wa f.imm) ∧
  EncodedWithTag 0x12#8 true (fun f => .sar f.wa f.imm) ∧
  ∀ (s : State) (wa k : Field16), widthOk s.cfg wa = true →
    exec (.shl wa k) s = .next (s.gaveR0 (if wa.toNat ≤ k.toNat then 0
      else s.opA wa * 2 ^ k.toNat % 2 ^ wa.toNat) wa.toNat) ∧
    exec (.shr wa k) s = .next (s.gaveR0 (if wa.toNat ≤ k.toNat then 0
      else s.opA wa / 2 ^ k.toNat) wa.toNat) ∧
    exec (.sar wa k) s = .next (s.gaveR0 (if wa.toNat ≤ k.toNat
      then (if (s.opA wa).testBit (wa.toNat - 1) then 2 ^ wa.toNat - 1 else 0)
      else truncInt wa.toNat ⌊(sval wa.toNat (s.opA wa) : ℚ) / 2 ^ k.toNat⌋) wa.toNat)

/-- R144 to R147: the rotations bit by bit for k < W (RCL and RCR over the ring of W + 1 bits with
the carry above bit W-1), and 0 with CO = 0 for k >= W. That outputs not produced keep their bits is
the model's reading (log entry 5), not the rules'. -/
def Obligations.RotationResults : Prop :=
  EncodedAs 0x13#8 (fun f => .rol f.wa f.imm) ∧ EncodedAs 0x14#8 (fun f => .ror f.wa f.imm) ∧
  EncodedAs 0x15#8 (fun f => .rcl f.wa f.imm f.ci) ∧ EncodedAs 0x16#8 (fun f => .rcr f.wa f.imm f.ci) ∧
  ∀ (s : State) (wa k : Field16) (ci : Bool), widthOk s.cfg wa = true →
    (k.toNat < wa.toNat →
      (∃ r, exec (.rol wa k) s = .next (s.gaveR0 r wa.toNat) ∧ r < 2 ^ wa.toNat ∧
        ∀ j < wa.toNat, r.testBit ((j + k.toNat) % wa.toNat) = (s.opA wa).testBit j) ∧
      (∃ r, exec (.ror wa k) s = .next (s.gaveR0 r wa.toNat) ∧ r < 2 ^ wa.toNat ∧
        ∀ j < wa.toNat, r.testBit j = (s.opA wa).testBit ((j + k.toNat) % wa.toNat)) ∧
      (∃ r c, exec (.rcl wa k ci) s = .next (s.gaveR0Bit r wa.toNat c) ∧ r < 2 ^ wa.toNat ∧
        ∀ j ≤ wa.toNat,
          (r + c.toNat * 2 ^ wa.toNat).testBit ((j + k.toNat) % (wa.toNat + 1))
            = (s.opA wa + ci.toNat * 2 ^ wa.toNat).testBit j) ∧
      ∃ r c, exec (.rcr wa k ci) s = .next (s.gaveR0Bit r wa.toNat c) ∧ r < 2 ^ wa.toNat ∧
        ∀ j ≤ wa.toNat, (r + c.toNat * 2 ^ wa.toNat).testBit j
          = (s.opA wa + ci.toNat * 2 ^ wa.toNat).testBit ((j + k.toNat) % (wa.toNat + 1))) ∧
    (wa.toNat ≤ k.toNat →
      exec (.rol wa k) s = .next (s.gaveR0 0 wa.toNat) ∧
      exec (.ror wa k) s = .next (s.gaveR0 0 wa.toNat) ∧
      exec (.rcl wa k ci) s = .next (s.gaveR0Bit 0 wa.toNat false) ∧
      exec (.rcr wa k ci) s = .next (s.gaveR0Bit 0 wa.toNat false))

/-- R140: the limb datapath (skip of k div L limbs, shift by k mod L with the neighbour's spill,
re-masked) gives exactly the values of SHL and SHR for every L. -/
def Obligations.LimbShiftDatapath : Prop :=
  ∀ (c : Config) (w a k : Nat), 1 ≤ w → w ≤ c.wmax → a < 2 ^ w → k < w →
    busNat c.L (shlLimbs c (busOf c a w) w k) = a * 2 ^ k % 2 ^ w ∧
    busNat c.L (shrLimbs c (busOf c a w) w k) = a / 2 ^ k

/-- R148: laws of the shifts and rotations; a rotation through carry by k is k rotations by 1 with the
carry fed forward. -/
def Obligations.ShiftLaws : Prop :=
  ∀ (w a : Nat) (c : Bool), 1 ≤ w → a < 2 ^ w →
    (∀ k, 0 < k → k < w →
      rolValue w a k = shlValue w a k ||| shrValue w a (w - k) ∧
      rorValue w a k = rolValue w a (w - k) ∧
      rclValue w a k c = (fun p : Nat × Bool => rclValue w p.1 1 p.2)^[k] (a, c) ∧
      rcrValue w a k c = (fun p : Nat × Bool => rcrValue w p.1 1 p.2)^[k] (a, c)) ∧
    (∀ k₁ k₂, k₁ + k₂ < w → rolValue w (rolValue w a k₁) k₂ = rolValue w a (k₁ + k₂)) ∧
    (2 ≤ w → rclValue w (rcrValue w a 1 c).1 1 (rcrValue w a 1 c).2 = (a, c)) ∧
    (a.testBit (w - 1) = false → ∀ k, sarValue w a k = shrValue w a k)

/-! ## AddSubEngine (43_addsub.md) -/

/-- R161, R163: ADD and SUB modulo 2^WA, no carry or borrow reported; WidthMismatch when WB != WA.
That outputs not produced keep their bits is the model's reading (log entry 5), not the rules'. -/
def Obligations.AddAndSubWrap : Prop :=
  EncodedAs 0x20#8 (fun f => .add f.wa f.wb) ∧ EncodedAs 0x22#8 (fun f => .sub f.wa f.wb) ∧
  ∀ (s : State) (wa wb : Field16), widthOk s.cfg wa = true → widthOk s.cfg wb = true →
    (wb = wa →
      exec (.add wa wb) s = .next (s.gaveR0 ((s.opA wa + s.opB wa) % 2 ^ wa.toNat) wa.toNat) ∧
      exec (.sub wa wb) s
        = .next (s.gaveR0 (truncInt wa.toNat ((s.opA wa : Int) - (s.opB wa : Int))) wa.toNat)) ∧
    (wb ≠ wa →
      exec (.add wa wb) s = .next (s.gaveError .widthMismatch) ∧
      exec (.sub wa wb) s = .next (s.gaveError .widthMismatch))

/-- R162, R164: EXPADD is exact under the tag at max(WA, WB) + 1 bits; EXPSUB is the difference
under the tag modulo 2^max(WA, WB). That outputs not produced keep their bits is the model's reading
(log entry 5), not the rules'. -/
def Obligations.ExpandingAddAndSub : Prop :=
  EncodedAs 0x21#8 (fun f => .expadd (Tag.ofBit f.s) f.wa f.wb f.ci) ∧
  EncodedAs 0x23#8 (fun f => .expsub (Tag.ofBit f.s) f.wa f.wb) ∧
  ∀ (s : State) (t : Tag) (wa wb : Field16) (ci : Bool), widthOk s.cfg wa = true →
    widthOk s.cfg wb = true →
    (∃ r, exec (.expadd t wa wb ci) s = .next (s.gaveR0 r (max wa.toNat wb.toNat + 1)) ∧
      r < 2 ^ (max wa.toNat wb.toNat + 1) ∧
      valueOf t (max wa.toNat wb.toNat + 1) r
        = valueOf t wa.toNat (s.opA wa) + valueOf t wb.toNat (s.opB wb) + (ci.toNat : Int)) ∧
    exec (.expsub t wa wb) s = .next (s.gaveR0
      (truncInt (max wa.toNat wb.toNat)
        (valueOf t wa.toNat (s.opA wa) - valueOf t wb.toNat (s.opB wb))) (max wa.toNat wb.toNat))

/-- R160: the ripple-carry datapath: each limb sum and carry as the rule writes them, the whole the
exact sum modulo 2^(n*L) also where a limb of B is all ones and the carry-in is 1 (C5), and ADD is
its result in WA bits. That outputs not produced keep their bits is the model's reading
(log entry 5), not the rules'. -/
def Obligations.RippleCarryIsModularSum : Prop :=
  (∀ (L x y : Nat) (xs ys : Bus) (c : Bool),
    rippleAdd L (x :: xs) (y :: ys) c
      = (x + y + c.toNat) % 2 ^ L :: rippleAdd L xs ys (decide (2 ^ L ≤ x + y + c.toNat))) ∧
  (∀ (L : Nat) (xs ys : Bus) (c : Bool), xs.length = ys.length →
    (∀ l ∈ xs, l < 2 ^ L) → (∀ l ∈ ys, l < 2 ^ L) →
    (rippleAdd L xs ys c).length = xs.length ∧ (∀ l ∈ rippleAdd L xs ys c, l < 2 ^ L) ∧
    busNat L (rippleAdd L xs ys c)
      = (busNat L xs + busNat L ys + c.toNat) % 2 ^ (xs.length * L)) ∧
  ∀ (s : State) (wa : Field16), widthOk s.cfg wa = true →
    exec (.add wa wa) s = .next (s.gaveR0
      (busNat s.cfg.L (rippleAdd s.cfg.L (busOf s.cfg (s.opA wa) wa.toNat)
        (busOf s.cfg (s.opB wa) wa.toNat) false) % 2 ^ wa.toNat) wa.toNat)

/-- R165: ADD is commutative and associative, ADD(SUB(a, b), b) = a, SUB(a, b) = ADD(a, SUB(0, b)),
EXPADD.u with CI = 0 shrunk to the operand width (by CAST.u where its width is legal) is ADD, and
EXPADD.u is exact. That outputs not produced keep their bits is the model's reading (log entry 5),
not the rules'. -/
def Obligations.AddSubLaws : Prop :=
  ∀ (s : State) (wa : Field16), widthOk s.cfg wa = true →
    ∃ sum diff neg exp : State,
      exec (.add wa wa) s = .next sum ∧ exec (.sub wa wa) s = .next diff ∧
      exec (.sub wa wa) { s with a := List.replicate s.cfg.nbus 0 } = .next neg ∧
      exec (.expadd .unsigned wa wa false) s = .next exp ∧
      exec (.add wa wa) { s with a := s.b, b := s.a } = .next { sum with a := s.b, b := s.a } ∧
      (∀ x : Bus, ∃ right l r, exec (.add wa wa) { s with a := s.b, b := x } = .next right ∧
        exec (.add wa wa) { s with a := sum.r0, b := x } = .next l ∧
        exec (.add wa wa) { s with b := right.r0 } = .next r ∧ l.r0 = r.r0 ∧ l.rw0 = r.rw0) ∧
      (∃ t, exec (.add wa wa) { s with a := diff.r0 } = .next t ∧
        val t.cfg t.r0 wa.toNat = s.opA wa) ∧
      (∃ t, exec (.add wa wa) { s with b := neg.r0 } = .next t ∧ t.r0 = diff.r0) ∧
      val exp.cfg exp.r0 wa.toNat = val sum.cfg sum.r0 wa.toNat ∧
      (∀ w : Field16, w.toNat = wa.toNat + 1 → widthOk s.cfg w = true →
        ∃ t, exec (.cast .unsigned w wa) { s with a := exp.r0 } = .next t ∧ t.r0 = sum.r0) ∧
      ∀ (wb : Field16) (ci : Bool), widthOk s.cfg wb = true →
        ∃ e, exec (.expadd .unsigned wa wb ci) s = .next e ∧
          val e.cfg e.r0 (max wa.toNat wb.toNat + 1) = s.opA wa + s.opB wb + ci.toNat

/-! ## MulEngine (44_mul.md) -/

/-- R180: schoolbook multiplication is exact. That outputs not produced keep their bits is the
model's reading (log entry 5), not the rules'. -/
def Obligations.SchoolbookProductIsExact : Prop :=
  EncodedWithTag 0x30#8 false (fun f => .smul f.wa f.wb) ∧
  ∀ (s : State) (wa wb : Field16), widthOk s.cfg wa = true → widthOk s.cfg wb = true →
    exec (.smul wa wb) s = .next (s.gaveR0 (s.opA wa * s.opB wb) (wa.toNat + wb.toNat)) ∧
    s.opA wa * s.opB wb < 2 ^ (wa.toNat + wb.toNat)

/-- R181: Booth's algorithm gives the exact signed product, which fits WA + WB bits, the most
negative operands included. That outputs not produced keep their bits is the model's reading
(log entry 5), not the rules'. -/
def Obligations.BoothProductIsExact : Prop :=
  EncodedWithTag 0x31#8 true (fun f => .bmul f.wa f.wb) ∧
  ∀ (s : State) (wa wb : Field16), widthOk s.cfg wa = true → widthOk s.cfg wb = true →
    ∃ r, exec (.bmul wa wb) s = .next (s.gaveR0 r (wa.toNat + wb.toNat)) ∧
      r = truncInt (wa.toNat + wb.toNat) (sval wa.toNat (s.opA wa) * sval wb.toNat (s.opB wb)) ∧
      sval (wa.toNat + wb.toNat) r = sval wa.toNat (s.opA wa) * sval wb.toNat (s.opB wb)

/-- R182: Karatsuba multiplication is exact, at twice the wider operand's width. That outputs not
produced keep their bits is the model's reading (log entry 5), not the rules'. -/
def Obligations.KaratsubaProductIsExact : Prop :=
  EncodedWithTag 0x32#8 false (fun f => .kmul f.wa f.wb) ∧
  ∀ (s : State) (wa wb : Field16), widthOk s.cfg wa = true → widthOk s.cfg wb = true →
    exec (.kmul wa wb) s
      = .next (s.gaveR0 (s.opA wa * s.opB wb) (2 * max wa.toNat wb.toNat)) ∧
    s.opA wa * s.opB wb < 2 ^ (2 * max wa.toNat wb.toNat)

/-- R183, R184: MUL is the product modulo 2^WA whatever the tag, WidthMismatch when WB != WA; EXPMUL
is the exact product under the tag. That outputs not produced keep their bits is the model's reading
(log entry 5), not the rules'. That the tag does not matter for MUL is an inference R183 marks as
derived. -/
def Obligations.MulAndExpmul : Prop :=
  EncodedAs 0x33#8 (fun f => .mul (Tag.ofBit f.s) f.wa f.wb) ∧
  EncodedAs 0x34#8 (fun f => .expmul (Tag.ofBit f.s) f.wa f.wb) ∧
  ∀ (s : State) (t : Tag) (wa wb : Field16), widthOk s.cfg wa = true → widthOk s.cfg wb = true →
    (wb = wa → exec (.mul t wa wb) s
      = .next (s.gaveR0 (s.opA wa * s.opB wa % 2 ^ wa.toNat) wa.toNat)) ∧
    (wb ≠ wa → exec (.mul t wa wb) s = .next (s.gaveError .widthMismatch)) ∧
    ∃ r, exec (.expmul t wa wb) s = .next (s.gaveR0 r (wa.toNat + wb.toNat)) ∧
      r < 2 ^ (wa.toNat + wb.toNat) ∧
      valueOf t (wa.toNat + wb.toNat) r
        = valueOf t wa.toNat (s.opA wa) * valueOf t wb.toNat (s.opB wb)

/-- R185: at one width SMUL and KMUL give the same R0, the low W bits of SMUL, KMUL, BMUL and MUL
agree, MUL is commutative at one width, and SMUL and BMUL are commutative with the widths swapped.
That outputs not produced keep their bits is the model's reading (log entry 5), not the rules'. -/
def Obligations.MultipliersAgree : Prop :=
  ∀ (s : State) (t : Tag) (wa : Field16), widthOk s.cfg wa = true →
    ∃ sm bm km mu : State,
      exec (.smul wa wa) s = .next sm ∧ exec (.bmul wa wa) s = .next bm ∧
      exec (.kmul wa wa) s = .next km ∧ exec (.mul t wa wa) s = .next mu ∧
      sm.r0 = km.r0 ∧ sm.rw0 = km.rw0 ∧
      val bm.cfg bm.r0 wa.toNat = val sm.cfg sm.r0 wa.toNat ∧
      val mu.cfg mu.r0 wa.toNat = val sm.cfg sm.r0 wa.toNat ∧
      exec (.mul t wa wa) { s with a := s.b, b := s.a } = .next { mu with a := s.b, b := s.a } ∧
      ∀ wb : Field16, widthOk s.cfg wb = true → ∃ smul bmul : State,
        exec (.smul wa wb) s = .next smul ∧ exec (.bmul wa wb) s = .next bmul ∧
        exec (.smul wb wa) { s with a := s.b, b := s.a } = .next { smul with a := s.b, b := s.a } ∧
        exec (.bmul wb wa) { s with a := s.b, b := s.a } = .next { bmul with a := s.b, b := s.a }

/-! ## DivEngine (45_div.md) -/

/-- R200: quotient and remainder of truncating division under the tag, in W bits (so the one
quotient that does not fit wraps); DivisionByZero when `val(B, WB) = 0`. That outputs not produced
keep their bits is the model's reading (log entry 5), not the rules'. -/
def Obligations.RestoringDivision : Prop :=
  EncodedAs 0x40#8 (fun f => .rdiv (Tag.ofBit f.s) f.wa f.wb) ∧
  ∀ (s : State) (wa wb : Field16), widthOk s.cfg wa = true → widthOk s.cfg wb = true →
    (s.opB wb ≠ 0 →
      exec (.rdiv .unsigned wa wb) s = .next (s.gaveR0R1 (s.opA wa / s.opB wb) wa.toNat
        (s.opA wa % s.opB wb) wa.toNat) ∧
      exec (.rdiv .signed wa wb) s = .next (s.gaveR0R1
        (truncInt wa.toNat ((sval wa.toNat (s.opA wa)).tdiv (sval wb.toNat (s.opB wb)))) wa.toNat
        (truncInt wa.toNat ((sval wa.toNat (s.opA wa)).tmod (sval wb.toNat (s.opB wb)))) wa.toNat)) ∧
    (s.opB wb = 0 → ∀ t, exec (.rdiv t wa wb) s = .next (s.gaveError .divisionByZero))

/-- R202, R203: DIV is the quotient and REM the remainder RDIV gives, each on R0 alone, raising as
RDIV raises. That outputs not produced keep their bits is the model's reading (log entry 5), not the
rules'. -/
def Obligations.DivAndRemProjectRdiv : Prop :=
  EncodedAs 0x41#8 (fun f => .div (Tag.ofBit f.s) f.wa f.wb) ∧
  EncodedAs 0x42#8 (fun f => .rem (Tag.ofBit f.s) f.wa f.wb) ∧
  ∀ (s : State) (t : Tag) (wa wb : Field16), widthOk s.cfg wa = true → widthOk s.cfg wb = true →
    (s.opB wb ≠ 0 →
      ∃ q r, exec (.rdiv t wa wb) s = .next (s.gaveR0R1 q wa.toNat r wa.toNat) ∧
        exec (.div t wa wb) s = .next (s.gaveR0 q wa.toNat) ∧
        exec (.rem t wa wb) s = .next (s.gaveR0 r wa.toNat)) ∧
    (s.opB wb = 0 →
      exec (.div t wa wb) s = .next (s.gaveError .divisionByZero) ∧
      exec (.rem t wa wb) s = .next (s.gaveError .divisionByZero))

/-- R201: each fast path gives the same (q, R) as the restoring loop. -/
def Obligations.DivisionFastPaths : Prop :=
  ∀ n d w : Nat, 1 ≤ d → n < 2 ^ w →
    (n = d → udivrem n d w = (1, 0)) ∧ (n = 0 → udivrem n d w = (0, 0)) ∧
    (n < d → udivrem n d w = (0, n)) ∧ (d = 1 → udivrem n d w = (n, 0)) ∧
    ∀ qr, fastPath n d = some qr → udivrem n d w = qr

/-- R204: the division invariant on what RDIV leaves on R0 and R1, for both tags; modulo 2^W it holds
for the wrapping quotient too. -/
def Obligations.DivisionInvariant : Prop :=
  ∀ (s : State) (wa wb : Field16), widthOk s.cfg wa = true → widthOk s.cfg wb = true →
    s.opB wb ≠ 0 →
    (∃ t, exec (.rdiv .unsigned wa wb) s = .next t ∧
      s.opA wa = val t.cfg t.r0 wa.toNat * s.opB wb + val t.cfg t.r1 wa.toNat ∧
      val t.cfg t.r1 wa.toNat < s.opB wb) ∧
    ∃ t, exec (.rdiv .signed wa wb) s = .next t ∧
      (¬ (sval wa.toNat (s.opA wa) = -2 ^ (wa.toNat - 1) ∧ sval wb.toNat (s.opB wb) = -1) →
        sval wa.toNat (s.opA wa)
          = sval wa.toNat (val t.cfg t.r0 wa.toNat) * sval wb.toNat (s.opB wb)
            + sval wa.toNat (val t.cfg t.r1 wa.toNat)) ∧
      |sval wa.toNat (val t.cfg t.r1 wa.toNat)| < |sval wb.toNat (s.opB wb)| ∧
      (sval wa.toNat (val t.cfg t.r1 wa.toNat) = 0 ∨
        (sval wa.toNat (val t.cfg t.r1 wa.toNat) < 0 ↔ sval wa.toNat (s.opA wa) < 0)) ∧
      (wb = wa → (val t.cfg t.r0 wa.toNat * s.opB wa + val t.cfg t.r1 wa.toNat) % 2 ^ wa.toNat
        = s.opA wa)

/-! ## WidthCast (46_widthcast.md) -/

/-- R220: growing keeps the value under the tag, shrinking keeps the low WB bits. That outputs not
produced keep their bits is the model's reading (log entry 5), not the rules'. -/
def Obligations.CastGrowsAndShrinks : Prop :=
  EncodedAs 0x50#8 (fun f => .cast (Tag.ofBit f.s) f.wa f.wb) ∧
  ∀ (s : State) (t : Tag) (wa wb : Field16), widthOk s.cfg wa = true → widthOk s.cfg wb = true →
    ∃ r, exec (.cast t wa wb) s = .next (s.gaveR0 r wb.toNat) ∧ r < 2 ^ wb.toNat ∧
      (wa.toNat ≤ wb.toNat → valueOf t wb.toNat r = valueOf t wa.toNat (s.opA wa)) ∧
      (wb.toNat < wa.toNat → r = s.opA wa % 2 ^ wb.toNat)

/-- R221: a CAST up and back returns the value for both tags; a CAST up in two steps is the CAST up in
one. -/
def Obligations.CastRoundTrip : Prop :=
  ∀ (s : State) (t : Tag) (wa wb : Field16), widthOk s.cfg wa = true → widthOk s.cfg wb = true →
    wa.toNat ≤ wb.toNat →
    ∃ up, exec (.cast t wa wb) s = .next up ∧
      (∃ back, exec (.cast t wb wa) { up with a := up.r0 } = .next back ∧
        val back.cfg back.r0 wa.toNat = s.opA wa ∧ back.rw0 = wa.setWidth 32) ∧
      ∀ wc : Field16, widthOk s.cfg wc = true → wb.toNat ≤ wc.toNat →
        ∃ two one, exec (.cast t wb wc) { up with a := up.r0 } = .next two ∧
          exec (.cast t wa wc) s = .next one ∧ two.r0 = one.r0 ∧ two.rw0 = one.rw0

/-! ## Bitwise operations and comparisons (47_bitwise_compare.md) -/

/-- R230, R231, R232: AND, OR and NOT bit by bit within the width; WidthMismatch when WB != WA. That
outputs not produced keep their bits is the model's reading (log entry 5), not the rules'. -/
def Obligations.BitwiseResults : Prop :=
  EncodedAs 0x60#8 (fun f => .and f.wa f.wb) ∧ EncodedAs 0x61#8 (fun f => .or f.wa f.wb) ∧
  EncodedAs 0x62#8 (fun f => .not f.wa) ∧
  ∀ (s : State) (wa wb : Field16), widthOk s.cfg wa = true → widthOk s.cfg wb = true →
    (wb = wa →
      (∃ r, exec (.and wa wb) s = .next (s.gaveR0 r wa.toNat) ∧ r < 2 ^ wa.toNat ∧
        ∀ i, r.testBit i = ((s.opA wa).testBit i && (s.opB wa).testBit i)) ∧
      ∃ r, exec (.or wa wb) s = .next (s.gaveR0 r wa.toNat) ∧ r < 2 ^ wa.toNat ∧
        ∀ i, r.testBit i = ((s.opA wa).testBit i || (s.opB wa).testBit i)) ∧
    (wb ≠ wa →
      exec (.and wa wb) s = .next (s.gaveError .widthMismatch) ∧
      exec (.or wa wb) s = .next (s.gaveError .widthMismatch)) ∧
    ∃ r, exec (.not wa) s = .next (s.gaveR0 r wa.toNat) ∧ r = 2 ^ wa.toNat - 1 - s.opA wa ∧
      ∀ i, r.testBit i = (decide (i < wa.toNat) && !(s.opA wa).testBit i)

/-- R233 to R238: the six comparisons put their truth value on CO, the ordering ones under the tag;
WidthMismatch when WB != WA. That outputs not produced keep their bits is the model's reading
(log entry 5), not the rules'. -/
def Obligations.ComparisonResults : Prop :=
  EncodedAs 0x68#8 (fun f => .eq f.wa f.wb) ∧ EncodedAs 0x69#8 (fun f => .ne f.wa f.wb) ∧
  EncodedAs 0x6A#8 (fun f => .lt (Tag.ofBit f.s) f.wa f.wb) ∧
  EncodedAs 0x6B#8 (fun f => .le (Tag.ofBit f.s) f.wa f.wb) ∧
  EncodedAs 0x6C#8 (fun f => .gt (Tag.ofBit f.s) f.wa f.wb) ∧
  EncodedAs 0x6D#8 (fun f => .ge (Tag.ofBit f.s) f.wa f.wb) ∧
  ∀ (s : State) (wa wb : Field16), widthOk s.cfg wa = true → widthOk s.cfg wb = true →
    (wb = wa → ∀ a b : Nat, a = s.opA wa → b = s.opB wa →
      exec (.eq wa wb) s = .next (s.gaveBit (decide (a = b))) ∧
      exec (.ne wa wb) s = .next (s.gaveBit (decide (a ≠ b))) ∧
      exec (.lt .unsigned wa wb) s = .next (s.gaveBit (decide (a < b))) ∧
      exec (.le .unsigned wa wb) s = .next (s.gaveBit (decide (a ≤ b))) ∧
      exec (.gt .unsigned wa wb) s = .next (s.gaveBit (decide (a > b))) ∧
      exec (.ge .unsigned wa wb) s = .next (s.gaveBit (decide (a ≥ b))) ∧
      exec (.lt .signed wa wb) s = .next (s.gaveBit (decide (sval wa.toNat a < sval wa.toNat b))) ∧
      exec (.le .signed wa wb) s = .next (s.gaveBit (decide (sval wa.toNat a ≤ sval wa.toNat b))) ∧
      exec (.gt .signed wa wb) s = .next (s.gaveBit (decide (sval wa.toNat a > sval wa.toNat b))) ∧
      exec (.ge .signed wa wb) s = .next (s.gaveBit (decide (sval wa.toNat a ≥ sval wa.toNat b)))) ∧
    (wb ≠ wa → ∀ t, ∀ i ∈ [Instr.eq wa wb, .ne wa wb, .lt t wa wb, .le t wa wb, .gt t wa wb, .ge t wa wb],
      exec i s = .next (s.gaveError .widthMismatch))

/-- R239: for each tag exactly one of LT, EQ, GT holds, LE, GE and NE are the negations of GT, LT
and EQ, De Morgan's law, and SUB gives 0 exactly when EQ holds. AndOrLaws states the rest of R239.
That outputs not produced keep their bits is the model's reading (log entry 5), not the rules'. -/
def Obligations.ComparisonLaws : Prop :=
  ∀ (s : State) (t : Tag) (wa : Field16), widthOk s.cfg wa = true →
    ∃ lt eq gt : Bool,
      exec (.lt t wa wa) s = .next (s.gaveBit lt) ∧ exec (.eq wa wa) s = .next (s.gaveBit eq) ∧
      exec (.gt t wa wa) s = .next (s.gaveBit gt) ∧ exec (.le t wa wa) s = .next (s.gaveBit !gt) ∧
      exec (.ge t wa wa) s = .next (s.gaveBit !lt) ∧ exec (.ne wa wa) s = .next (s.gaveBit !eq) ∧
      lt.toNat + eq.toNat + gt.toNat = 1 ∧
      (∃ d < 2 ^ wa.toNat, exec (.sub wa wa) s = .next (s.gaveR0 d wa.toNat) ∧ (d = 0 ↔ eq = true)) ∧
      ∃ nd na nb : State, exec (.and wa wa) s = .next nd ∧ exec (.not wa) s = .next na ∧
        exec (.not wa) { s with a := s.b } = .next nb ∧
        ∃ l r, exec (.not wa) { s with a := nd.r0 } = .next l ∧
          exec (.or wa wa) { s with a := na.r0, b := nb.r0 } = .next r ∧ l.r0 = r.r0

/-! ## Laws across commands -/

/-- R13, R15, R22, R54: a value on a result bus: its limbs, zeros above them, the masking invariant,
and the value read back; byte j of a bus is bits 8j+7..8j of its number. -/
def Obligations.ProducedValueOnBus : Prop :=
  (∀ (c : Config) (v w : Nat), v < 2 ^ w →
    busWf c (busOf c v w) = true ∧
    (∀ j < c.nbus, j < wc c w → limbAt (busOf c v w) j = bitsAt v (j * c.L) c.L) ∧
    (∀ j, wc c w ≤ j → limbAt (busOf c v w) j = 0) ∧
    busNat c.L (busOf c v w) < 2 ^ w ∧
    (w ≤ c.nbus * c.L → val c (busOf c v w) w = v)) ∧
  ∀ (c : Config) (x : Bus), busWf c x = true →
    (∀ w, val c x w = (∑ j ∈ Finset.range c.nbus, limbAt x j * 2 ^ (j * c.L)) % 2 ^ w) ∧
    ∀ j < c.charcap, byteAt c x j = bitsAt (busNat c.L x) (8 * j) 8

/-- R115: FROMBITS with n = WA applied to the R0 that TOBITS produces from a returns a. That outputs
not produced keep their bits is the model's reading (log entry 5), not the rules'. -/
def Obligations.BitStringRoundTrip : Prop :=
  ∀ (s : State) (wa : Field16), widthOk s.cfg wa = true →
    ∃ t, exec (.tobits wa) s = .next t ∧
      ∀ u : State, u.cfg = s.cfg → u.a = t.r0 →
        exec (.frombits wa wa) u = .next (u.gaveR0 (s.opA wa) wa.toNat)

/-- R116: CONCAT of SPLIT's low part (A) and high part (B) gives the value back; CONCAT is
associative. That outputs not produced keep their bits is the model's reading (log entry 5), not the
rules'. -/
def Obligations.SplitConcatRoundTrip : Prop :=
  (∀ (s : State) (wa p : Field16), widthOk s.cfg wa = true → 1 ≤ p.toNat → p.toNat < wa.toNat →
    ∃ t, exec (.split wa p) s = .next t ∧
      ∀ u : State, u.cfg = s.cfg → u.a = t.r1 → u.b = t.r0 →
        exec (.concat p (wa - p)) u = .next (u.gaveR0 (s.opA wa) wa.toNat)) ∧
  ∀ (s : State) (x y z : Bus) (wx wy wz wxy wyz : Field16), widthOk s.cfg wx = true →
    widthOk s.cfg wy = true → widthOk s.cfg wz = true →
    wxy.toNat = wx.toNat + wy.toNat → widthOk s.cfg wxy = true →
    wyz.toNat = wy.toNat + wz.toNat → widthOk s.cfg wyz = true →
    ∃ xy yz l r, exec (.concat wx wy) { s with a := x, b := y } = .next xy ∧
      exec (.concat wy wz) { s with a := y, b := z } = .next yz ∧
      exec (.concat wxy wz) { s with a := xy.r0, b := z } = .next l ∧
      exec (.concat wx wyz) { s with a := x, b := yz.r0 } = .next r ∧
      l.r0 = r.r0 ∧ l.rw0 = r.rw0 ∧ l.rw0.toNat = wx.toNat + wy.toNat + wz.toNat

/-- R82: the pseudo-commands are the real commands the table gives, and CANON re-masks the A bus to
a WA-bit value. That outputs not produced keep their bits is the model's reading (log entry 5), not
the rules'. -/
def Obligations.PseudoCommands : Prop :=
  ∀ (s : State) (wa wb : Field16),
    (wa.toNat ≤ wb.toNat →
      Pseudo.expand s.cfg (.zext wa wb) = some (.cast .unsigned wa wb) ∧
      Pseudo.expand s.cfg (.sext wa wb) = some (.cast .signed wa wb)) ∧
    (wb.toNat < wa.toNat → Pseudo.expand s.cfg (.trunc wa wb) = some (.cast .unsigned wa wb)) ∧
    Pseudo.expand s.cfg (.clrbit wa wb) = some (.setbit wa wb false) ∧
    Pseudo.expand s.cfg (.setbit1 wa wb) = some (.setbit wa wb true) ∧
    Pseudo.expand s.cfg (.udivrem wa wb) = some (.rdiv .unsigned wa wb) ∧
    Pseudo.expand s.cfg (.sdivrem wa wb) = some (.rdiv .signed wa wb) ∧
    ∀ n : Field16, n = BitVec.ofNat 16 (wc s.cfg wa.toNat) →
      Pseudo.expand s.cfg (.canon wa) = some (.fromlimbs wa n) ∧
      (widthOk s.cfg wa = true → n.toNat = wc s.cfg wa.toNat ∧
        exec (.fromlimbs wa n) s = .next (s.gaveR0 (s.opA wa) wa.toNat))

/-! ## Invariants -/

/-- R22, R24 to R32: every step keeps the state well formed: legal build parameters, buses of NBUS
limbs of L bits, valid bits only in an OK response, every valid result within its width, STATUS and
RW 0 in IDLE. -/
def Obligations.StepKeepsWellFormed : Prop :=
  ∀ s t : State, s.Wf → step s = .next t → t.Wf

/-- The reset state of every legal configuration is well formed; the reference configuration is
legal. Its buses' zero limbs are the model's choice (log entry 4). -/
def Obligations.ResetIsWellFormed : Prop :=
  Config.reference.Legal ∧ ∀ c : Config, c.Legal → (State.resetOf c).Wf

/-- R403, R38, R309: no step changes the build parameters, refuses, or faults but on a host's read;
and a step that changes STATUS, RW, R0 or R1 is an edge: with reset, an acceptance, or the one that
completes a command (an empty list of events is an idle edge, log entry 2). -/
def Obligations.OnlyTheseEventsChangeOutputs : Prop :=
  ∀ s : State,
    (∀ r, step s ≠ .refused r) ∧
    (∀ f, step s = .fault f → ∃ o rest, s.events = .read o :: rest ∧ f = .noValue o) ∧
    ∀ t, step s = .next t →
      t.cfg = s.cfg ∧
      (statusWord t ≠ statusWord s ∨ rwWord t ≠ rwWord s ∨ t.r0 ≠ s.r0 ∨ t.r1 ≠ s.r1 →
        s.events = [] ∧ s.Completing ∨ ∃ p rest, s.events = .clk p :: rest ∧
          (p.rst = true ∨ p.cmdValid = true ∧ cmdReady s p.rst = true ∨ s.Completing))

/-! ## Laws of the bitwise operations -/

/-- R239: AND and OR are commutative and associative, on the values the commands leave. -/
def Obligations.AndOrLaws : Prop :=
  ∀ (s : State) (wa : Field16), widthOk s.cfg wa = true →
    ∀ op ∈ [Instr.and wa wa, .or wa wa], ∃ u v,
      exec op s = .next u ∧ exec op { s with a := s.b, b := s.a } = .next v ∧
      u.r0 = v.r0 ∧ u.rw0 = v.rw0 ∧
      ∀ x : Bus, ∃ right l r, exec op { s with a := s.b, b := x } = .next right ∧
        exec op { s with a := u.r0, b := x } = .next l ∧
        exec op { s with b := right.r0 } = .next r ∧ l.r0 = r.r0 ∧ l.rw0 = r.rw0
end

