-- ==== Sys2Proof/Laws/Values.lean ====
section
/-! SUPPORT. Laws of the number and bus notation (00_scope.md R12 to R15): ranges, the signed reading
and its inverse, and what a bus holds. -/

namespace Sys2Proof.Machine

/-! ## Truncation and the signed reading -/

theorem trunc_lt (n v : Nat) : trunc n v < 2 ^ n := Nat.mod_lt _ (by positivity)

theorem trunc_of_lt {n v : Nat} (h : v < 2 ^ n) : trunc n v = v := Nat.mod_eq_of_lt h

theorem bitsAt_lt (v lo n : Nat) : bitsAt v lo n < 2 ^ n := Nat.mod_lt _ (by positivity)

theorem truncInt_cast (n : Nat) (z : Int) : (truncInt n z : Int) = z % ((2 ^ n : Nat) : Int) :=
  Int.toNat_of_nonneg (Int.emod_nonneg _ (by positivity))

theorem truncInt_lt (n : Nat) (z : Int) : truncInt n z < 2 ^ n := by
  have h := truncInt_cast n z
  have := Int.emod_lt_of_pos z (b := ((2 ^ n : Nat) : Int)) (by positivity)
  omega

theorem truncInt_natCast (n v : Nat) : truncInt n (v : Int) = trunc n v := by
  rw [truncInt, trunc, ← Int.natCast_mod, Int.toNat_natCast]

/-- Two integers have one n-bit pattern exactly when they agree modulo 2^n. -/
theorem truncInt_congr {n : Nat} {x y : Int} :
    truncInt n x = truncInt n y ↔ x % ((2 ^ n : Nat) : Int) = y % ((2 ^ n : Nat) : Int) := by
  rw [← truncInt_cast, ← truncInt_cast, Int.natCast_inj]

/-- The top bit of a w-bit value is set exactly from 2^(w-1) on. -/
theorem testBit_top {w v : Nat} (hw : 1 ≤ w) (hv : v < 2 ^ w) :
    v.testBit (w - 1) = decide (2 ^ (w - 1) ≤ v) := by
  obtain ⟨w, rfl⟩ : ∃ k, w = k + 1 := ⟨w - 1, by omega⟩
  simp only [Nat.add_sub_cancel] at *
  rw [Nat.testBit_eq_decide_div_mod_eq]
  have : 2 ^ (w + 1) = 2 * 2 ^ w := by ring
  by_cases h : 2 ^ w ≤ v
  · have : v / 2 ^ w = 1 := by
      apply Nat.div_eq_of_lt_le <;> omega
    simp [this, h]
  · simp [Nat.div_eq_of_lt (not_le.mp h), h]

/-- The signed reading in one line (R12). -/
theorem sval_eq {w v : Nat} (hw : 1 ≤ w) (hv : v < 2 ^ w) :
    sval w v = if 2 ^ (w - 1) ≤ v then (v : Int) - ((2 ^ w : Nat) : Int) else (v : Int) := by
  simp [sval, testBit_top hw hv]

theorem two_pow_pred {w : Nat} (hw : 1 ≤ w) : 2 ^ w = 2 * 2 ^ (w - 1) := by
  obtain ⟨w, rfl⟩ : ∃ k, w = k + 1 := ⟨w - 1, by omega⟩
  simp [pow_succ, mul_comm]

theorem sval_bounds {w v : Nat} (hw : 1 ≤ w) (hv : v < 2 ^ w) :
    -((2 ^ (w - 1) : Nat) : Int) ≤ sval w v ∧ sval w v < ((2 ^ (w - 1) : Nat) : Int) := by
  have := two_pow_pred hw
  rw [sval_eq hw hv]
  split <;> omega

theorem sval_emod (w v : Nat) :
    sval w v % ((2 ^ w : Nat) : Int) = (v : Int) % ((2 ^ w : Nat) : Int) := by
  rw [sval]
  split
  · exact Int.sub_emod_right _ _
  · rfl

/-- The signed reading loses nothing: its w-bit pattern is the value (R12). -/
theorem truncInt_sval {w v : Nat} (hv : v < 2 ^ w) : truncInt w (sval w v) = v := by
  rw [truncInt, sval_emod, ← Int.natCast_mod, Nat.mod_eq_of_lt hv, Int.toNat_natCast]

/-- An integer in the signed range of w bits is the reading of its pattern (R12). -/
theorem sval_truncInt {w : Nat} {z : Int} (hw : 1 ≤ w)
    (h₁ : -((2 ^ (w - 1) : Nat) : Int) ≤ z) (h₂ : z < ((2 ^ (w - 1) : Nat) : Int)) :
    sval w (truncInt w z) = z := by
  have hp := two_pow_pred hw
  have hc := truncInt_cast w z
  rw [sval_eq hw (truncInt_lt w z)]
  rcases lt_or_ge z 0 with hz | hz
  · have : z % ((2 ^ w : Nat) : Int) = z + ((2 ^ w : Nat) : Int) := by
      rw [← Int.add_emod_right, Int.emod_eq_of_lt] <;> omega
    split <;> omega
  · have : z % ((2 ^ w : Nat) : Int) = z := Int.emod_eq_of_lt hz (by omega)
    split <;> omega

theorem ext_lt {t : Tag} {n w v : Nat} (hv : v < 2 ^ w) (hn : w ≤ n) : ext t n w v < 2 ^ n := by
  cases t
  · exact hv.trans_le (Nat.pow_le_pow_right (by norm_num) hn)
  · exact truncInt_lt _ _

/-- Extension keeps the value under the tag (R12). -/
theorem valueOf_ext {t : Tag} {n w v : Nat} (hw : 1 ≤ w) (hv : v < 2 ^ w) (hn : w ≤ n) :
    valueOf t n (ext t n w v) = valueOf t w v := by
  cases t
  · rfl
  · have h := sval_bounds hw hv
    have hle : (2 : Nat) ^ (w - 1) ≤ 2 ^ (n - 1) := Nat.pow_le_pow_right (by norm_num) (by omega)
    exact sval_truncInt (by omega) (by omega) (by omega)

/-- Modulo 2^w the reading under a tag is the pattern. -/
theorem valueOf_emod (t : Tag) (w v : Nat) :
    valueOf t w v % ((2 ^ w : Nat) : Int) = (v : Int) % ((2 ^ w : Nat) : Int) := by
  cases t
  · rfl
  · exact sval_emod w v

theorem truncInt_valueOf {t : Tag} {w v : Nat} (hv : v < 2 ^ w) : truncInt w (valueOf t w v) = v := by
  cases t
  · rw [valueOf, truncInt_natCast, trunc_of_lt hv]
  · exact truncInt_sval hv

/-! ## Buses -/

theorem busNat_append (L : Nat) (xs ys : Bus) :
    busNat L (xs ++ ys) = busNat L xs + 2 ^ (L * xs.length) * busNat L ys := by
  induction xs with
  | nil => simp [busNat]
  | cons x xs ih =>
    simp only [List.cons_append, busNat, ih, List.length_cons, Nat.mul_succ, pow_add]
    ring

/-- R13's sum: a bus holds `sum over j of limb[j] * 2^(j*L)`. -/
theorem busNat_map_range (L n : Nat) (f : Nat → Nat) :
    busNat L ((List.range n).map f) = ∑ j ∈ Finset.range n, f j * 2 ^ (j * L) := by
  induction n with
  | zero => rfl
  | succ n ih =>
    rw [List.range_succ, List.map_append, busNat_append, ih, Finset.sum_range_succ]
    simp [busNat, mul_comm]

/-- The limbs of a number put together again: its low n*L bits. -/
theorem sum_bitsAt (L v n : Nat) :
    ∑ j ∈ Finset.range n, bitsAt v (j * L) L * 2 ^ (j * L) = v % 2 ^ (n * L) := by
  induction n with
  | zero => simp [Nat.mod_one]
  | succ n ih =>
    rw [Finset.sum_range_succ, ih, Nat.succ_mul, pow_add, Nat.mod_mul, bitsAt]
    ring

theorem L_pos (c : Config) : 0 < c.L := by
  rcases c with ⟨l, _⟩
  cases l <;> simp [Config.L, LimbWidth.bits]

theorem L_ge_eight (c : Config) : 8 ≤ c.L := by
  rcases c with ⟨l, _⟩
  cases l <;> simp [Config.L, LimbWidth.bits]

/-- L is a whole number of bytes. -/
theorem L_eq_bytes (c : Config) : c.L = 8 * (c.L / 8) := by
  rcases c with ⟨l, _⟩
  cases l <;> simp [Config.L, LimbWidth.bits]

theorem le_wc_mul (c : Config) (w : Nat) : w ≤ wc c w * c.L := by
  have h := L_pos c
  have := Nat.div_add_mod (w + c.L - 1) c.L
  have := Nat.mod_lt (w + c.L - 1) h
  rw [wc, Nat.mul_comm]
  omega

theorem le_nbus_mul (c : Config) : 8 * c.wmax ≤ c.nbus * c.L := le_wc_mul c (8 * c.wmax)

/-- The limbs R15 sets to 0 are 0 anyway for a value that fits its width. -/
theorem busOf_eq {c : Config} {v w : Nat} (hv : v < 2 ^ w) :
    busOf c v w = (List.range c.nbus).map fun j => bitsAt v (j * c.L) c.L := by
  refine List.map_congr_left fun j _ => ?_
  split
  · rfl
  · rename_i h
    have h1 : w ≤ j * c.L := (le_wc_mul c w).trans (Nat.mul_le_mul_right _ (by omega))
    have : v < 2 ^ (j * c.L) := hv.trans_le (Nat.pow_le_pow_right (by norm_num) h1)
    simp [bitsAt, Nat.div_eq_of_lt this]

theorem busNat_busOf {c : Config} {v w : Nat} (hv : v < 2 ^ w) :
    busNat c.L (busOf c v w) = v % 2 ^ (c.nbus * c.L) := by
  rw [busOf_eq hv, busNat_map_range, sum_bitsAt]

/-- A value in its width that the bus can carry reads back whole (R13, R15). -/
theorem busNat_busOf_of_le {c : Config} {v w : Nat} (hv : v < 2 ^ w) (hw : w ≤ c.nbus * c.L) :
    busNat c.L (busOf c v w) = v := by
  rw [busNat_busOf hv, Nat.mod_eq_of_lt (hv.trans_le (Nat.pow_le_pow_right (by norm_num) hw))]

theorem busNat_busOf_lt {c : Config} {v w : Nat} (hv : v < 2 ^ w) :
    busNat c.L (busOf c v w) < 2 ^ w := by
  rw [busNat_busOf hv]
  exact (Nat.mod_le _ _).trans_lt hv

theorem val_busOf {c : Config} {v w : Nat} (hv : v < 2 ^ w) (hw : w ≤ c.nbus * c.L) :
    val c (busOf c v w) w = v := by
  rw [val, busNat_busOf_of_le hv hw, trunc_of_lt hv]

theorem val_lt (c : Config) (x : Bus) (w : Nat) : val c x w < 2 ^ w := trunc_lt _ _

theorem busWf_iff {c : Config} {x : Bus} :
    busWf c x = true ↔ x.length = c.nbus ∧ ∀ l ∈ x, l < 2 ^ c.L := by
  simp [busWf]

theorem busWf_busOf (c : Config) (v w : Nat) : busWf c (busOf c v w) = true := by
  rw [busWf_iff]
  refine ⟨by simp [busOf], fun l hl => ?_⟩
  obtain ⟨j, -, rfl⟩ := List.mem_map.mp hl
  split
  · exact bitsAt_lt _ _ _
  · positivity

theorem busWf_portBus (c : Config) (x : Bus) : busWf c (portBus c x) = true := by
  rw [busWf_iff]
  refine ⟨by simp [portBus], fun l hl => ?_⟩
  obtain ⟨j, -, rfl⟩ := List.mem_map.mp hl
  exact trunc_lt _ _

theorem busWf_replicate_zero (c : Config) : busWf c (List.replicate c.nbus 0) = true := by
  rw [busWf_iff]
  refine ⟨by simp, fun l hl => ?_⟩
  rw [(List.mem_replicate.mp hl).2]
  positivity

/-- A bus read limb by limb is the bus. -/
theorem map_limbAt_range (x : Bus) : (List.range x.length).map (limbAt x) = x := by
  apply List.ext_getElem
  · simp
  · intro i h₁ h₂
    simp [limbAt, h₂]

/-- R13's sum over the limbs of a bus. -/
theorem busNat_eq_sum (L : Nat) (x : Bus) :
    busNat L x = ∑ j ∈ Finset.range x.length, limbAt x j * 2 ^ (j * L) := by
  conv_lhs => rw [← map_limbAt_range x]
  exact busNat_map_range _ _ _

end Sys2Proof.Machine
end

