-- ==== Sys2Proof/Laws/Mul.lean ====
section
/-! SUPPORT. The three multiplication algorithms of 44_mul.md give the exact products. -/

namespace Sys2Proof.Machine

/-! ## Schoolbook (R180) -/

theorem mod_two_pow_succ (b i : Nat) : b % 2 ^ (i + 1) = b % 2 ^ i + 2 ^ i * (b / 2 ^ i % 2) := by
  rw [pow_succ, Nat.mod_mul]

theorem testBit_eq_mod (b i : Nat) : b.testBit i = decide (b / 2 ^ i % 2 = 1) :=
  Nat.testBit_eq_decide_div_mod_eq

/-- The accumulator after i bits is `a` times the low i bits of `b`: it never overflows. -/
theorem schoolbookAcc_eq {w v a b : Nat} (ha : a < 2 ^ w) :
    ∀ {i : Nat}, i ≤ v → schoolbookAcc w v a b i = a * (b % 2 ^ i)
  | 0, _ => by simp [schoolbookAcc, Nat.mod_one]
  | i + 1, hi => by
    rw [schoolbookAcc, schoolbookAcc_eq ha (by omega), mod_two_pow_succ, testBit_eq_mod]
    rcases Nat.mod_two_eq_zero_or_one (b / 2 ^ i) with h | h
    · simp [h]
    · have hb : b % 2 ^ i < 2 ^ i := Nat.mod_lt _ (by positivity)
      have h1 : a * (b % 2 ^ i) + a * 2 ^ i = a * (b % 2 ^ i + 2 ^ i) := by ring
      have h2 : a * (b % 2 ^ i + 2 ^ i) < 2 ^ (w + v) := by
        calc a * (b % 2 ^ i + 2 ^ i) < 2 ^ w * (2 ^ i + 2 ^ i) := by
              apply Nat.mul_lt_mul_of_lt_of_le ha (by omega) (by positivity)
          _ = 2 ^ (w + (i + 1)) := by rw [pow_add, pow_succ]; ring
          _ ≤ 2 ^ (w + v) := Nat.pow_le_pow_right (by norm_num) (by omega)
      simp [h, h1, trunc_of_lt h2]

theorem schoolbook_eq {w v a b : Nat} (ha : a < 2 ^ w) (hb : b < 2 ^ v) :
    schoolbook w v a b = a * b := by
  rw [schoolbook, schoolbookAcc_eq ha le_rfl, Nat.mod_eq_of_lt hb]

/-! ## Karatsuba (R182) -/

theorem karatsuba_eq (L : Nat) : ∀ fuel n u v : Nat, karatsuba L fuel n u v = u * v
  | 0, _, _, _ => rfl
  | fuel + 1, n, u, v => by
    rw [karatsuba]
    split
    · rfl
    · simp only [karatsuba_eq L fuel]
      generalize hk : n / 2 = k
      have hu := Nat.div_add_mod u (2 ^ k)
      have hv := Nat.div_add_mod v (2 ^ k)
      generalize u / 2 ^ k = uh at *
      generalize u % 2 ^ k = ul at *
      generalize v / 2 ^ k = vh at *
      generalize v % 2 ^ k = vl at *
      have h : (uh + ul) * (vh + vl) - uh * vh - ul * vl = uh * vl + ul * vh := by
        have : (uh + ul) * (vh + vl) = uh * vl + ul * vh + ul * vl + uh * vh := by ring
        omega
      rw [h, ← hu, ← hv, Nat.mul_comm 2 k, pow_mul]
      ring

/-! ## Booth (R181)

With m the signed multiplicand and q = 2b, the register P before iteration i is the K-bit pattern of
`m * D i * 2^(y+1-i) + q / 2^i`, where `D i` is the signed value of the i multiplier bits already
read. -/

/-- The signed value of the low i bits of the multiplier, its bit i-1 counted negative. -/
def boothDigits (b i : Nat) : Int := ((b % 2 ^ i : Nat) : Int) - ((2 ^ i * (2 * b / 2 ^ i % 2) : Nat) : Int)

theorem two_mul_div_two_pow_succ (b i : Nat) : 2 * b / 2 ^ (i + 1) = b / 2 ^ i := by
  rw [pow_succ, Nat.mul_comm (2 ^ i) 2, Nat.mul_div_mul_left _ _ (by norm_num)]

theorem div_two_pow_succ (v i : Nat) : v / 2 ^ (i + 1) = v / 2 ^ i / 2 := by
  rw [pow_succ, Nat.div_div_eq_div_mul]

/-- One more multiplier bit: the digit chosen by P[1:0]. -/
theorem boothDigits_succ (b i : Nat) :
    boothDigits b (i + 1) = boothDigits b i
      + (((2 * b / 2 ^ i % 2 : Nat) : Int) - ((2 * b / 2 ^ i / 2 % 2 : Nat) : Int)) * 2 ^ i := by
  have h : 2 * b / 2 ^ i / 2 = b / 2 ^ i := by rw [← div_two_pow_succ, two_mul_div_two_pow_succ]
  simp only [boothDigits, mod_two_pow_succ, two_mul_div_two_pow_succ, h]
  push_cast
  ring

theorem boothDigits_zero (b : Nat) : boothDigits b 0 = 0 := by
  simp [boothDigits, Nat.mod_one]

/-- All y bits read: the signed multiplier. -/
theorem boothDigits_all {y b : Nat} (hy : 1 ≤ y) (hb : b < 2 ^ y) : boothDigits b y = sval y b := by
  obtain ⟨y, rfl⟩ : ∃ k, y = k + 1 := ⟨y - 1, by omega⟩
  rw [boothDigits, two_mul_div_two_pow_succ, Nat.mod_eq_of_lt hb, sval, Nat.add_sub_cancel,
    testBit_eq_mod]
  rcases Nat.mod_two_eq_zero_or_one (b / 2 ^ y) with h | h <;> simp [h]

theorem boothDigits_bounds (b i : Nat) :
    -((2 ^ i : Nat) : Int) ≤ boothDigits b (i + 1) ∧ boothDigits b (i + 1) < ((2 ^ i : Nat) : Int) := by
  have h : b % 2 ^ i < 2 ^ i := Nat.mod_lt _ (by positivity)
  rw [boothDigits, mod_two_pow_succ, two_mul_div_two_pow_succ]
  rcases Nat.mod_two_eq_zero_or_one (b / 2 ^ i) with h2 | h2 <;> rw [h2, pow_succ] <;> push_cast <;>
    constructor <;> omega

/-- The working value of P before iteration i. -/
def boothValue (y b : Nat) (m : Int) (i : Nat) : Int :=
  m * boothDigits b i * 2 ^ (y + 1 - i) + ((2 * b / 2 ^ i : Nat) : Int)

theorem truncInt_mod_four {K : Nat} (hK : 2 ≤ K) (z : Int) :
    ((truncInt K z % 4 : Nat) : Int) = z % 4 := by
  push_cast
  rw [truncInt_cast, Int.emod_emod_of_dvd]
  exact_mod_cast (pow_dvd_pow 2 hK : 2 ^ 2 ∣ 2 ^ K)

/-- A sum of patterns is the pattern of the sum. -/
theorem trunc_add_truncInt {K : Nat} {z u : Int} {r : Nat}
    (hr : (r : Int) % ((2 ^ K : Nat) : Int) = u % ((2 ^ K : Nat) : Int)) :
    trunc K (truncInt K z + r) = truncInt K (z + u) := by
  rw [← truncInt_natCast, truncInt_congr, Nat.cast_add, truncInt_cast, Int.emod_add_emod,
    Int.add_emod, hr, ← Int.add_emod]

/-- A pattern of n bits moved up by c bits, in n + c bits. -/
theorem shifted_pattern_emod (n c : Nat) (z : Int) :
    ((trunc (n + c) (truncInt n z * 2 ^ c) : Nat) : Int) % ((2 ^ (n + c) : Nat) : Int)
      = (z * 2 ^ c) % ((2 ^ (n + c) : Nat) : Int) := by
  have hK : ((2 ^ (n + c) : Nat) : Int) = ((2 ^ n : Nat) : Int) * 2 ^ c := by
    push_cast
    ring
  rw [trunc, Int.natCast_mod, Int.emod_emod, Nat.cast_mul, truncInt_cast, hK]
  push_cast
  exact (Int.mod_modEq z (2 ^ n)).mul_right'

theorem boothA_emod (x y a : Nat) :
    ((boothA x y a : Nat) : Int) % ((2 ^ (x + y + 2) : Nat) : Int)
      = (sval x a * 2 ^ (y + 1)) % ((2 ^ (x + y + 2) : Nat) : Int) := by
  have hK : x + y + 2 = x + 1 + (y + 1) := by ring
  rw [boothA, hK]
  exact shifted_pattern_emod _ _ _

theorem boothS_emod (x y a : Nat) :
    ((boothS x y a : Nat) : Int) % ((2 ^ (x + y + 2) : Nat) : Int)
      = (-sval x a * 2 ^ (y + 1)) % ((2 ^ (x + y + 2) : Nat) : Int) := by
  have hK : x + y + 2 = x + 1 + (y + 1) := by ring
  rw [boothS, hK]
  exact shifted_pattern_emod _ _ _

/-- The sum inside iteration i, before the shift. -/
theorem boothValue_add {y b : Nat} (m : Int) {i : Nat} (hi : i < y) :
    boothValue y b m i
        + (((2 * b / 2 ^ i % 2 : Nat) : Int) - ((2 * b / 2 ^ i / 2 % 2 : Nat) : Int)) * (m * 2 ^ (y + 1))
      = m * boothDigits b (i + 1) * 2 ^ (y + 1 - i) + ((2 * b / 2 ^ i : Nat) : Int) := by
  have h : (2 : Int) ^ (y + 1) = 2 ^ i * 2 ^ (y + 1 - i) := by
    rw [← pow_add]
    congr 1
    omega
  rw [boothDigits_succ, boothValue, h]
  ring

/-- The sum fits K bits: no iteration overflows (R181, "negated at x+1 bits"). -/
theorem booth_sum_bounds {x y b : Nat} {m : Int} (hx : 1 ≤ x) (hb : b < 2 ^ y)
    (h1 : -((2 ^ (x - 1) : Nat) : Int) ≤ m) (h2 : m < ((2 ^ (x - 1) : Nat) : Int)) {i : Nat} (hi : i < y) :
    -((2 ^ (x + y + 2 - 1) : Nat) : Int)
        ≤ m * boothDigits b (i + 1) * 2 ^ (y + 1 - i) + ((2 * b / 2 ^ i : Nat) : Int) ∧
      m * boothDigits b (i + 1) * 2 ^ (y + 1 - i) + ((2 * b / 2 ^ i : Nat) : Int)
        < ((2 ^ (x + y + 2 - 1) : Nat) : Int) := by
  obtain ⟨hd1, hd2⟩ := boothDigits_bounds b i
  have hprod : |m * boothDigits b (i + 1)| ≤ 2 ^ (x - 1) * 2 ^ i := by
    rw [abs_mul]
    push_cast at *
    exact mul_le_mul (abs_le.mpr ⟨h1, h2.le⟩) (abs_le.mpr ⟨hd1, hd2.le⟩) (abs_nonneg _) (by positivity)
  have hz : |m * boothDigits b (i + 1) * 2 ^ (y + 1 - i)| ≤ 2 ^ (x + y) := by
    rw [abs_mul, abs_of_pos (by positivity : (0 : Int) < 2 ^ (y + 1 - i))]
    calc _ ≤ (2 : Int) ^ (x - 1) * 2 ^ i * 2 ^ (y + 1 - i) := by gcongr
      _ = 2 ^ (x + y) := by rw [← pow_add, ← pow_add]; congr 1; omega
  have hq : 2 * b / 2 ^ i < 2 ^ (x + y) := by
    calc 2 * b / 2 ^ i ≤ 2 * b := Nat.div_le_self _ _
      _ < 2 * 2 ^ y := by omega
      _ = 2 ^ (1 + y) := by rw [pow_add]; norm_num
      _ ≤ 2 ^ (x + y) := Nat.pow_le_pow_right (by norm_num) (by omega)
  have hK : (2 : Nat) ^ (x + y + 2 - 1) = 2 * 2 ^ (x + y) := by
    rw [show x + y + 2 - 1 = x + y + 1 by omega, pow_succ]
    ring
  obtain ⟨hz1, hz2⟩ := abs_le.mp hz
  have hq' : ((2 * b / 2 ^ i : Nat) : Int) < ((2 ^ (x + y) : Nat) : Int) := by exact_mod_cast hq
  have hq0 : (0 : Int) ≤ ((2 * b / 2 ^ i : Nat) : Int) := Int.natCast_nonneg _
  rw [hK]
  generalize ((2 * b / 2 ^ i : Nat) : Int) = q at *
  push_cast at *
  constructor <;> linarith

/-- The shift at the end of iteration i. -/
theorem boothValue_halve {y b : Nat} (m : Int) {i : Nat} (hi : i < y) :
    (m * boothDigits b (i + 1) * 2 ^ (y + 1 - i) + ((2 * b / 2 ^ i : Nat) : Int)) / 2
      = boothValue y b m (i + 1) := by
  have h : (2 : Int) ^ (y + 1 - i) = 2 ^ (y + 1 - (i + 1)) * 2 := by
    rw [← pow_succ]
    congr 1
    omega
  rw [boothValue, h, ← mul_assoc, Int.add_comm, Int.add_mul_ediv_right _ _ (by norm_num),
    div_two_pow_succ]
  push_cast
  ring

/-- One Booth iteration on the pattern of P's working value. -/
theorem boothStep_eq {x y a b : Nat} (hx : 1 ≤ x) (ha : a < 2 ^ x) (hb : b < 2 ^ y) {i : Nat}
    (hi : i < y) :
    boothStep (x + y + 2) (boothA x y a) (boothS x y a)
        (truncInt (x + y + 2) (boothValue y b (sval x a) i))
      = truncInt (x + y + 2) (boothValue y b (sval x a) (i + 1)) := by
  obtain ⟨h1, h2⟩ := sval_bounds hx ha
  obtain ⟨hr1, hr2⟩ := booth_sum_bounds hx hb h1 h2 hi
  have hmod : truncInt (x + y + 2) (boothValue y b (sval x a) i) % 4 = 2 * b / 2 ^ i % 4 := by
    have h := truncInt_mod_four (K := x + y + 2) (by omega) (boothValue y b (sval x a) i)
    have h4 : (2 : Int) ^ (y + 1 - i) = 2 ^ (y - i - 1) * 4 := by
      rw [show (4 : Int) = 2 ^ 2 by norm_num, ← pow_add]
      congr 1
      omega
    rw [boothValue, h4, ← mul_assoc, Int.add_comm, Int.add_mul_emod_self_right] at h
    rw [boothValue, h4, ← mul_assoc, Int.add_comm]
    exact_mod_cast h
  have hsum : (if truncInt (x + y + 2) (boothValue y b (sval x a) i) % 4 = 1
        then trunc (x + y + 2) (truncInt (x + y + 2) (boothValue y b (sval x a) i) + boothA x y a)
        else if truncInt (x + y + 2) (boothValue y b (sval x a) i) % 4 = 2
        then trunc (x + y + 2) (truncInt (x + y + 2) (boothValue y b (sval x a) i) + boothS x y a)
        else truncInt (x + y + 2) (boothValue y b (sval x a) i))
      = truncInt (x + y + 2) (sval x a * boothDigits b (i + 1) * 2 ^ (y + 1 - i)
          + ((2 * b / 2 ^ i : Nat) : Int)) := by
    rw [hmod, ← boothValue_add (sval x a) hi, trunc_add_truncInt (boothA_emod x y a),
      trunc_add_truncInt (boothS_emod x y a)]
    generalize 2 * b / 2 ^ i = q
    have : q % 4 = 0 ∧ q % 2 = 0 ∧ q / 2 % 2 = 0 ∨ q % 4 = 1 ∧ q % 2 = 1 ∧ q / 2 % 2 = 0
        ∨ q % 4 = 2 ∧ q % 2 = 0 ∧ q / 2 % 2 = 1 ∨ q % 4 = 3 ∧ q % 2 = 1 ∧ q / 2 % 2 = 1 := by omega
    rcases this with ⟨h4, hq0, hq1⟩ | ⟨h4, hq0, hq1⟩ | ⟨h4, hq0, hq1⟩ | ⟨h4, hq0, hq1⟩ <;>
      simp [h4, hq0, hq1]
  rw [boothStep, hsum, sval_truncInt (by omega) hr1 hr2, boothValue_halve _ hi]

theorem boothSteps_eq {x y a b : Nat} (hx : 1 ≤ x) (ha : a < 2 ^ x) (hb : b < 2 ^ y) :
    ∀ {n i : Nat}, i + n = y →
      boothSteps (x + y + 2) (boothA x y a) (boothS x y a) n
          (truncInt (x + y + 2) (boothValue y b (sval x a) i))
        = truncInt (x + y + 2) (boothValue y b (sval x a) y)
  | 0, i, h => by
    obtain rfl : i = y := by omega
    rfl
  | n + 1, i, h => by
    rw [boothSteps, boothStep_eq hx ha hb (by omega), boothSteps_eq hx ha hb (by omega)]

/-- Bits 1 to n of the K-bit pattern of an integer are the n-bit pattern of its half. -/
theorem bitsAt_truncInt_one {K n : Nat} (h : n + 1 ≤ K) (z : Int) :
    bitsAt (truncInt K z) 1 n = truncInt n (z / 2) := by
  have hd : ((2 ^ (n + 1) : Nat) : Int) ∣ ((2 ^ K : Nat) : Int) := by
    exact_mod_cast pow_dvd_pow 2 h
  have e1 : (truncInt K z) / 2 % 2 ^ n = (truncInt K z) % 2 ^ (n + 1) / 2 := by
    rw [pow_succ, Nat.mul_comm, Nat.mod_mul_right_div_self]
  have e2 : ((truncInt K z % 2 ^ (n + 1) : Nat) : Int) = z % ((2 ^ (n + 1) : Nat) : Int) := by
    rw [Int.natCast_mod, truncInt_cast, Int.emod_emod_of_dvd _ hd]
  have e3 : z / 2 % ((2 ^ n : Nat) : Int) = z % ((2 ^ (n + 1) : Nat) : Int) / 2 := by
    have h2 : ((2 ^ (n + 1) : Nat) : Int) = 2 * ((2 ^ n : Nat) : Int) := by
      push_cast
      ring
    rw [h2, Int.emod_def, Int.emod_def, Int.mul_assoc,
      ← Int.ediv_ediv_of_nonneg (by norm_num : (0 : Int) ≤ 2), Int.sub_mul_ediv_left _ _ (by norm_num)]
  rw [bitsAt, pow_one, e1]
  apply Int.natCast_inj.mp
  rw [truncInt_cast, e3, ← e2]
  norm_cast

/-- Booth's algorithm gives the exact signed product (R181). -/
theorem booth_eq {x y a b : Nat} (hx : 1 ≤ x) (hy : 1 ≤ y) (ha : a < 2 ^ x) (hb : b < 2 ^ y) :
    booth x y a b = truncInt (x + y) (sval x a * sval y b) := by
  have h0 : b * 2 = truncInt (x + y + 2) (boothValue y b (sval x a) 0) := by
    have : b * 2 < 2 ^ (x + y + 2) := by
      calc b * 2 < 2 ^ y * 2 := by omega
        _ = 2 ^ (y + 1) := by rw [pow_succ]
        _ ≤ 2 ^ (x + y + 2) := Nat.pow_le_pow_right (by norm_num) (by omega)
    rw [boothValue, boothDigits_zero, mul_zero, zero_mul, zero_add, truncInt_natCast, pow_zero,
      Nat.div_one, Nat.mul_comm 2 b, trunc_of_lt this]
  have hend : boothValue y b (sval x a) y / 2 = sval x a * sval y b := by
    obtain ⟨y, rfl⟩ : ∃ k, y = k + 1 := ⟨y - 1, by omega⟩
    rw [boothValue, boothDigits_all hy hb, Nat.add_sub_cancel_left, pow_one, Int.add_comm,
      Int.add_mul_ediv_right _ _ (by norm_num), two_mul_div_two_pow_succ]
    have : b / 2 ^ y < 2 := Nat.div_lt_of_lt_mul (by rw [← pow_succ]; exact hb)
    have h2 : ((b / 2 ^ y : Nat) : Int) / 2 = 0 := by exact_mod_cast Nat.div_eq_of_lt this
    rw [h2, zero_add]
  rw [booth, h0, boothSteps_eq hx ha hb (by omega), bitsAt_truncInt_one (by omega), hend]

/-- The product by the tag is the exact product of the operands' readings (R183, R184). -/
theorem taggedProduct_eq {t : Tag} {w v a b : Nat} (hw : 1 ≤ w) (hv : 1 ≤ v) (ha : a < 2 ^ w)
    (hb : b < 2 ^ v) :
    taggedProduct t w v a b = truncInt (w + v) (valueOf t w a * valueOf t v b) := by
  cases t
  · have hlt : a * b < 2 ^ (w + v) := by
      rw [pow_add]
      exact Nat.mul_lt_mul'' ha hb
    rw [taggedProduct, schoolbook_eq ha hb, valueOf, valueOf, ← Nat.cast_mul, truncInt_natCast,
      trunc_of_lt hlt]
  · exact booth_eq hw hv ha hb

end Sys2Proof.Machine
end

