-- ==== Sys2Proof/Laws/Bits.lean ====
section
/-! SUPPORT. Bit by bit: fields of a number, replaced fields, the word mask (00_scope.md R14), limbs and
bytes of a bus (R13, 20_memory.md R54), and rotation of an n-bit ring (42_shift.md R144 to R147). -/

namespace Sys2Proof.Machine

/-! ## Fields -/

theorem testBit_bitsAt (v lo n k : Nat) :
    (bitsAt v lo n).testBit k = (decide (k < n) && v.testBit (lo + k)) := by
  rw [bitsAt, Nat.testBit_mod_two_pow, Nat.testBit_div_two_pow, Nat.add_comm]

/-- A field of a field is a field. -/
theorem bitsAt_bitsAt {v lo n lo' m : Nat} (h : lo' + m ≤ n) :
    bitsAt (bitsAt v lo n) lo' m = bitsAt v (lo + lo') m := by
  refine Nat.eq_of_testBit_eq fun k => ?_
  simp only [testBit_bitsAt, Nat.add_assoc]
  by_cases hk : k < m
  · rw [decide_eq_true (show lo' + k < n by omega), Bool.true_and]
  · simp [hk]

/-- A number below 2^w has no bit from w on. -/
theorem testBit_of_lt {v w j : Nat} (h : v < 2 ^ w) (hj : w ≤ j) : v.testBit j = false :=
  Nat.testBit_lt_two_pow (h.trans_le (Nat.pow_le_pow_right (by norm_num) hj))

/-- The bits of a number put together from a high and a low part. -/
theorem testBit_high_low {lo y : Nat} (x : Nat) (hy : y < 2 ^ lo) (j : Nat) :
    (2 ^ lo * x + y).testBit j = if j < lo then y.testBit j else x.testBit (j - lo) :=
  Nat.testBit_two_pow_mul_add x hy j

/-- What `replaceBits` leaves, bit by bit (R103, R105). -/
theorem testBit_replaceBits {a lo n v : Nat} (hv : v < 2 ^ n) (j : Nat) :
    (replaceBits a lo n v).testBit j
      = if lo ≤ j ∧ j < lo + n then v.testBit (j - lo) else a.testBit j := by
  have ha : 2 ^ lo * (2 ^ n * (a / 2 ^ lo / 2 ^ n) + bitsAt a lo n) + a % 2 ^ lo = a := by
    rw [bitsAt, Nat.div_add_mod, Nat.div_add_mod]
  have hr : replaceBits a lo n v
      = 2 ^ lo * (2 ^ n * (a / 2 ^ lo / 2 ^ n) + v) + a % 2 ^ lo := by
    have h1 : bitsAt a lo n * 2 ^ lo ≤ a := by
      conv_rhs => rw [← ha]
      nlinarith [Nat.zero_le (2 ^ lo * (2 ^ n * (a / 2 ^ lo / 2 ^ n))), Nat.zero_le (a % 2 ^ lo)]
    have h2 : a + v * 2 ^ lo
        = 2 ^ lo * (2 ^ n * (a / 2 ^ lo / 2 ^ n) + v) + a % 2 ^ lo + bitsAt a lo n * 2 ^ lo := by
      conv_lhs => rw [← ha]
      ring
    rw [replaceBits]
    omega
  have hlow : a % 2 ^ lo < 2 ^ lo := Nat.mod_lt _ (by positivity)
  conv_rhs => rw [← ha]
  rw [hr, testBit_high_low _ hlow, testBit_high_low _ hlow, testBit_high_low _ hv,
    testBit_high_low _ (bitsAt_lt a lo n)]
  split_ifs <;> first | rfl | omega

/-! ## Limbs of a width -/

theorem wc_pred_mul_lt {c : Config} {w : Nat} (hw : 1 ≤ w) : (wc c w - 1) * c.L < w := by
  have h := L_pos c
  have h1 := Nat.div_add_mod (w + c.L - 1) c.L
  have : (wc c w - 1) * c.L = c.L * ((w + c.L - 1) / c.L) - c.L := by
    rw [wc, Nat.sub_mul, Nat.one_mul, Nat.mul_comm]
  omega

theorem wc_pos {c : Config} {w : Nat} (hw : 1 ≤ w) : 1 ≤ wc c w :=
  Nat.div_pos (by have := L_pos c; omega) (L_pos c)

theorem wc_le {c : Config} {w : Nat} (hw : 1 ≤ w) : wc c w ≤ w := by
  have h1 := wc_pred_mul_lt (c := c) hw
  have h2 := Nat.le_mul_of_pos_right (wc c w - 1) (L_pos c)
  omega

/-- The word mask bit by bit (R14). -/
theorem testBit_wmask {c : Config} {w i : Nat} (hw : 1 ≤ w) (hi : i < wc c w) (k : Nat) :
    (wmask c w i).testBit k = decide (k < c.L ∧ i * c.L + k < w) := by
  have hL := L_pos c
  have h1 := le_wc_mul c w
  have h2 := wc_pred_mul_lt (c := c) hw
  have hm := Nat.mod_lt w hL
  have hd := Nat.div_add_mod w c.L
  have hmul : ∀ n, i + 1 ≤ n → i * c.L + c.L ≤ n * c.L := fun n hn => by
    rw [← Nat.succ_mul]
    exact Nat.mul_le_mul_right _ hn
  rw [wmask]
  split
  · rename_i h
    obtain ⟨h, h0⟩ := h
    rw [← h, Nat.add_sub_cancel] at h2
    rw [← h, Nat.succ_mul] at h1
    have hdiv : w / c.L = i := by
      apply Nat.div_eq_of_lt_le
      · omega
      · rw [Nat.succ_mul]
        rcases Nat.lt_or_ge w (i * c.L + c.L) with h3 | h3
        · exact h3
        · exact absurd (by rw [show w = (i + 1) * c.L by rw [Nat.succ_mul]; omega]; simp) h0
    rw [hdiv, Nat.mul_comm] at hd
    rw [Nat.testBit_two_pow_sub_one]
    exact decide_eq_decide.mpr (by omega)
  · rename_i h
    rw [Nat.testBit_two_pow_sub_one]
    refine decide_eq_decide.mpr ⟨fun hk => ⟨hk, ?_⟩, And.left⟩
    by_cases hl : i + 1 = wc c w
    · have h0 : w % c.L = 0 := by
        by_contra h0
        exact h ⟨hl, h0⟩
      have hwc : wc c w = w / c.L := by
        rw [wc]
        apply Nat.div_eq_of_lt_le
        · rw [Nat.mul_comm]; omega
        · rw [Nat.succ_mul, Nat.mul_comm]; omega
      have := hmul (w / c.L) (by omega)
      rw [Nat.mul_comm (w / c.L)] at this
      omega
    · have := hmul (wc c w - 1) (by omega)
      omega

theorem wmask_lt (c : Config) (w i : Nat) : wmask c w i < 2 ^ c.L := by
  have hm := Nat.mod_lt w (L_pos c)
  have : 2 ^ (w % c.L) ≤ 2 ^ c.L := Nat.pow_le_pow_right (by norm_num) hm.le
  have : 0 < 2 ^ c.L := by positivity
  rw [wmask]
  split <;> omega

/-! ## Limbs and bytes of a bus -/

theorem limbAt_of_le {x : Bus} {j : Nat} (h : x.length ≤ j) : limbAt x j = 0 := by
  simp [limbAt, h]

theorem limbAt_lt {c : Config} {x : Bus} (hx : busWf c x = true) (j : Nat) : limbAt x j < 2 ^ c.L := by
  rcases Nat.lt_or_ge j x.length with h | h
  · exact (busWf_iff.mp hx).2 _ (by simp [limbAt, h])
  · rw [limbAt_of_le h]
    positivity

/-- Limb j of a bus is the field of its number (R13). -/
theorem limbAt_eq_bitsAt {L : Nat} : ∀ {x : Bus}, (∀ l ∈ x, l < 2 ^ L) → ∀ j : Nat,
    limbAt x j = bitsAt (busNat L x) (j * L) L
  | [], _, j => by simp [limbAt, bitsAt, busNat]
  | l :: x, h, j => by
    have hl : l < 2 ^ L := h l (by simp)
    cases j with
    | zero =>
      rw [bitsAt, busNat, Nat.zero_mul, pow_zero, Nat.div_one, Nat.add_mul_mod_self_left,
        Nat.mod_eq_of_lt hl]
      rfl
    | succ j =>
      have hd : (l + 2 ^ L * busNat L x) / 2 ^ L = busNat L x := by
        rw [Nat.add_mul_div_left _ _ (by positivity), Nat.div_eq_of_lt hl, Nat.zero_add]
      rw [show limbAt (l :: x) (j + 1) = limbAt x j from rfl,
        limbAt_eq_bitsAt (fun l hl => h l (by simp [hl])) j, bitsAt, bitsAt, busNat, Nat.succ_mul,
        Nat.add_comm (j * L) L, pow_add, ← Nat.div_div_eq_div_mul, hd]

theorem busNat_lt {L : Nat} : ∀ {x : Bus}, (∀ l ∈ x, l < 2 ^ L) → busNat L x < 2 ^ (x.length * L)
  | [], _ => by simp [busNat]
  | l :: x, h => by
    have hl : l < 2 ^ L := h l (by simp)
    have hx := busNat_lt (L := L) (x := x) fun l hl => h l (by simp [hl])
    rw [busNat, List.length_cons, Nat.succ_mul, Nat.add_comm (x.length * L), pow_add]
    calc _ < 2 ^ L + 2 ^ L * busNat L x := by omega
      _ = 2 ^ L * (busNat L x + 1) := by ring
      _ ≤ 2 ^ L * 2 ^ (x.length * L) := Nat.mul_le_mul_left _ hx

/-- Limb j of a bus that carries a value (R15). -/
theorem limbAt_busOf {c : Config} {v w : Nat} (hv : v < 2 ^ w) (hw : w ≤ c.nbus * c.L) (j : Nat) :
    limbAt (busOf c v w) j = bitsAt v (j * c.L) c.L := by
  rw [limbAt_eq_bitsAt (busWf_iff.mp (busWf_busOf c v w)).2, busNat_busOf_of_le hv hw]

/-- Byte j of a bus is bits 8j+7 to 8j of its number (R13, R54). -/
theorem byteAt_eq_bitsAt {c : Config} {x : Bus} (hx : busWf c x = true) (j : Nat) :
    byteAt c x j = bitsAt (busNat c.L x) (8 * j) 8 := by
  have hL := L_eq_bytes c
  have h8 := L_ge_eight c
  have hB : 0 < c.L / 8 := by omega
  have hm := Nat.mod_lt j hB
  have hd := Nat.div_add_mod j (c.L / 8)
  have he : j / (c.L / 8) * c.L = 8 * (c.L / 8 * (j / (c.L / 8))) := by
    conv_lhs => rw [hL]
    ring_nf
    simp [mul_comm]
  rw [byteAt, limbAt_eq_bitsAt (busWf_iff.mp hx).2, bitsAt_bitsAt (by omega), he]
  congr 1
  omega

/-- A well-formed bus is what the port delivers (R8, R38). -/
theorem portBus_of_wf {c : Config} {x : Bus} (h : busWf c x = true) : portBus c x = x := by
  have h' := busWf_iff.mp h
  rw [portBus, ← h'.1]
  conv_rhs => rw [← map_limbAt_range x]
  exact List.map_congr_left fun j _ => trunc_of_lt (limbAt_lt h j)

/-! ## Rotation of an n-bit ring -/

/-- An n-bit value rotated left by k. -/
def rotate (n x k : Nat) : Nat := trunc n (x * 2 ^ k) + x / 2 ^ (n - k)

/-- What a shift left by k leaves of n bits. -/
theorem trunc_mul_two_pow {n k : Nat} (x : Nat) (hk : k ≤ n) :
    trunc n (x * 2 ^ k) = 2 ^ k * (x % 2 ^ (n - k)) := by
  rw [trunc, Nat.mul_comm x]
  conv_lhs => rw [show n = k + (n - k) by omega, pow_add, Nat.mul_mod_mul_left]

/-- The two parts of a rotated value. -/
theorem rotate_eq {n k : Nat} (x : Nat) (hk : k ≤ n) :
    rotate n x k = 2 ^ k * (x % 2 ^ (n - k)) + x / 2 ^ (n - k) := by
  rw [rotate, trunc_mul_two_pow x hk]

theorem high_part_lt {n x k : Nat} (hx : x < 2 ^ n) (hk : k ≤ n) : x / 2 ^ (n - k) < 2 ^ k := by
  apply Nat.div_lt_of_lt_mul
  rwa [← pow_add, show n - k + k = n by omega]

theorem testBit_rotate {n x k : Nat} (hx : x < 2 ^ n) (hk : k ≤ n) (i : Nat) :
    (rotate n x k).testBit i
      = if i < k then x.testBit (n - k + i) else decide (i < n) && x.testBit (i - k) := by
  rw [rotate_eq x hk, testBit_high_low _ (high_part_lt hx hk), Nat.testBit_div_two_pow,
    Nat.testBit_mod_two_pow, Nat.add_comm i]
  split
  · rfl
  · congr 1
    exact decide_eq_decide.mpr (by omega)

theorem rotate_lt {n x k : Nat} (hx : x < 2 ^ n) (hk : k ≤ n) : rotate n x k < 2 ^ n := by
  refine Nat.lt_pow_two_of_testBit _ fun i hi => ?_
  rw [testBit_rotate hx hk]
  split
  · exact testBit_of_lt hx (by omega)
  · simp [Nat.not_lt.mpr hi]

/-- Bit j moves to position (j + k) mod n (R144). -/
theorem testBit_rotate_mod {n x k j : Nat} (hx : x < 2 ^ n) (hk : k ≤ n) (hj : j < n) :
    (rotate n x k).testBit ((j + k) % n) = x.testBit j := by
  rw [testBit_rotate hx hk]
  rcases Nat.lt_or_ge (j + k) n with h | h
  · rw [Nat.mod_eq_of_lt h, if_neg (by omega), decide_eq_true h, Bool.true_and, Nat.add_sub_cancel]
  · have hm : (j + k) % n = j + k - n := by
      rw [Nat.mod_eq_sub_mod h, Nat.mod_eq_of_lt (by omega)]
    rw [hm, if_pos (by omega)]
    congr 1
    omega

/-- Rotations add up. -/
theorem rotate_rotate {n x k₁ k₂ : Nat} (hx : x < 2 ^ n) (h : k₁ + k₂ ≤ n) :
    rotate n (rotate n x k₁) k₂ = rotate n x (k₁ + k₂) := by
  refine Nat.eq_of_testBit_eq fun i => ?_
  rw [testBit_rotate (rotate_lt hx (by omega)) (by omega), testBit_rotate hx (by omega),
    testBit_rotate hx (by omega), testBit_rotate hx h]
  split_ifs
  all_goals
    first
    | omega
    | (rw [decide_eq_true (by omega), Bool.true_and]
       congr 1
       omega)
    | (by_cases hi : i < n
       · rw [decide_eq_true (show i - k₂ < n by omega), Bool.true_and, Nat.sub_sub, Nat.add_comm k₂]
       · simp [hi])

theorem rotate_zero {n x : Nat} (hx : x < 2 ^ n) : rotate n x 0 = x := by
  rw [rotate, pow_zero, Nat.mul_one, trunc_of_lt hx, Nat.sub_zero, Nat.div_eq_of_lt hx, Nat.add_zero]

theorem rotate_full (n x : Nat) : rotate n x n = x := by
  rw [rotate, trunc, Nat.mul_mod_left, Nat.sub_self, pow_zero, Nat.div_one, Nat.zero_add]

end Sys2Proof.Machine
end

