-- ==== Sys2Proof/Laws/Decode.lean ====
section
/-! SUPPORT. Laws of the command word (30_encoding.md R70): its fields are read back, and a word is
its fields. -/

namespace Sys2Proof

/-- Bit `i` of an assembled word lies in the field R70 places there. -/
theorem Fields.getLsbD_word (f : Fields) (i : Nat) :
    f.word.getLsbD i =
      if i < 8 then f.opc.getLsbD i
      else if i < 9 then f.s
      else if i < 10 then f.ci
      else if i < 16 then f.rsv.getLsbD (i - 10)
      else if i < 32 then f.wa.getLsbD (i - 16)
      else if i < 48 then f.wb.getLsbD (i - 32)
      else f.imm.getLsbD (i - 48) := by
  simp only [Fields.word, BitVec.getLsbD_append, BitVec.getLsbD_ofBool]
  split_ifs <;> first | rfl | omega | simp; omega

/-- Reading the fields of an assembled word gives them back. -/
@[simp] theorem Fields.ofWord_word (f : Fields) : Fields.ofWord f.word = f := by
  rcases f with ⟨opc, s, ci, rsv, wa, wb, imm⟩
  simp only [Fields.ofWord, Fields.mk.injEq]
  refine ⟨?_, ?_, ?_, ?_, ?_, ?_, ?_⟩
  all_goals
    first
    | (refine BitVec.eq_of_getLsbD_eq fun i hi => ?_
       rw [BitVec.getLsbD_extractLsb', Fields.getLsbD_word]
       simp only [hi, decide_true, Bool.true_and]
       split_ifs <;> first | omega | (congr 1; omega))
    | (rw [Fields.getLsbD_word]; rfl)

/-- A word is the word of its fields. -/
@[simp] theorem Fields.word_ofWord (w : CmdWord) : (Fields.ofWord w).word = w := by
  refine BitVec.eq_of_getLsbD_eq fun i hi => ?_
  rw [Fields.getLsbD_word]
  simp only [Fields.ofWord, BitVec.getLsbD_extractLsb']
  split_ifs <;> (try rw [decide_eq_true (by omega), Bool.true_and]) <;> congr 1 <;> omega

/-- Different fields make different words. -/
theorem Fields.word_inj {f g : Fields} : f.word = g.word ↔ f = g :=
  ⟨fun h => by rw [← Fields.ofWord_word f, h, Fields.ofWord_word], fun h => h ▸ rfl⟩

/-- Fields of a word with some bits added. -/
theorem Fields.ofWord_or (x y : CmdWord) :
    Fields.ofWord (x ||| y) =
      let f := Fields.ofWord x
      let g := Fields.ofWord y
      ⟨f.opc ||| g.opc, f.s || g.s, f.ci || g.ci, f.rsv ||| g.rsv, f.wa ||| g.wa, f.wb ||| g.wb,
        f.imm ||| g.imm⟩ := by
  simp only [Fields.ofWord, Fields.mk.injEq]
  refine ⟨?_, by simp, by simp, ?_, ?_, ?_, ?_⟩
  all_goals
    refine BitVec.eq_of_getLsbD_eq fun i hi => ?_
    simp [hi]

/-- Fields of a word with some bits masked out. -/
theorem Fields.ofWord_and (x y : CmdWord) :
    Fields.ofWord (x &&& y) =
      let f := Fields.ofWord x
      let g := Fields.ofWord y
      ⟨f.opc &&& g.opc, f.s && g.s, f.ci && g.ci, f.rsv &&& g.rsv, f.wa &&& g.wa, f.wb &&& g.wb,
        f.imm &&& g.imm⟩ := by
  simp only [Fields.ofWord, Fields.mk.injEq]
  refine ⟨?_, by simp, by simp, ?_, ?_, ?_, ?_⟩
  all_goals
    refine BitVec.eq_of_getLsbD_eq fun i hi => ?_
    simp [hi]

/-- Fields of a word with every bit inverted. -/
theorem Fields.ofWord_not (x : CmdWord) :
    Fields.ofWord (~~~ x) =
      let f := Fields.ofWord x
      ⟨~~~ f.opc, !f.s, !f.ci, ~~~ f.rsv, ~~~ f.wa, ~~~ f.wb, ~~~ f.imm⟩ := by
  simp only [Fields.ofWord, Fields.mk.injEq]
  refine ⟨?_, by simp, by simp, ?_, ?_, ?_, ?_⟩
  all_goals
    refine BitVec.eq_of_getLsbD_eq fun i hi => ?_
    simp only [BitVec.getLsbD_extractLsb', BitVec.getLsbD_not, hi, decide_true, Bool.true_and]
    rw [decide_eq_true (by omega), Bool.true_and]

/-- Decoding an assembled word reads its fields. -/
@[simp] theorem decode_word (f : Fields) : decode f.word = decodeFields f := by
  rw [decode, Fields.ofWord_word]

end Sys2Proof
end

