-- ==== Sys2Proof/Laws/Div.lean ====
section
/-! SUPPORT. Restoring division (45_div.md R200) gives quotient and remainder, and its signed form the
truncating division of 00_scope.md R12. -/

namespace Sys2Proof.Machine

/-- The loop over the low i numerator bits, from a remainder below the denominator. -/
theorem udivremLoop_eq {n d : Nat} (hd : 0 < d) :
    ∀ {i r q : Nat}, r < d →
      udivremLoop n d i r q
        = (q + (r * 2 ^ i + n % 2 ^ i) / d, (r * 2 ^ i + n % 2 ^ i) % d)
  | 0, r, q, hr => by
    simp [udivremLoop, Nat.mod_one, Nat.div_eq_of_lt hr, Nat.mod_eq_of_lt hr]
  | i + 1, r, q, hr => by
    have hbit : bitAt n i = n / 2 ^ i % 2 := by
      rw [bitAt, testBit_eq_mod]
      rcases Nat.mod_two_eq_zero_or_one (n / 2 ^ i) with h | h <;> simp [h]
    have hlt := Nat.mod_lt (n / 2 ^ i) (by norm_num : 0 < 2)
    have hval : r * 2 ^ (i + 1) + n % 2 ^ (i + 1) = (2 * r + bitAt n i) * 2 ^ i + n % 2 ^ i := by
      rw [hbit, mod_two_pow_succ, pow_succ]
      ring
    rw [udivremLoop, hval]
    split
    · rename_i h
      rw [udivremLoop_eq hd (by omega)]
      have hs : (2 * r + bitAt n i) * 2 ^ i + n % 2 ^ i
          = (2 * r + bitAt n i - d) * 2 ^ i + n % 2 ^ i + 2 ^ i * d := by
        obtain ⟨k, hk⟩ := Nat.exists_eq_add_of_le h
        rw [hk, Nat.add_sub_cancel_left]
        ring
      rw [hs, Nat.add_mul_div_right _ _ hd, Nat.add_mul_mod_self_right]
      congr 1
      ring
    · rw [udivremLoop_eq hd (by omega)]

theorem udivrem_eq {n d w : Nat} (hd : 0 < d) (hn : n < 2 ^ w) : udivrem n d w = (n / d, n % d) := by
  rw [udivrem, udivremLoop_eq hd hd, Nat.mod_eq_of_lt hn]
  simp

theorem sval_natAbs_lt {w v : Nat} (hw : 1 ≤ w) (hv : v < 2 ^ w) : (sval w v).natAbs < 2 ^ w := by
  have := sval_bounds hw hv
  have := two_pow_pred hw
  omega

theorem sval_eq_zero {w v : Nat} (hv : v < 2 ^ w) : sval w v = 0 ↔ v = 0 := by
  constructor
  · intro h
    have := truncInt_sval hv
    rw [h] at this
    simpa [truncInt] using this.symm
  · rintro rfl
    simp [sval]

/-- The sign rules of R200 are truncating division (R12). -/
theorem signed_quotient (x y : Int) :
    (if (x < 0) ↔ (y < 0) then ((x.natAbs / y.natAbs : Nat) : Int)
      else -((x.natAbs / y.natAbs : Nat) : Int)) = x.tdiv y := by
  obtain ⟨m, rfl | rfl⟩ := x.eq_nat_or_neg <;> obtain ⟨n, rfl | rfl⟩ := y.eq_nat_or_neg <;>
    rcases Nat.eq_zero_or_pos m with rfl | hm <;> rcases Nat.eq_zero_or_pos n with rfl | hn <;>
    simp [Int.neg_tdiv, Int.tdiv_neg, not_lt.mpr (Int.natCast_nonneg _), *]

theorem signed_remainder (x y : Int) :
    (if 0 ≤ x then ((x.natAbs % y.natAbs : Nat) : Int)
      else -((x.natAbs % y.natAbs : Nat) : Int)) = x.tmod y := by
  obtain ⟨m, rfl | rfl⟩ := x.eq_nat_or_neg <;> obtain ⟨n, rfl | rfl⟩ := y.eq_nat_or_neg <;>
    rcases Nat.eq_zero_or_pos m with hm | hm <;>
    simp [Int.neg_tmod, Int.tmod_neg, ← Int.ofNat_tmod, *] <;> omega

/-- Division by the tag is truncating division of the operands' readings, in w bits (R200). -/
theorem divrem_eq {t : Tag} {w v a b : Nat} (hw : 1 ≤ w) (ha : a < 2 ^ w)
    (hb : b < 2 ^ v) (h0 : b ≠ 0) :
    divrem t w v a b
      = (truncInt w ((valueOf t w a).tdiv (valueOf t v b)),
          truncInt w ((valueOf t w a).tmod (valueOf t v b))) := by
  cases t
  · have hq : a / b < 2 ^ w := (Nat.div_le_self _ _).trans_lt ha
    have hr : a % b < 2 ^ w := (Nat.mod_le _ _).trans_lt ha
    rw [divrem, udivrem_eq (by omega) ha, valueOf, valueOf, ← Int.ofNat_tdiv, ← Int.ofNat_tmod,
      truncInt_natCast, truncInt_natCast, trunc_of_lt hq, trunc_of_lt hr]
  · have hs : sval v b ≠ 0 := fun h => h0 ((sval_eq_zero hb).mp h)
    simp only [divrem, valueOf,
      udivrem_eq (Int.natAbs_pos.mpr hs) (sval_natAbs_lt hw ha), signed_quotient, signed_remainder]

end Sys2Proof.Machine
end

