-- ==== Sys2Proof/Laws/State.lean ====
section
/-! SUPPORT. One lemma a field for every update of State, so that no proof unfolds a record update. -/

namespace Sys2Proof.Machine

variable (s : State)

/-! completion with an error (R303) -/

@[simp] theorem State.failed_cfg (e : ErrorCode) : (s.failed e).cfg = s.cfg := rfl
@[simp] theorem State.failed_phase (e : ErrorCode) : (s.failed e).phase = .done := rfl
@[simp] theorem State.failed_cmd (e : ErrorCode) : (s.failed e).cmd = s.cmd := rfl
@[simp] theorem State.failed_a (e : ErrorCode) : (s.failed e).a = s.a := rfl
@[simp] theorem State.failed_b (e : ErrorCode) : (s.failed e).b = s.b := rfl
@[simp] theorem State.failed_co (e : ErrorCode) : (s.failed e).co = s.co := rfl
@[simp] theorem State.failed_r0v (e : ErrorCode) : (s.failed e).r0v = false := rfl
@[simp] theorem State.failed_r1v (e : ErrorCode) : (s.failed e).r1v = false := rfl
@[simp] theorem State.failed_cov (e : ErrorCode) : (s.failed e).cov = false := rfl
@[simp] theorem State.failed_st (e : ErrorCode) : (s.failed e).st = .error e := rfl
@[simp] theorem State.failed_rw0 (e : ErrorCode) : (s.failed e).rw0 = s.rw0 := rfl
@[simp] theorem State.failed_rw1 (e : ErrorCode) : (s.failed e).rw1 = s.rw1 := rfl
@[simp] theorem State.failed_r0 (e : ErrorCode) : (s.failed e).r0 = s.r0 := rfl
@[simp] theorem State.failed_r1 (e : ErrorCode) : (s.failed e).r1 = s.r1 := rfl
@[simp] theorem State.failed_wait (e : ErrorCode) : (s.failed e).wait = s.wait := rfl
@[simp] theorem State.failed_accepted (e : ErrorCode) : (s.failed e).accepted = s.accepted := rfl
@[simp] theorem State.failed_events (e : ErrorCode) : (s.failed e).events = s.events := rfl
@[simp] theorem State.failed_seen (e : ErrorCode) : (s.failed e).seen = s.seen := rfl

/-! completion with outputs (R15, R27) -/

@[simp] theorem State.completed_cfg (o : Outputs) : (s.completed o).cfg = s.cfg := rfl
@[simp] theorem State.completed_phase (o : Outputs) : (s.completed o).phase = .done := rfl
@[simp] theorem State.completed_cmd (o : Outputs) : (s.completed o).cmd = s.cmd := rfl
@[simp] theorem State.completed_a (o : Outputs) : (s.completed o).a = s.a := rfl
@[simp] theorem State.completed_b (o : Outputs) : (s.completed o).b = s.b := rfl
@[simp] theorem State.completed_co (o : Outputs) : (s.completed o).co = o.co.getD s.co := rfl
@[simp] theorem State.completed_r0v (o : Outputs) : (s.completed o).r0v = o.r0.isSome := rfl
@[simp] theorem State.completed_r1v (o : Outputs) : (s.completed o).r1v = o.r1.isSome := rfl
@[simp] theorem State.completed_cov (o : Outputs) : (s.completed o).cov = o.co.isSome := rfl
@[simp] theorem State.completed_st (o : Outputs) : (s.completed o).st = .ok := rfl
@[simp] theorem State.completed_wait (o : Outputs) : (s.completed o).wait = s.wait := rfl
@[simp] theorem State.completed_accepted (o : Outputs) : (s.completed o).accepted = s.accepted := rfl
@[simp] theorem State.completed_events (o : Outputs) : (s.completed o).events = s.events := rfl
@[simp] theorem State.completed_seen (o : Outputs) : (s.completed o).seen = s.seen := rfl

/-! acceptance (R26, R404) -/

@[simp] theorem State.accept_cfg (p : Pins) : (s.accept p).cfg = s.cfg := rfl
@[simp] theorem State.accept_phase (p : Pins) : (s.accept p).phase = .busy := rfl
@[simp] theorem State.accept_cmd (p : Pins) : (s.accept p).cmd = p.cmd := rfl
@[simp] theorem State.accept_a (p : Pins) : (s.accept p).a = portBus s.cfg p.a := rfl
@[simp] theorem State.accept_b (p : Pins) : (s.accept p).b = portBus s.cfg p.b := rfl
@[simp] theorem State.accept_co (p : Pins) : (s.accept p).co = s.co := rfl
@[simp] theorem State.accept_r0v (p : Pins) : (s.accept p).r0v = false := rfl
@[simp] theorem State.accept_r1v (p : Pins) : (s.accept p).r1v = false := rfl
@[simp] theorem State.accept_cov (p : Pins) : (s.accept p).cov = false := rfl
@[simp] theorem State.accept_st (p : Pins) : (s.accept p).st = s.st := rfl
@[simp] theorem State.accept_rw0 (p : Pins) : (s.accept p).rw0 = s.rw0 := rfl
@[simp] theorem State.accept_rw1 (p : Pins) : (s.accept p).rw1 = s.rw1 := rfl
@[simp] theorem State.accept_r0 (p : Pins) : (s.accept p).r0 = s.r0 := rfl
@[simp] theorem State.accept_r1 (p : Pins) : (s.accept p).r1 = s.r1 := rfl
@[simp] theorem State.accept_wait (p : Pins) : (s.accept p).wait = Config.latency s.cfg s.accepted p.cmd (portBus s.cfg p.a) (portBus s.cfg p.b) := rfl
@[simp] theorem State.accept_accepted (p : Pins) : (s.accept p).accepted = s.accepted + 1 := rfl
@[simp] theorem State.accept_events (p : Pins) : (s.accept p).events = s.events := rfl
@[simp] theorem State.accept_seen (p : Pins) : (s.accept p).seen = s.seen := rfl

/-! reset (R39, R400) -/

@[simp] theorem State.resetUnit_cfg : s.resetUnit.cfg = s.cfg := rfl
@[simp] theorem State.resetUnit_phase : s.resetUnit.phase = .idle := rfl
@[simp] theorem State.resetUnit_cmd : s.resetUnit.cmd = 0 := rfl
@[simp] theorem State.resetUnit_a : s.resetUnit.a = List.replicate s.cfg.nbus 0 := rfl
@[simp] theorem State.resetUnit_b : s.resetUnit.b = List.replicate s.cfg.nbus 0 := rfl
@[simp] theorem State.resetUnit_co : s.resetUnit.co = false := rfl
@[simp] theorem State.resetUnit_r0v : s.resetUnit.r0v = false := rfl
@[simp] theorem State.resetUnit_r1v : s.resetUnit.r1v = false := rfl
@[simp] theorem State.resetUnit_cov : s.resetUnit.cov = false := rfl
@[simp] theorem State.resetUnit_st : s.resetUnit.st = .ok := rfl
@[simp] theorem State.resetUnit_rw0 : s.resetUnit.rw0 = 0 := rfl
@[simp] theorem State.resetUnit_rw1 : s.resetUnit.rw1 = 0 := rfl
@[simp] theorem State.resetUnit_r0 : s.resetUnit.r0 = List.replicate s.cfg.nbus 0 := rfl
@[simp] theorem State.resetUnit_r1 : s.resetUnit.r1 = List.replicate s.cfg.nbus 0 := rfl
@[simp] theorem State.resetUnit_wait : s.resetUnit.wait = 0 := rfl
@[simp] theorem State.resetUnit_accepted : s.resetUnit.accepted = s.accepted := rfl
@[simp] theorem State.resetUnit_events : s.resetUnit.events = s.events := rfl
@[simp] theorem State.resetUnit_seen : s.resetUnit.seen = s.seen := rfl

/-! one more cycle (R405) -/

@[simp] theorem State.waited_cfg : s.waited.cfg = s.cfg := rfl
@[simp] theorem State.waited_phase : s.waited.phase = s.phase := rfl
@[simp] theorem State.waited_cmd : s.waited.cmd = s.cmd := rfl
@[simp] theorem State.waited_a : s.waited.a = s.a := rfl
@[simp] theorem State.waited_b : s.waited.b = s.b := rfl
@[simp] theorem State.waited_co : s.waited.co = s.co := rfl
@[simp] theorem State.waited_r0v : s.waited.r0v = s.r0v := rfl
@[simp] theorem State.waited_r1v : s.waited.r1v = s.r1v := rfl
@[simp] theorem State.waited_cov : s.waited.cov = s.cov := rfl
@[simp] theorem State.waited_st : s.waited.st = s.st := rfl
@[simp] theorem State.waited_rw0 : s.waited.rw0 = s.rw0 := rfl
@[simp] theorem State.waited_rw1 : s.waited.rw1 = s.rw1 := rfl
@[simp] theorem State.waited_r0 : s.waited.r0 = s.r0 := rfl
@[simp] theorem State.waited_r1 : s.waited.r1 = s.r1 := rfl
@[simp] theorem State.waited_wait : s.waited.wait = s.wait - 1 := rfl
@[simp] theorem State.waited_accepted : s.waited.accepted = s.accepted := rfl
@[simp] theorem State.waited_events : s.waited.events = s.events := rfl
@[simp] theorem State.waited_seen : s.waited.seen = s.seen := rfl

/-! the host's next event taken -/

@[simp] theorem State.took_cfg (rest : List HostEvent) : (s.took rest).cfg = s.cfg := rfl
@[simp] theorem State.took_phase (rest : List HostEvent) : (s.took rest).phase = s.phase := rfl
@[simp] theorem State.took_cmd (rest : List HostEvent) : (s.took rest).cmd = s.cmd := rfl
@[simp] theorem State.took_a (rest : List HostEvent) : (s.took rest).a = s.a := rfl
@[simp] theorem State.took_b (rest : List HostEvent) : (s.took rest).b = s.b := rfl
@[simp] theorem State.took_co (rest : List HostEvent) : (s.took rest).co = s.co := rfl
@[simp] theorem State.took_r0v (rest : List HostEvent) : (s.took rest).r0v = s.r0v := rfl
@[simp] theorem State.took_r1v (rest : List HostEvent) : (s.took rest).r1v = s.r1v := rfl
@[simp] theorem State.took_cov (rest : List HostEvent) : (s.took rest).cov = s.cov := rfl
@[simp] theorem State.took_st (rest : List HostEvent) : (s.took rest).st = s.st := rfl
@[simp] theorem State.took_rw0 (rest : List HostEvent) : (s.took rest).rw0 = s.rw0 := rfl
@[simp] theorem State.took_rw1 (rest : List HostEvent) : (s.took rest).rw1 = s.rw1 := rfl
@[simp] theorem State.took_r0 (rest : List HostEvent) : (s.took rest).r0 = s.r0 := rfl
@[simp] theorem State.took_r1 (rest : List HostEvent) : (s.took rest).r1 = s.r1 := rfl
@[simp] theorem State.took_wait (rest : List HostEvent) : (s.took rest).wait = s.wait := rfl
@[simp] theorem State.took_accepted (rest : List HostEvent) : (s.took rest).accepted = s.accepted := rfl
@[simp] theorem State.took_events (rest : List HostEvent) : (s.took rest).events = rest := rfl
@[simp] theorem State.took_seen (rest : List HostEvent) : (s.took rest).seen = s.seen := rfl

/-! the error response of Safety.lean -/

@[simp] theorem State.gaveError_cfg (e : ErrorCode) : (s.gaveError e).cfg = s.cfg := rfl
@[simp] theorem State.gaveError_phase (e : ErrorCode) : (s.gaveError e).phase = .done := rfl
@[simp] theorem State.gaveError_cmd (e : ErrorCode) : (s.gaveError e).cmd = s.cmd := rfl
@[simp] theorem State.gaveError_a (e : ErrorCode) : (s.gaveError e).a = s.a := rfl
@[simp] theorem State.gaveError_b (e : ErrorCode) : (s.gaveError e).b = s.b := rfl
@[simp] theorem State.gaveError_co (e : ErrorCode) : (s.gaveError e).co = s.co := rfl
@[simp] theorem State.gaveError_r0v (e : ErrorCode) : (s.gaveError e).r0v = false := rfl
@[simp] theorem State.gaveError_r1v (e : ErrorCode) : (s.gaveError e).r1v = false := rfl
@[simp] theorem State.gaveError_cov (e : ErrorCode) : (s.gaveError e).cov = false := rfl
@[simp] theorem State.gaveError_st (e : ErrorCode) : (s.gaveError e).st = .error e := rfl
@[simp] theorem State.gaveError_rw0 (e : ErrorCode) : (s.gaveError e).rw0 = s.rw0 := rfl
@[simp] theorem State.gaveError_rw1 (e : ErrorCode) : (s.gaveError e).rw1 = s.rw1 := rfl
@[simp] theorem State.gaveError_r0 (e : ErrorCode) : (s.gaveError e).r0 = s.r0 := rfl
@[simp] theorem State.gaveError_r1 (e : ErrorCode) : (s.gaveError e).r1 = s.r1 := rfl
@[simp] theorem State.gaveError_wait (e : ErrorCode) : (s.gaveError e).wait = s.wait := rfl
@[simp] theorem State.gaveError_accepted (e : ErrorCode) : (s.gaveError e).accepted = s.accepted := rfl
@[simp] theorem State.gaveError_events (e : ErrorCode) : (s.gaveError e).events = s.events := rfl
@[simp] theorem State.gaveError_seen (e : ErrorCode) : (s.gaveError e).seen = s.seen := rfl

/-! R0 alone -/

@[simp] theorem State.gaveR0_cfg (v w : Nat) : (s.gaveR0 v w).cfg = s.cfg := rfl
@[simp] theorem State.gaveR0_phase (v w : Nat) : (s.gaveR0 v w).phase = .done := rfl
@[simp] theorem State.gaveR0_cmd (v w : Nat) : (s.gaveR0 v w).cmd = s.cmd := rfl
@[simp] theorem State.gaveR0_a (v w : Nat) : (s.gaveR0 v w).a = s.a := rfl
@[simp] theorem State.gaveR0_b (v w : Nat) : (s.gaveR0 v w).b = s.b := rfl
@[simp] theorem State.gaveR0_co (v w : Nat) : (s.gaveR0 v w).co = s.co := rfl
@[simp] theorem State.gaveR0_r0v (v w : Nat) : (s.gaveR0 v w).r0v = true := rfl
@[simp] theorem State.gaveR0_r1v (v w : Nat) : (s.gaveR0 v w).r1v = false := rfl
@[simp] theorem State.gaveR0_cov (v w : Nat) : (s.gaveR0 v w).cov = false := rfl
@[simp] theorem State.gaveR0_st (v w : Nat) : (s.gaveR0 v w).st = .ok := rfl
@[simp] theorem State.gaveR0_rw0 (v w : Nat) : (s.gaveR0 v w).rw0 = BitVec.ofNat 32 w := rfl
@[simp] theorem State.gaveR0_rw1 (v w : Nat) : (s.gaveR0 v w).rw1 = s.rw1 := rfl
@[simp] theorem State.gaveR0_r0 (v w : Nat) : (s.gaveR0 v w).r0 = busOf s.cfg v w := rfl
@[simp] theorem State.gaveR0_r1 (v w : Nat) : (s.gaveR0 v w).r1 = s.r1 := rfl
@[simp] theorem State.gaveR0_wait (v w : Nat) : (s.gaveR0 v w).wait = s.wait := rfl
@[simp] theorem State.gaveR0_accepted (v w : Nat) : (s.gaveR0 v w).accepted = s.accepted := rfl
@[simp] theorem State.gaveR0_events (v w : Nat) : (s.gaveR0 v w).events = s.events := rfl
@[simp] theorem State.gaveR0_seen (v w : Nat) : (s.gaveR0 v w).seen = s.seen := rfl

/-! R0 and R1 -/

@[simp] theorem State.gaveR0R1_cfg (v w v' w' : Nat) : (s.gaveR0R1 v w v' w').cfg = s.cfg := rfl
@[simp] theorem State.gaveR0R1_phase (v w v' w' : Nat) : (s.gaveR0R1 v w v' w').phase = .done := rfl
@[simp] theorem State.gaveR0R1_cmd (v w v' w' : Nat) : (s.gaveR0R1 v w v' w').cmd = s.cmd := rfl
@[simp] theorem State.gaveR0R1_a (v w v' w' : Nat) : (s.gaveR0R1 v w v' w').a = s.a := rfl
@[simp] theorem State.gaveR0R1_b (v w v' w' : Nat) : (s.gaveR0R1 v w v' w').b = s.b := rfl
@[simp] theorem State.gaveR0R1_co (v w v' w' : Nat) : (s.gaveR0R1 v w v' w').co = s.co := rfl
@[simp] theorem State.gaveR0R1_r0v (v w v' w' : Nat) : (s.gaveR0R1 v w v' w').r0v = true := rfl
@[simp] theorem State.gaveR0R1_r1v (v w v' w' : Nat) : (s.gaveR0R1 v w v' w').r1v = true := rfl
@[simp] theorem State.gaveR0R1_cov (v w v' w' : Nat) : (s.gaveR0R1 v w v' w').cov = false := rfl
@[simp] theorem State.gaveR0R1_st (v w v' w' : Nat) : (s.gaveR0R1 v w v' w').st = .ok := rfl
@[simp] theorem State.gaveR0R1_rw0 (v w v' w' : Nat) : (s.gaveR0R1 v w v' w').rw0 = BitVec.ofNat 32 w := rfl
@[simp] theorem State.gaveR0R1_rw1 (v w v' w' : Nat) : (s.gaveR0R1 v w v' w').rw1 = BitVec.ofNat 32 w' := rfl
@[simp] theorem State.gaveR0R1_r0 (v w v' w' : Nat) : (s.gaveR0R1 v w v' w').r0 = busOf s.cfg v w := rfl
@[simp] theorem State.gaveR0R1_r1 (v w v' w' : Nat) : (s.gaveR0R1 v w v' w').r1 = busOf s.cfg v' w' := rfl
@[simp] theorem State.gaveR0R1_wait (v w v' w' : Nat) : (s.gaveR0R1 v w v' w').wait = s.wait := rfl
@[simp] theorem State.gaveR0R1_accepted (v w v' w' : Nat) : (s.gaveR0R1 v w v' w').accepted = s.accepted := rfl
@[simp] theorem State.gaveR0R1_events (v w v' w' : Nat) : (s.gaveR0R1 v w v' w').events = s.events := rfl
@[simp] theorem State.gaveR0R1_seen (v w v' w' : Nat) : (s.gaveR0R1 v w v' w').seen = s.seen := rfl

/-! CO alone -/

@[simp] theorem State.gaveBit_cfg (c : Bool) : (s.gaveBit c).cfg = s.cfg := rfl
@[simp] theorem State.gaveBit_phase (c : Bool) : (s.gaveBit c).phase = .done := rfl
@[simp] theorem State.gaveBit_cmd (c : Bool) : (s.gaveBit c).cmd = s.cmd := rfl
@[simp] theorem State.gaveBit_a (c : Bool) : (s.gaveBit c).a = s.a := rfl
@[simp] theorem State.gaveBit_b (c : Bool) : (s.gaveBit c).b = s.b := rfl
@[simp] theorem State.gaveBit_co (c : Bool) : (s.gaveBit c).co = c := rfl
@[simp] theorem State.gaveBit_r0v (c : Bool) : (s.gaveBit c).r0v = false := rfl
@[simp] theorem State.gaveBit_r1v (c : Bool) : (s.gaveBit c).r1v = false := rfl
@[simp] theorem State.gaveBit_cov (c : Bool) : (s.gaveBit c).cov = true := rfl
@[simp] theorem State.gaveBit_st (c : Bool) : (s.gaveBit c).st = .ok := rfl
@[simp] theorem State.gaveBit_rw0 (c : Bool) : (s.gaveBit c).rw0 = s.rw0 := rfl
@[simp] theorem State.gaveBit_rw1 (c : Bool) : (s.gaveBit c).rw1 = s.rw1 := rfl
@[simp] theorem State.gaveBit_r0 (c : Bool) : (s.gaveBit c).r0 = s.r0 := rfl
@[simp] theorem State.gaveBit_r1 (c : Bool) : (s.gaveBit c).r1 = s.r1 := rfl
@[simp] theorem State.gaveBit_wait (c : Bool) : (s.gaveBit c).wait = s.wait := rfl
@[simp] theorem State.gaveBit_accepted (c : Bool) : (s.gaveBit c).accepted = s.accepted := rfl
@[simp] theorem State.gaveBit_events (c : Bool) : (s.gaveBit c).events = s.events := rfl
@[simp] theorem State.gaveBit_seen (c : Bool) : (s.gaveBit c).seen = s.seen := rfl

/-! R0 and CO -/

@[simp] theorem State.gaveR0Bit_cfg (v w : Nat) (c : Bool) : (s.gaveR0Bit v w c).cfg = s.cfg := rfl
@[simp] theorem State.gaveR0Bit_phase (v w : Nat) (c : Bool) : (s.gaveR0Bit v w c).phase = .done := rfl
@[simp] theorem State.gaveR0Bit_cmd (v w : Nat) (c : Bool) : (s.gaveR0Bit v w c).cmd = s.cmd := rfl
@[simp] theorem State.gaveR0Bit_a (v w : Nat) (c : Bool) : (s.gaveR0Bit v w c).a = s.a := rfl
@[simp] theorem State.gaveR0Bit_b (v w : Nat) (c : Bool) : (s.gaveR0Bit v w c).b = s.b := rfl
@[simp] theorem State.gaveR0Bit_co (v w : Nat) (c : Bool) : (s.gaveR0Bit v w c).co = c := rfl
@[simp] theorem State.gaveR0Bit_r0v (v w : Nat) (c : Bool) : (s.gaveR0Bit v w c).r0v = true := rfl
@[simp] theorem State.gaveR0Bit_r1v (v w : Nat) (c : Bool) : (s.gaveR0Bit v w c).r1v = false := rfl
@[simp] theorem State.gaveR0Bit_cov (v w : Nat) (c : Bool) : (s.gaveR0Bit v w c).cov = true := rfl
@[simp] theorem State.gaveR0Bit_st (v w : Nat) (c : Bool) : (s.gaveR0Bit v w c).st = .ok := rfl
@[simp] theorem State.gaveR0Bit_rw0 (v w : Nat) (c : Bool) : (s.gaveR0Bit v w c).rw0 = BitVec.ofNat 32 w := rfl
@[simp] theorem State.gaveR0Bit_rw1 (v w : Nat) (c : Bool) : (s.gaveR0Bit v w c).rw1 = s.rw1 := rfl
@[simp] theorem State.gaveR0Bit_r0 (v w : Nat) (c : Bool) : (s.gaveR0Bit v w c).r0 = busOf s.cfg v w := rfl
@[simp] theorem State.gaveR0Bit_r1 (v w : Nat) (c : Bool) : (s.gaveR0Bit v w c).r1 = s.r1 := rfl
@[simp] theorem State.gaveR0Bit_wait (v w : Nat) (c : Bool) : (s.gaveR0Bit v w c).wait = s.wait := rfl
@[simp] theorem State.gaveR0Bit_accepted (v w : Nat) (c : Bool) : (s.gaveR0Bit v w c).accepted = s.accepted := rfl
@[simp] theorem State.gaveR0Bit_events (v w : Nat) (c : Bool) : (s.gaveR0Bit v w c).events = s.events := rfl
@[simp] theorem State.gaveR0Bit_seen (v w : Nat) (c : Bool) : (s.gaveR0Bit v w c).seen = s.seen := rfl

/-! the four ways a command produces outputs, as the next states claims name -/

@[simp] theorem State.respond_raise (e : ErrorCode) : s.respond (.raise e) = s.gaveError e := rfl
@[simp] theorem State.respond_r0 (v w : Nat) : s.respond (.r0 v w) = s.gaveR0 v w := rfl
@[simp] theorem State.respond_r0r1 (v w v' w' : Nat) :
    s.respond (.r0r1 v w v' w') = s.gaveR0R1 v w v' w' := rfl
@[simp] theorem State.respond_bit (c : Bool) : s.respond (.bit c) = s.gaveBit c := rfl
@[simp] theorem State.respond_r0bit (v w : Nat) (c : Bool) :
    s.respond (.r0bit v w c) = s.gaveR0Bit v w c := rfl

end Sys2Proof.Machine
end

