-- ==== Sys2Proof/Laws/Ops.lean ====
section
/-! SUPPORT. What each shared operation can do: the guards of 30_encoding.md R79, a command's
completion, a clock edge, a host event and a step. -/

namespace Sys2Proof.Machine

variable {s : State} {wa wb : Field16}

/-! ## The guards -/

theorem widthOk_iff {c : Config} {w : Field16} :
    widthOk c w = true ↔ 1 ≤ w.toNat ∧ w.toNat ≤ c.wmax := by simp [widthOk]

theorem usingWidth_ok (h : widthOk s.cfg wa = true) (k : Nat → Response) :
    usingWidth s wa k = k wa.toNat := by simp [usingWidth, h]

theorem usingWidth_bad (h : widthOk s.cfg wa = false) (k : Nat → Response) :
    usingWidth s wa k = .raise .badCommand := by simp [usingWidth, h]

theorem withA_ok (h : widthOk s.cfg wa = true) (k : Nat → Nat → Response) :
    withA s wa k = k (s.opA wa) wa.toNat := usingWidth_ok h _

theorem usingWidths_ok (ha : widthOk s.cfg wa = true) (hb : widthOk s.cfg wb = true)
    (k : Nat → Nat → Response) : usingWidths s wa wb k = k wa.toNat wb.toNat := by
  simp [usingWidths, ha, hb]

theorem withAB_ok (ha : widthOk s.cfg wa = true) (hb : widthOk s.cfg wb = true)
    (k : Nat → Nat → Nat → Nat → Response) :
    withAB s wa wb k = k (s.opA wa) wa.toNat (s.opB wb) wb.toNat := usingWidths_ok ha hb _

theorem withEqualAB_same (ha : widthOk s.cfg wa = true) (k : Nat → Nat → Nat → Response) :
    withEqualAB s wa wa k = k (s.opA wa) (s.opB wa) wa.toNat := by
  rw [withEqualAB, usingWidths_ok ha ha, if_neg (by simp)]

theorem withEqualAB_mismatch (ha : widthOk s.cfg wa = true) (hb : widthOk s.cfg wb = true)
    (h : wb ≠ wa) (k : Nat → Nat → Nat → Response) :
    withEqualAB s wa wb k = .raise .widthMismatch := by
  rw [withEqualAB, usingWidths_ok ha hb, if_pos fun e => h (BitVec.eq_of_toNat_eq e)]

/-- Every way a guarded command can end: a check fails, or the guard's body runs. -/
theorem usingWidth_cases (s : State) (wa : Field16) (k : Nat → Response) :
    usingWidth s wa k = .raise .badCommand ∨ widthOk s.cfg wa = true ∧ usingWidth s wa k = k wa.toNat := by
  cases h : widthOk s.cfg wa
  · exact .inl (usingWidth_bad h k)
  · exact .inr ⟨rfl, usingWidth_ok h k⟩

theorem usingWidths_cases (s : State) (wa wb : Field16) (k : Nat → Nat → Response) :
    usingWidths s wa wb k = .raise .badCommand ∨
      (widthOk s.cfg wa = true ∧ widthOk s.cfg wb = true) ∧
        usingWidths s wa wb k = k wa.toNat wb.toNat := by
  cases ha : widthOk s.cfg wa <;> cases hb : widthOk s.cfg wb <;> simp [usingWidths, ha, hb]

/-! ## Completion -/

/-- Every command completes (R405): its next state is the state after its response. -/
theorem exec_responds (i : Instr) (s : State) : ∃ r, exec i s = .next (s.respond r) := by
  cases i <;> exact ⟨_, rfl⟩

theorem runCaptured_responds (s : State) : ∃ r, runCaptured s = .next (s.respond r) := by
  rw [runCaptured]
  split
  · exact exec_responds _ _
  · exact ⟨_, rfl⟩

/-! ## Edges, events and steps -/

/-- Everything a rising edge can do. -/
theorem clockEdge_cases (p : Pins) (s : State) :
    p.rst = true ∧ clockEdge p s = .next s.resetUnit ∨
    p.rst = false ∧ p.cmdValid = true ∧ s.phase ≠ .busy ∧ clockEdge p s = .next (s.accept p) ∨
    p.rst = false ∧ s.phase = .busy ∧ s.wait = 0 ∧ clockEdge p s = runCaptured s ∨
    p.rst = false ∧ s.phase = .busy ∧ s.wait ≠ 0 ∧ clockEdge p s = .next s.waited ∨
    p.rst = false ∧ p.cmdValid = false ∧ s.phase ≠ .busy ∧ clockEdge p s = .next s := by
  cases hr : p.rst <;> cases hv : p.cmdValid <;> cases hp : s.phase <;>
    by_cases hw : s.wait = 0 <;> simp [clockEdge, cmdReady, hr, hv, hp, hw]

/-- A read gives its value to the host and touches nothing else, or faults. -/
theorem hostRead_cases (s : State) (o : Output) :
    (∃ v, readOutput s o = some v ∧ hostRead s o = .next { s with seen := (o, v) :: s.seen }) ∨
      readOutput s o = none ∧ hostRead s o = .fault (.noValue o) := by
  cases h : readOutput s o with
  | none => exact .inr ⟨rfl, by simp [hostRead, h]⟩
  | some v => exact .inl ⟨v, rfl, by simp [hostRead, h]⟩

theorem step_nil (h : s.events = []) : step s = clockEdge Pins.idle s := by
  simp [step, h, hostEvent]

theorem step_clk {p : Pins} {rest : List HostEvent} (h : s.events = .clk p :: rest) :
    step s = clockEdge p (s.took rest) := by simp [step, h, hostEvent]

theorem step_read {o : Output} {rest : List HostEvent} (h : s.events = .read o :: rest) :
    step s = hostRead (s.took rest) o := by simp [step, h, hostEvent]

/-- A run goes on from the next state. -/
theorem run_next {t : State} (h : step s = .next t) (k : Nat) :
    Host.Core.run core (k + 1) s = Host.Core.run core k t := by
  have h1 : core.step s = .next t := h
  have h2 := Host.Core.run.eq_2 core s k
  rw [h1] at h2
  exact h2

end Sys2Proof.Machine
end

