-- ==== Sys2Proof/Laws/Errors.lean ====
section
/-! SUPPORT. When a command raises, and which error: the order of checks of 30_encoding.md R79 and
60_exceptions.md R301, said once for all 42 commands. -/

namespace Sys2Proof.Machine

/-- The errors that depend on operands or on an index (R302, R304, R305), checked last. -/
def operandError (s : State) : Instr → Option ErrorCode
  | .word wa i => if wc s.cfg wa.toNat ≤ i.toNat then some .indexError else none
  | .setword wa i => if wc s.cfg wa.toNat ≤ i.toNat then some .indexError else none
  | .wordmask wa i => if wc s.cfg wa.toNat ≤ i.toNat then some .indexError else none
  | .bit wa i => if wa.toNat ≤ i.toNat then some .indexError else none
  | .setbit wa i _ => if wa.toNat ≤ i.toNat then some .indexError else none
  | .rdiv _ _ wb => if s.opB wb = 0 then some .divisionByZero else none
  | .div _ _ wb => if s.opB wb = 0 then some .divisionByZero else none
  | .rem _ _ wb => if s.opB wb = 0 then some .divisionByZero else none
  | .frombits _ n => if (charsOn s.cfg s.a n.toNat).all isBitChar then none else some .parseError
  | _ => none

/-- The first error of a command: BadCommand, then WidthMismatch, then the operands' errors. -/
def errorOf (s : State) (i : Instr) : Option ErrorCode :=
  if i.wellFormed s.cfg = false then some .badCommand
  else if i.widthsAgree = false then some .widthMismatch
  else operandError s i

theorem widthFieldLegal_eq (c : Config) (w : Field16) : widthFieldLegal c w = widthOk c w := by
  simp [widthFieldLegal, widthOk]

/-- A command raises exactly its first error. -/
theorem exec_error (i : Instr) (s : State) :
    ∃ r, exec i s = .next (s.respond r) ∧ (∀ e, errorOf s i = some e → r = .raise e) ∧
      (errorOf s i = none → ∃ o, r = .ok o) := by
  cases i <;> refine ⟨_, rfl, ?_⟩ <;>
    simp only [withA, withAB, withEqualAB, usingWidth, usingWidths, errorOf, Instr.wellFormed,
      Instr.wa, Instr.wb?, Instr.immLegal, Instr.widthsAgree, Instr.needsEqualWidths,
      widthFieldLegal_eq, Option.all, operandError, Response.r0, Response.bit, Response.r0r1,
      Response.r0bit] <;>
    (first | (split_ifs <;> simp_all [BitVec.toNat_inj]; done) | skip)
  · rename_i wa p
    generalize widthOk s.cfg _ = ok
    cases ok <;> by_cases h1 : BitVec.toNat p = 0 <;> simp [h1]
    intro h2
    rw [if_neg (by omega)]
    exact ⟨_, rfl⟩

/-- The status a command ends with. -/
theorem exec_status (i : Instr) (s : State) :
    ∃ r, exec i s = .next (s.respond r) ∧
      ∀ e, (s.respond r).st = .error e ↔ errorOf s i = some e := by
  obtain ⟨r, h, h1, h2⟩ := exec_error i s
  refine ⟨r, h, fun e => ?_⟩
  cases he : errorOf s i with
  | none =>
    obtain ⟨o, rfl⟩ := h2 he
    simp [State.respond]
  | some e' =>
    rw [h1 e' he]
    simp

end Sys2Proof.Machine
end

