-- ==== Sys2Proof/Laws/PerInstr.lean ====
section
/-! SUPPORT. The family RoundTrip (LAWS.json): a command is decoded back from its word, one lemma a
constructor. -/

namespace Sys2Proof.Laws.RoundTrip

/-- Decoding the encoding of a command gives the command. -/
def Statement (i : Instr) : Prop := decode (encode i) = .command i

/-- It is enough to look at the fields. -/
theorem of_fields {i : Instr} (h : decodeFields (fieldsOf i) = .command i) : Statement i := by
  rw [Statement, encode, decode_word, h]

theorem word (wa : Field16) (i : Field16) : Statement (.word wa i) := of_fields rfl
theorem setword (wa : Field16) (i : Field16) : Statement (.setword wa i) := of_fields rfl
theorem bit (wa : Field16) (i : Field16) : Statement (.bit wa i) := of_fields rfl
theorem setbit (wa : Field16) (i : Field16) (v : Bool) : Statement (.setbit wa i v) := of_fields rfl
theorem concat (wa : Field16) (wb : Field16) : Statement (.concat wa wb) := of_fields rfl
theorem split (wa : Field16) (p : Field16) : Statement (.split wa p) := of_fields rfl
theorem width (wa : Field16) : Statement (.width wa) := of_fields rfl
theorem wordcount (wa : Field16) : Statement (.wordcount wa) := of_fields rfl
theorem wordmask (wa : Field16) (i : Field16) : Statement (.wordmask wa i) := of_fields rfl
theorem fromnat (s : Tag) (wa : Field16) : Statement (.fromnat s wa) := of_fields (by cases s <;> rfl)
theorem fromlimbs (wa : Field16) (n : Field16) : Statement (.fromlimbs wa n) := of_fields rfl
theorem frombits (wa : Field16) (n : Field16) : Statement (.frombits wa n) := of_fields rfl
theorem tobits (wa : Field16) : Statement (.tobits wa) := of_fields rfl
theorem shl (wa : Field16) (k : Field16) : Statement (.shl wa k) := of_fields rfl
theorem shr (wa : Field16) (k : Field16) : Statement (.shr wa k) := of_fields rfl
theorem sar (wa : Field16) (k : Field16) : Statement (.sar wa k) := of_fields rfl
theorem rol (wa : Field16) (k : Field16) : Statement (.rol wa k) := of_fields rfl
theorem ror (wa : Field16) (k : Field16) : Statement (.ror wa k) := of_fields rfl
theorem rcl (wa : Field16) (k : Field16) (ci : Bool) : Statement (.rcl wa k ci) := of_fields rfl
theorem rcr (wa : Field16) (k : Field16) (ci : Bool) : Statement (.rcr wa k ci) := of_fields rfl
theorem add (wa : Field16) (wb : Field16) : Statement (.add wa wb) := of_fields rfl
theorem expadd (s : Tag) (wa : Field16) (wb : Field16) (ci : Bool) : Statement (.expadd s wa wb ci) := of_fields (by cases s <;> rfl)
theorem sub (wa : Field16) (wb : Field16) : Statement (.sub wa wb) := of_fields rfl
theorem expsub (s : Tag) (wa : Field16) (wb : Field16) : Statement (.expsub s wa wb) := of_fields (by cases s <;> rfl)
theorem smul (wa : Field16) (wb : Field16) : Statement (.smul wa wb) := of_fields rfl
theorem bmul (wa : Field16) (wb : Field16) : Statement (.bmul wa wb) := of_fields rfl
theorem kmul (wa : Field16) (wb : Field16) : Statement (.kmul wa wb) := of_fields rfl
theorem mul (s : Tag) (wa : Field16) (wb : Field16) : Statement (.mul s wa wb) := of_fields (by cases s <;> rfl)
theorem expmul (s : Tag) (wa : Field16) (wb : Field16) : Statement (.expmul s wa wb) := of_fields (by cases s <;> rfl)
theorem rdiv (s : Tag) (wa : Field16) (wb : Field16) : Statement (.rdiv s wa wb) := of_fields (by cases s <;> rfl)
theorem div (s : Tag) (wa : Field16) (wb : Field16) : Statement (.div s wa wb) := of_fields (by cases s <;> rfl)
theorem rem (s : Tag) (wa : Field16) (wb : Field16) : Statement (.rem s wa wb) := of_fields (by cases s <;> rfl)
theorem cast (s : Tag) (wa : Field16) (wb : Field16) : Statement (.cast s wa wb) := of_fields (by cases s <;> rfl)
theorem and (wa : Field16) (wb : Field16) : Statement (.and wa wb) := of_fields rfl
theorem or (wa : Field16) (wb : Field16) : Statement (.or wa wb) := of_fields rfl
theorem not (wa : Field16) : Statement (.not wa) := of_fields rfl
theorem eq (wa : Field16) (wb : Field16) : Statement (.eq wa wb) := of_fields rfl
theorem ne (wa : Field16) (wb : Field16) : Statement (.ne wa wb) := of_fields rfl
theorem lt (s : Tag) (wa : Field16) (wb : Field16) : Statement (.lt s wa wb) := of_fields (by cases s <;> rfl)
theorem le (s : Tag) (wa : Field16) (wb : Field16) : Statement (.le s wa wb) := of_fields (by cases s <;> rfl)
theorem gt (s : Tag) (wa : Field16) (wb : Field16) : Statement (.gt s wa wb) := of_fields (by cases s <;> rfl)
theorem ge (s : Tag) (wa : Field16) (wb : Field16) : Statement (.ge s wa wb) := of_fields (by cases s <;> rfl)

end Sys2Proof.Laws.RoundTrip
end

