-- ==== Sys2Proof/Laws/Results.lean ====
section
/-! SUPPORT. The values the commands compute: what each value function gives, and that every value a
command puts on R0 or R1 lies in its width. -/

namespace Sys2Proof.Machine

/-! ## Shifts and rotations (42_shift.md) -/

theorem shlValue_lt (w a k : Nat) : shlValue w a k < 2 ^ w := by
  rw [shlValue]
  split
  · positivity
  · exact trunc_lt _ _

theorem shrValue_lt {w a : Nat} (ha : a < 2 ^ w) (k : Nat) : shrValue w a k < 2 ^ w := by
  rw [shrValue]
  split
  · positivity
  · exact (Nat.div_le_self _ _).trans_lt ha

theorem sarValue_lt (w a k : Nat) : sarValue w a k < 2 ^ w := by
  have : 0 < 2 ^ w := by positivity
  rw [sarValue]
  split_ifs
  · omega
  · omega
  · exact truncInt_lt _ _

/-- ROL below the width is a rotation of the W bits (R144). -/
theorem rolValue_eq {w a k : Nat} (ha : a < 2 ^ w) (hk : k < w) : rolValue w a k = rotate w a k := by
  rw [rolValue]
  split
  · rename_i h
    rw [h, rotate_zero ha]
  · rw [rotate]

/-- ROR by k is a rotation left by W - k (R145). -/
theorem rorValue_eq {w a k : Nat} (hk : k < w) : rorValue w a k = rotate w a (w - k) := by
  rw [rorValue]
  split
  · rename_i h
    rw [h, Nat.sub_zero, rotate_full]
  · rw [rotate, Nat.add_comm, show w - (w - k) = k by omega]

theorem rolValue_lt {w a : Nat} (ha : a < 2 ^ w) (k : Nat) : rolValue w a k < 2 ^ w := by
  by_cases hk : k < w
  · rw [rolValue_eq ha hk]
    exact rotate_lt ha hk.le
  · rw [rolValue]
    split
    · exact ha
    · positivity

theorem rorValue_lt {w a : Nat} (ha : a < 2 ^ w) (k : Nat) : rorValue w a k < 2 ^ w := by
  by_cases hk : k < w
  · rw [rorValue_eq hk]
    exact rotate_lt ha (by omega)
  · rw [rorValue]
    split
    · exact ha
    · positivity

theorem ring_lt {w a : Nat} (ha : a < 2 ^ w) (c : Bool) : ring w a c < 2 ^ (w + 1) := by
  rw [ring, pow_succ]
  cases c <;> simp only [Bool.toNat_false, Bool.toNat_true] <;> omega

/-- A ring is its value and its carry (R146). -/
theorem ringParts_ring {w a : Nat} (ha : a < 2 ^ w) (c : Bool) : ringParts w (ring w a c) = (a, c) := by
  rw [ringParts, ring, Nat.mul_comm, Nat.mul_add_mod, Nat.mod_eq_of_lt ha,
    Nat.testBit_two_pow_mul_add _ ha]
  cases c <;> simp

theorem ring_ringParts {w t : Nat} (ht : t < 2 ^ (w + 1)) :
    ring w (ringParts w t).1 (ringParts w t).2 = t := by
  have h1 : t / 2 ^ w < 2 := Nat.div_lt_of_lt_mul (by rwa [← pow_succ])
  have hd := Nat.div_add_mod t (2 ^ w)
  simp only [ringParts, ring, testBit_eq_mod]
  generalize t / 2 ^ w = q at *
  interval_cases q <;> simpa using hd

theorem ringParts_lt (w t : Nat) : (ringParts w t).1 < 2 ^ w := Nat.mod_lt _ (by positivity)

/-- RCL below the width is a rotation of the ring of W + 1 bits (R146). -/
theorem rclValue_eq {w a k : Nat} (ha : a < 2 ^ w) (hk : k < w) (c : Bool) :
    rclValue w a k c = ringParts w (rotate (w + 1) (ring w a c) k) := by
  rw [rclValue]
  split
  · rename_i h
    rw [h, rotate_zero (ring_lt ha c), ringParts_ring ha]
  · rw [rotate]

/-- RCR by k is a rotation left of the ring by W + 1 - k (R147). -/
theorem rcrValue_eq {w a k : Nat} (ha : a < 2 ^ w) (hk : k < w) (c : Bool) :
    rcrValue w a k c = ringParts w (rotate (w + 1) (ring w a c) (w + 1 - k)) := by
  rw [rcrValue]
  split
  · rename_i h
    rw [h, Nat.sub_zero, rotate_full, ringParts_ring ha]
  · rw [rotate, Nat.add_comm, show w + 1 - (w + 1 - k) = k by omega]

theorem rclValue_lt {w a : Nat} (ha : a < 2 ^ w) (k : Nat) (c : Bool) :
    (rclValue w a k c).1 < 2 ^ w := by
  rw [rclValue]
  split_ifs
  · exact ha
  · exact ringParts_lt _ _
  · positivity

theorem rcrValue_lt {w a : Nat} (ha : a < 2 ^ w) (k : Nat) (c : Bool) :
    (rcrValue w a k c).1 < 2 ^ w := by
  rw [rcrValue]
  split_ifs
  · exact ha
  · exact ringParts_lt _ _
  · positivity

/-! ## LimbStorage (41_limb_storage.md) -/

theorem replaceBits_lt {a lo n v w : Nat} (ha : a < 2 ^ w) (hv : v < 2 ^ n)
    (h : ∀ k, w ≤ lo + k → v.testBit k = false) : replaceBits a lo n v < 2 ^ w := by
  refine Nat.lt_pow_two_of_testBit _ fun j hj => ?_
  rw [testBit_replaceBits hv]
  split
  · exact h _ (by omega)
  · exact testBit_of_lt ha hj

/-- SETWORD stays in its width (R103). -/
theorem setword_lt {c : Config} {w a i x : Nat} (hw : 1 ≤ w) (ha : a < 2 ^ w) (hi : i < wc c w) :
    replaceBits a (i * c.L) c.L (x &&& wmask c w i) < 2 ^ w := by
  refine replaceBits_lt ha (Nat.and_lt_two_pow _ (wmask_lt c w i)) fun k hk => ?_
  rw [Nat.testBit_and, testBit_wmask hw hi, decide_eq_false (by omega), Bool.and_false]

/-- SETBIT stays in its width (R105). -/
theorem setbit_lt {w a i : Nat} (ha : a < 2 ^ w) (hi : i < w) (v : Bool) :
    replaceBits a i 1 v.toNat < 2 ^ w := by
  refine replaceBits_lt ha (by cases v <;> decide) fun k hk => ?_
  cases v
  · simp
  · simp only [Bool.toNat_true, Nat.testBit_one_eq_true_iff_self_eq_zero, ← Bool.not_eq_true]
    omega

theorem concat_lt {w v a b : Nat} (ha : a < 2 ^ w) (hb : b < 2 ^ v) : a + b * 2 ^ w < 2 ^ (w + v) := by
  rw [pow_add]
  calc a + b * 2 ^ w < 2 ^ w + b * 2 ^ w := by omega
    _ = 2 ^ w * (b + 1) := by ring
    _ ≤ 2 ^ w * 2 ^ v := Nat.mul_le_mul_left _ hb

theorem bitChars_lt (a w : Nat) : ∀ l ∈ bitChars a w, l < 2 ^ 8 := by
  intro l hl
  obtain ⟨j, -, rfl⟩ := List.mem_map.mp hl
  have := Bool.toNat_le (a.testBit (w - 1 - j))
  simp only [bitAt]
  omega

/-- The text of TOBITS is WA bytes long (R114). -/
theorem tobits_lt (a w : Nat) : busNat 8 (bitChars a w) < 2 ^ (8 * w) := by
  have h := busNat_lt (bitChars_lt a w)
  rwa [bitChars, List.length_map, List.length_range, Nat.mul_comm] at h

/-- Character j of the text (R114). -/
theorem bitsAt_tobits {a w j : Nat} (hj : j < w) :
    bitsAt (busNat 8 (bitChars a w)) (8 * j) 8 = 0x30 + bitAt a (w - 1 - j) := by
  rw [Nat.mul_comm, ← limbAt_eq_bitsAt (bitChars_lt a w)]
  simp [limbAt, bitChars, hj]

/-- The number n characters write, as a sum (R113). -/
theorem parseBits_eq_sum (f : Nat → Nat) (n : Nat) :
    parseBits ((List.range n).map f) = ∑ j ∈ Finset.range n, (f j - 0x30) * 2 ^ (n - 1 - j) := by
  induction n with
  | zero => rfl
  | succ n ih =>
    rw [List.range_succ, List.map_append, parseBits, List.foldl_append, Finset.sum_range_succ]
    rw [parseBits] at ih
    simp only [ih, List.map_cons, List.map_nil, List.foldl_cons, List.foldl_nil,
      Nat.add_sub_cancel, Nat.sub_self, pow_zero, Nat.mul_one, Finset.mul_sum]
    congr 1
    refine Finset.sum_congr rfl fun j hj => ?_
    have := Finset.mem_range.mp hj
    rw [show n - j = n - 1 - j + 1 by omega, pow_succ]
    ring

/-- FROMLIMBS reads its limbs as a sum (R112). -/
theorem busNat_take (L : Nat) (x : Bus) (n : Nat) :
    busNat L (x.take n) = ∑ j ∈ Finset.range n, limbAt x j * 2 ^ (j * L) := by
  induction n with
  | zero => rfl
  | succ n ih =>
    rw [Finset.sum_range_succ, ← ih, List.take_add_one, busNat_append]
    rcases Nat.lt_or_ge n x.length with h | h
    · simp [limbAt, h, busNat, Nat.min_eq_left h.le, Nat.mul_comm]
    · simp [limbAt, h, busNat]

/-! ## Arithmetic (43_addsub.md, 44_mul.md, 46_widthcast.md, 47_bitwise_compare.md) -/

theorem expaddValue_eq {t : Tag} {w v a b : Nat} (ha : a < 2 ^ w) (hb : b < 2 ^ v) (c : Bool) :
    expaddValue t w v a b c
      = truncInt (max w v + 1) (valueOf t w a + valueOf t v b + (c.toNat : Int)) := by
  have hx : ∀ {u x : Nat}, x < 2 ^ u → u ≤ max w v + 1 →
      ((ext t (max w v + 1) u x : Nat) : Int) % ((2 ^ (max w v + 1) : Nat) : Int)
        = valueOf t u x % ((2 ^ (max w v + 1) : Nat) : Int) := by
    intro u x hx hu
    cases t
    · rfl
    · rw [ext, truncInt_cast, Int.emod_emod, valueOf]
  rw [expaddValue, ← truncInt_natCast, truncInt_congr]
  push_cast
  have h1 := hx ha (by omega)
  have h2 := hx hb (by omega)
  push_cast at h1 h2
  exact Int.ModEq.add_right _ (Int.ModEq.add h1 h2)

theorem expsubValue_eq {t : Tag} {w v a b : Nat} :
    expsubValue t w v a b = truncInt (max w v) (valueOf t w a - valueOf t v b) := by
  have hx : ∀ u x : Nat,
      ((ext t (max w v) u x : Nat) : Int) % ((2 ^ max w v : Nat) : Int)
        = valueOf t u x % ((2 ^ max w v : Nat) : Int) := by
    intro u x
    cases t
    · rfl
    · rw [ext, truncInt_cast, Int.emod_emod, valueOf]
  rw [expsubValue, truncInt_congr]
  exact Int.ModEq.sub (hx w a) (hx v b)

/-- `a + not b + 1` is the difference modulo 2^W (R163). -/
theorem sub_eq {w a b : Nat} (hb : b < 2 ^ w) :
    trunc w (a + complement w b + 1) = truncInt w ((a : Int) - (b : Int)) := by
  rw [← truncInt_natCast, truncInt_congr, complement]
  have h : ((a + (2 ^ w - 1 - b) + 1 : Nat) : Int) = (a : Int) - (b : Int) + ((2 ^ w : Nat) : Int) := by
    omega
  rw [h, Int.add_emod_right]

theorem complement_lt (w v : Nat) : complement w v < 2 ^ w := by
  have : 0 < 2 ^ w := by positivity
  rw [complement]
  omega

/-- NOT bit by bit (R232). -/
theorem testBit_complement {w v : Nat} (hv : v < 2 ^ w) (i : Nat) :
    (complement w v).testBit i = (decide (i < w) && !v.testBit i) := by
  rw [complement, Nat.sub_sub, Nat.add_comm 1 v]
  exact Nat.testBit_two_pow_sub_succ hv i

theorem castValue_lt {t : Tag} {w n a : Nat} (ha : a < 2 ^ w) : castValue t w n a < 2 ^ n := by
  rw [castValue]
  split
  · exact ext_lt ha ‹_›
  · exact trunc_lt _ _

theorem product_lt {w v a b : Nat} (ha : a < 2 ^ w) (hb : b < 2 ^ v) : a * b < 2 ^ (w + v) := by
  rw [pow_add]
  exact Nat.mul_lt_mul'' ha hb

/-- A value of width w and its use at twice the wider width (R182). -/
theorem wide_product_lt {w v a b : Nat} (ha : a < 2 ^ w) (hb : b < 2 ^ v) :
    a * b < 2 ^ (2 * max w v) :=
  (product_lt ha hb).trans_le (Nat.pow_le_pow_right (by norm_num) (by omega))

/-! ## Every produced value lies in its width -/

/-- An output value in its width, the width one RW can hold. -/
abbrev OutputWf (x : Option (Nat × Nat)) : Prop :=
  ∀ v w, x = some (v, w) → v < 2 ^ w ∧ 1 ≤ w ∧ w < 2 ^ 32

/-- Both outputs of a response are in their widths. -/
abbrev ResponseWf (r : Response) : Prop :=
  ∀ o, r = .ok o → OutputWf o.r0 ∧ OutputWf o.r1

theorem ResponseWf.raise (e : ErrorCode) : ResponseWf (.raise e) := by simp [ResponseWf]

theorem ResponseWf.bit (c : Bool) : ResponseWf (.bit c) := by
  rintro o ⟨⟩
  simp [OutputWf]

theorem ResponseWf.r0 {v w : Nat} (h : v < 2 ^ w) (h1 : 1 ≤ w) (h2 : w < 2 ^ 32) :
    ResponseWf (.r0 v w) := by
  rintro o ⟨⟩
  simpa [OutputWf, h, h1] using h2

theorem ResponseWf.r0bit {v w : Nat} (h : v < 2 ^ w) (h1 : 1 ≤ w) (h2 : w < 2 ^ 32) (c : Bool) :
    ResponseWf (.r0bit v w c) := by
  rintro o ⟨⟩
  simpa [OutputWf, h, h1] using h2

theorem ResponseWf.r0r1 {v w v' w' : Nat} (h : v < 2 ^ w) (h1 : 1 ≤ w) (h2 : w < 2 ^ 32)
    (h' : v' < 2 ^ w') (h1' : 1 ≤ w') (h2' : w' < 2 ^ 32) : ResponseWf (.r0r1 v w v' w') := by
  rintro o ⟨⟩
  simpa [OutputWf, h, h1, h', h1'] using And.intro h2 h2'

theorem ResponseWf.usingWidth {s : State} {wa : Field16} {k : Nat → Response}
    (h : 1 ≤ wa.toNat → ResponseWf (k wa.toNat)) : ResponseWf (usingWidth s wa k) := by
  rcases usingWidth_cases s wa k with e | ⟨hw, e⟩ <;> rw [e]
  · exact .raise _
  · exact h (widthOk_iff.mp hw).1

theorem ResponseWf.usingWidths {s : State} {wa wb : Field16} {k : Nat → Nat → Response}
    (h : 1 ≤ wa.toNat → 1 ≤ wb.toNat → ResponseWf (k wa.toNat wb.toNat)) :
    ResponseWf (usingWidths s wa wb k) := by
  rcases usingWidths_cases s wa wb k with e | ⟨hw, e⟩ <;> rw [e]
  · exact .raise _
  · exact h (widthOk_iff.mp hw.1).1 (widthOk_iff.mp hw.2).1

theorem ResponseWf.withEqualAB {s : State} {wa wb : Field16} {k : Nat → Nat → Nat → Response}
    (h : 1 ≤ wa.toNat → ResponseWf (k (s.opA wa) (s.opB wa) wa.toNat)) :
    ResponseWf (withEqualAB s wa wb k) := by
  refine .usingWidths fun hw _ => ?_
  split
  · exact .raise _
  · exact h hw

/-- The response of every command is in its widths (R22). -/
theorem exec_responseWf (i : Instr) (s : State) :
    ∃ r, exec i s = .next (s.respond r) ∧ ResponseWf r := by
  have hv := fun w => val_lt s.cfg s.a w
  have hb := fun w => val_lt s.cfg s.b w
  have h16 : ∀ f : Field16, f.toNat < 65536 := fun f => f.isLt
  have hL : s.cfg.L ≤ 64 ∧ 1 ≤ s.cfg.L := by
    rcases s.cfg with ⟨l, _⟩
    cases l <;> simp [Config.L, LimbWidth.bits]
  cases i with
  | word wa i =>
    refine ⟨_, rfl, .usingWidth fun hw => ?_⟩
    dsimp only
    split
    · exact .raise _
    · exact .r0 (bitsAt_lt _ _ _) hL.2 (by omega)
  | setword wa i =>
    refine ⟨_, rfl, .usingWidth fun hw => ?_⟩
    dsimp only
    split
    · exact .raise _
    · exact .r0 (setword_lt hw (hv _) (by omega)) hw (by have := h16 wa; omega)
  | bit wa i =>
    refine ⟨_, rfl, .usingWidth fun hw => ?_⟩
    dsimp only
    split
    · exact .raise _
    · exact .bit _
  | setbit wa i v =>
    refine ⟨_, rfl, .usingWidth fun hw => ?_⟩
    dsimp only
    split
    · exact .raise _
    · exact .r0 (setbit_lt (hv _) (by omega) v) hw (by have := h16 wa; omega)
  | concat wa wb =>
    refine ⟨_, rfl, .usingWidths fun hw hw' => ?_⟩
    exact .r0 (concat_lt (hv _) (hb _)) (by omega) (by have := h16 wa; have := h16 wb; omega)
  | split wa p =>
    refine ⟨_, rfl, .usingWidth fun hw => ?_⟩
    dsimp only
    split
    · exact .raise _
    · rename_i hp
      refine .r0r1 (Nat.div_lt_of_lt_mul ?_) (by omega) (by have := h16 wa; omega)
        (Nat.mod_lt _ (by positivity)) (by omega) (by have := h16 p; omega)
      rw [← pow_add, show p.toNat + (wa.toNat - p.toNat) = wa.toNat by omega]
      exact hv _
  | width wa =>
    refine ⟨_, rfl, .usingWidth fun hw => .r0 (h16 wa) (by omega) (by omega)⟩
  | wordcount wa =>
    refine ⟨_, rfl, .usingWidth fun hw => .r0 ?_ (by omega) (by omega)⟩
    exact (wc_le hw).trans_lt (h16 wa)
  | wordmask wa i =>
    refine ⟨_, rfl, .usingWidth fun hw => ?_⟩
    split
    · exact .raise _
    · exact .r0 (wmask_lt _ _ _) hL.2 (by omega)
  | fromnat t wa =>
    exact ⟨_, rfl, .usingWidth fun hw => .r0 (truncInt_lt _ _) hw (by have := h16 wa; omega)⟩
  | fromlimbs wa n =>
    refine ⟨_, rfl, .usingWidth fun hw => ?_⟩
    split
    · exact .raise _
    · exact .r0 (trunc_lt _ _) hw (by have := h16 wa; omega)
  | frombits wa n =>
    refine ⟨_, rfl, .usingWidth fun hw => ?_⟩
    split_ifs
    · exact .raise _
    · exact .r0 (trunc_lt _ _) hw (by have := h16 wa; omega)
    · exact .raise _
  | tobits wa =>
    exact ⟨_, rfl, .usingWidth fun hw => .r0 (tobits_lt _ _) (by omega) (by have := h16 wa; omega)⟩
  | shl wa k =>
    exact ⟨_, rfl, .usingWidth fun hw => .r0 (shlValue_lt _ _ _) hw (by have := h16 wa; omega)⟩
  | shr wa k =>
    exact ⟨_, rfl, .usingWidth fun hw => .r0 (shrValue_lt (hv _) _) hw (by have := h16 wa; omega)⟩
  | sar wa k =>
    exact ⟨_, rfl, .usingWidth fun hw => .r0 (sarValue_lt _ _ _) hw (by have := h16 wa; omega)⟩
  | rol wa k =>
    exact ⟨_, rfl, .usingWidth fun hw => .r0 (rolValue_lt (hv _) _) hw (by have := h16 wa; omega)⟩
  | ror wa k =>
    exact ⟨_, rfl, .usingWidth fun hw => .r0 (rorValue_lt (hv _) _) hw (by have := h16 wa; omega)⟩
  | rcl wa k ci =>
    exact ⟨_, rfl, .usingWidth fun hw =>
      .r0bit (rclValue_lt (hv _) _ _) hw (by have := h16 wa; omega) _⟩
  | rcr wa k ci =>
    exact ⟨_, rfl, .usingWidth fun hw =>
      .r0bit (rcrValue_lt (hv _) _ _) hw (by have := h16 wa; omega) _⟩
  | add wa wb =>
    exact ⟨_, rfl, .withEqualAB fun hw => .r0 (trunc_lt _ _) hw (by have := h16 wa; omega)⟩
  | expadd t wa wb ci =>
    refine ⟨_, rfl, .usingWidths fun hw hw' => .r0 (trunc_lt _ _) (by omega) ?_⟩
    have := h16 wa; have := h16 wb; omega
  | sub wa wb =>
    exact ⟨_, rfl, .withEqualAB fun hw => .r0 (trunc_lt _ _) hw (by have := h16 wa; omega)⟩
  | expsub t wa wb =>
    refine ⟨_, rfl, .usingWidths fun hw hw' => .r0 (truncInt_lt _ _) (by omega) ?_⟩
    have := h16 wa; have := h16 wb; omega
  | smul wa wb =>
    refine ⟨_, rfl, .usingWidths fun hw hw' => .r0 ?_ (by omega) ?_⟩
    · rw [schoolbook_eq (hv _) (hb _)]
      exact product_lt (hv _) (hb _)
    · have := h16 wa; have := h16 wb; omega
  | bmul wa wb =>
    refine ⟨_, rfl, .usingWidths fun hw hw' => .r0 (bitsAt_lt _ _ _) (by omega) ?_⟩
    have := h16 wa; have := h16 wb; omega
  | kmul wa wb =>
    refine ⟨_, rfl, .usingWidths fun hw hw' => .r0 ?_ (by omega) ?_⟩
    · rw [karatsuba_eq]
      exact wide_product_lt (hv _) (hb _)
    · have := h16 wa; have := h16 wb; omega
  | mul t wa wb =>
    exact ⟨_, rfl, .withEqualAB fun hw => .r0 (trunc_lt _ _) hw (by have := h16 wa; omega)⟩
  | expmul t wa wb =>
    refine ⟨_, rfl, .usingWidths fun hw hw' => .r0 ?_ (by omega) ?_⟩
    · rw [taggedProduct_eq hw hw' (hv _) (hb _)]
      exact truncInt_lt _ _
    · have := h16 wa; have := h16 wb; omega
  | rdiv t wa wb =>
    refine ⟨_, rfl, .usingWidths fun hw hw' => ?_⟩
    dsimp only
    split
    · exact .raise _
    · rw [divrem_eq hw (hv _) (hb _) ‹_›]
      have := h16 wa
      exact .r0r1 (truncInt_lt _ _) hw (by omega) (truncInt_lt _ _) hw (by omega)
  | div t wa wb =>
    refine ⟨_, rfl, .usingWidths fun hw hw' => ?_⟩
    dsimp only
    split
    · exact .raise _
    · rw [divrem_eq hw (hv _) (hb _) ‹_›]
      exact .r0 (truncInt_lt _ _) hw (by have := h16 wa; omega)
  | rem t wa wb =>
    refine ⟨_, rfl, .usingWidths fun hw hw' => ?_⟩
    dsimp only
    split
    · exact .raise _
    · rw [divrem_eq hw (hv _) (hb _) ‹_›]
      exact .r0 (truncInt_lt _ _) hw (by have := h16 wa; omega)
  | cast t wa wb =>
    exact ⟨_, rfl, .usingWidths fun hw hw' =>
      .r0 (castValue_lt (hv _)) hw' (by have := h16 wb; omega)⟩
  | and wa wb =>
    exact ⟨_, rfl, .withEqualAB fun hw =>
      .r0 (Nat.and_lt_two_pow _ (hb _)) hw (by have := h16 wa; omega)⟩
  | or wa wb =>
    exact ⟨_, rfl, .withEqualAB fun hw =>
      .r0 (Nat.or_lt_two_pow (hv _) (hb _)) hw (by have := h16 wa; omega)⟩
  | not wa =>
    exact ⟨_, rfl, .usingWidth fun hw => .r0 (complement_lt _ _) hw (by have := h16 wa; omega)⟩
  | eq wa wb => exact ⟨_, rfl, .withEqualAB fun hw => .bit _⟩
  | ne wa wb => exact ⟨_, rfl, .withEqualAB fun hw => .bit _⟩
  | lt t wa wb => exact ⟨_, rfl, .withEqualAB fun hw => .bit _⟩
  | le t wa wb => exact ⟨_, rfl, .withEqualAB fun hw => .bit _⟩
  | gt t wa wb => exact ⟨_, rfl, .withEqualAB fun hw => .bit _⟩
  | ge t wa wb => exact ⟨_, rfl, .withEqualAB fun hw => .bit _⟩

end Sys2Proof.Machine
end

