-- ==== Sys2Proof/Tests/Slice0.lean ====
section
/-! SUPPORT. The model's own tests: each ill-formed command is refused, one word of every command
decodes to it, single steps on a small unit, and a witness for the hypotheses of every statement.
Expected results are the spec's vectors (95_test_vectors.md, the id in each comment) or a calculation by
hand from the rule named; never the model's answer. -/

namespace Sys2Proof.Tests

open Sys2Proof.Machine

/-! ## Helpers -/

/-- A small unit: L = 64, WMAX = 192, so NBUS = 24 and CHARCAP = 192. -/
def unit : Config := { limb := .w64, wmax := 192 }

/-- A bus of the small unit from its low limbs. -/
def bus (low : List Nat) : Bus := low ++ List.replicate (unit.nbus - low.length) 0

/-- The small unit with a captured command, at the edge that completes it. -/
def ready (w : CmdWord) (a b : List Nat) : State :=
  { State.resetOf unit with phase := .busy, cmd := w, a := bus a, b := bus b }

/-- The small unit that holds the response SPLIT wa=8, imm=3 of 0xB5 leaves. -/
def holding : State :=
  { State.resetOf unit with
    phase := .done, r0v := true, r1v := true, r0 := bus [22], rw0 := 5, r1 := bus [5], rw1 := 3 }

/-- The host offers a command. -/
def offer (w : CmdWord) (a b : List Nat) : Pins :=
  { rst := false, cmdValid := true, cmd := w, a := bus a, b := bus b }

/-- The host resets the unit. -/
def resetPins : Pins := { rst := true, cmdValid := false, cmd := 0, a := [], b := [] }

/-- The outcome is a next state with this property. -/
def after (o : Host.Outcome State Fault Refusal) (f : State → Bool) : Bool :=
  match o with
  | .next t => f t
  | .fault _ => false
  | .refused _ => false

/-- The outcome is the fault of a read that gives nothing. -/
def faults (r : Host.Outcome State Fault Refusal) (o : Output) : Bool :=
  match r with
  | .next _ => false
  | .fault (.noValue o') => o == o'
  | .refused _ => false

/-! ## Well-formedness: each check refuses (30_encoding.md R79) -/

theorem test_wf_ok : (Instr.split 8 3).wellFormed unit = true := by decide
theorem test_wf_wa_zero : (Instr.not 0).wellFormed unit = false := by decide
theorem test_wf_wa_max : (Instr.not 192).wellFormed unit = true := by decide
theorem test_wf_wa_above_wmax : (Instr.not 193).wellFormed unit = false := by decide
theorem test_wf_wb_zero : (Instr.add 8 0).wellFormed unit = false := by decide
theorem test_wf_wb_above_wmax : (Instr.cast .unsigned 8 193).wellFormed unit = false := by decide
theorem test_wf_split_zero : (Instr.split 8 0).wellFormed unit = false := by decide
theorem test_wf_split_width : (Instr.split 8 8).wellFormed unit = false := by decide
theorem test_wf_fromlimbs_nbus : (Instr.fromlimbs 8 24).wellFormed unit = true := by decide
theorem test_wf_fromlimbs_above_nbus : (Instr.fromlimbs 8 25).wellFormed unit = false := by decide
theorem test_wf_frombits_charcap : (Instr.frombits 8 192).wellFormed unit = true := by decide
theorem test_wf_frombits_above_charcap : (Instr.frombits 8 193).wellFormed unit = false := by decide
theorem test_wf_widths_differ : (Instr.eq 8 9).widthsAgree = false := by decide
theorem test_wf_widths_free : (Instr.concat 8 9).widthsAgree = true := by decide

/-! ## Decoding: a word of every command, written out in 95_test_vectors.md -/

/-- V1: WORD wa=72, imm=1. -/
theorem test_decode_word : decode 0x0001000000480001 = .command (.word 72 1) := by decide

/-- V6: SETWORD wa=72. -/
theorem test_decode_setword : decode 0x0000000000480002 = .command (.setword 72 0) := by decide

/-- V10: BIT wa=100, imm=99. -/
theorem test_decode_bit : decode 0x0063000000640003 = .command (.bit 100 99) := by decide

/-- V12: SETBIT wa=8, imm=4, ci=1. -/
theorem test_decode_setbit : decode 0x0004000000080204 = .command (.setbit 8 4 true) := by decide

/-- V16: CONCAT wa=8, wb=3. -/
theorem test_decode_concat : decode 0x0000000300080005 = .command (.concat 8 3) := by decide

/-- V22: SPLIT wa=65, imm=64. -/
theorem test_decode_split : decode 0x0040000000410006 = .command (.split 65 64) := by decide

/-- V24: WIDTH wa=1024. -/
theorem test_decode_width : decode 0x0000000004000007 = .command (.width 1024) := by decide

/-- V27: WORDCOUNT wa=1024. -/
theorem test_decode_wordcount : decode 0x0000000004000008 = .command (.wordcount 1024) := by decide

/-- V31: WORDMASK wa=72, imm=2. -/
theorem test_decode_wordmask : decode 0x0002000000480009 = .command (.wordmask 72 2) := by decide

/-- V32: FROMNAT.s wa=8. -/
theorem test_decode_fromnat : decode 0x000000000008010A = .command (.fromnat .signed 8) := by decide

/-- V41: FROMLIMBS wa=8, imm=129. -/
theorem test_decode_fromlimbs : decode 0x008100000008000B = .command (.fromlimbs 8 129) := by decide

/-- V49: FROMBITS wa=8, imm=1025. -/
theorem test_decode_frombits : decode 0x040100000008000C = .command (.frombits 8 1025) := by decide

/-- V52: TOBITS.s wa=8. -/
theorem test_decode_tobits : decode 0x000000000008010D = .command (.tobits 8) := by decide

/-- S-SHL65535: SHL wa=8, imm=65535. -/
theorem test_decode_shl : decode 0xFFFF000000080010 = .command (.shl 8 65535) := by decide

/-- S-SHRs: SHR.s wa=8, imm=1. -/
theorem test_decode_shr : decode 0x0001000000080111 = .command (.shr 8 1) := by decide

/-- S-SAR300: SAR.s wa=8, imm=300. -/
theorem test_decode_sar : decode 0x012C000000080112 = .command (.sar 8 300) := by decide

/-- S-ROL9: ROL wa=8, imm=9. -/
theorem test_decode_rol : decode 0x0009000000080013 = .command (.rol 8 9) := by decide

/-- S-RORw: ROR wa=130, imm=1. -/
theorem test_decode_ror : decode 0x0001000000820014 = .command (.ror 130 1) := by decide

/-- S-RCL1.1: RCL wa=8, imm=1, ci=1. -/
theorem test_decode_rcl : decode 0x0001000000080215 = .command (.rcl 8 1 true) := by decide

/-- S-RCR1.1: RCR wa=8, imm=1, ci=1. -/
theorem test_decode_rcr : decode 0x0001000000080216 = .command (.rcr 8 1 true) := by decide

/-- A6: ADD.s wa=4, wb=4. -/
theorem test_decode_add : decode 0x0000000400040120 = .command (.add 4 4) := by decide

/-- A7: EXPADD.u wa=8, wb=8, ci=1. -/
theorem test_decode_expadd : decode 0x0000000800080221 = .command (.expadd .unsigned 8 8 true) := by decide

/-- A16: SUB wa=8, wb=7. -/
theorem test_decode_sub : decode 0x0000000700080022 = .command (.sub 8 7) := by decide

/-- A18: EXPSUB.s wa=4, wb=12. -/
theorem test_decode_expsub : decode 0x0000000C00040123 = .command (.expsub .signed 4 12) := by decide

/-- M1: SMUL.u wa=8, wb=8. -/
theorem test_decode_smul : decode 0x0000000800080030 = .command (.smul 8 8) := by decide

/-- M8: BMUL.s wa=4, wb=3. -/
theorem test_decode_bmul : decode 0x0000000300040131 = .command (.bmul 4 3) := by decide

/-- M11: KMUL.u wa=8, wb=4. -/
theorem test_decode_kmul : decode 0x0000000400080032 = .command (.kmul 8 4) := by decide

/-- M16: MUL.s wa=8, wb=8. -/
theorem test_decode_mul : decode 0x0000000800080133 = .command (.mul .signed 8 8) := by decide

/-- M18: EXPMUL.s wa=8, wb=8. -/
theorem test_decode_expmul : decode 0x0000000800080134 = .command (.expmul .signed 8 8) := by decide

/-- DV14: RDIV.u wa=128, wb=65. -/
theorem test_decode_rdiv : decode 0x0000004100800040 = .command (.rdiv .unsigned 128 65) := by decide

/-- DV15: DIV.s wa=8, wb=8. -/
theorem test_decode_div : decode 0x0000000800080141 = .command (.div .signed 8 8) := by decide

/-- DV19: REM.u wa=8, wb=8. -/
theorem test_decode_rem : decode 0x0000000800080042 = .command (.rem .unsigned 8 8) := by decide

/-- WC7: CAST.s wa=1, wb=1024. -/
theorem test_decode_cast : decode 0x0000040000010150 = .command (.cast .signed 1 1024) := by decide

/-- B3: AND wa=8, wb=4. -/
theorem test_decode_and : decode 0x0000000400080060 = .command (.and 8 4) := by decide

/-- B4: OR wa=65, wb=65. -/
theorem test_decode_or : decode 0x0000004100410061 = .command (.or 65 65) := by decide

/-- E10: NOT.s wa=4, wb=65535, imm=65535, ci=1. -/
theorem test_decode_not : decode 0xFFFFFFFF00040362 = .command (.not 4) := by decide

/-- B5: EQ wa=8, wb=8. -/
theorem test_decode_eq : decode 0x0000000800080068 = .command (.eq 8 8) := by decide

/-- B6: NE wa=1, wb=1. -/
theorem test_decode_ne : decode 0x0000000100010069 = .command (.ne 1 1) := by decide

/-- B7: LT.s wa=8, wb=8. -/
theorem test_decode_lt : decode 0x000000080008016A = .command (.lt .signed 8 8) := by decide

/-- B9: LE.s wa=8, wb=8. -/
theorem test_decode_le : decode 0x000000080008016B = .command (.le .signed 8 8) := by decide

/-- B10: GT.s wa=1, wb=1. -/
theorem test_decode_gt : decode 0x000000010001016C = .command (.gt .signed 1 1) := by decide

/-- B12: GE.s wa=8, wb=9. -/
theorem test_decode_ge : decode 0x000000090008016D = .command (.ge .signed 8 9) := by decide

/-- E1, OPC 0x00 is reserved. -/
theorem test_decode_reserved_opcode : decode 0x0000000800080000 = .rejected (.reservedOpcode 0x00) := by decide

/-- R73: RSV must be 0. -/
theorem test_decode_reserved_bits : decode 0x0000000800080420 = .rejected (.reservedBits 1) := by decide

/-- S-SARu, SAR needs S = 1 (R71). -/
theorem test_decode_wrong_tag : decode 0x0001000000080012 = .rejected (.wrongTag false) := by decide

/-- R70: the encoder writes the same word. -/
theorem test_encode_expadd : encode (.expadd .unsigned 8 8 true) = 0x0000000800080221 := by decide

/-- SA2, the assembler line `EXPADD.u wa=8, wb=8` (R81). -/
theorem test_assemble_expadd :
    assemble { name := "EXPADD", suffix := some .unsigned, wa := 8, wb := 8 } = some 0x0000000800080021 := by
  decide

/-- R82: CANON of a 72-bit value takes two limbs. -/
theorem test_canon : Pseudo.expand unit (.canon 72) = some (.fromlimbs 72 2) := by decide

/-- R77: 42 rows, no number twice. -/
theorem test_opcode_table : opcodeTable.length = 42 ∧ (opcodeTable.map (·.opc)).Nodup := by decide

/-! ## One step each, from the spec's vectors -/

/-- V2, WORD wa=72, imm=1: bus bits above WA ignored (R13). -/
theorem test_word_v2 : after (step (ready 0x0001000000480001 [0x1, 0xffff] []))
    (fun t => statusWord t == 0xa && t.r0 == bus [0xff] && t.rw0 == 64) = true := by decide

/-- V3, WORD wa=72, imm=2: i = wc(72) = 2. -/
theorem test_word_v3 : after (step (ready 0x0002000000480001 [0x1234] []))
    (fun t => statusWord t == 0x102) = true := by decide

/-- V5, SETWORD wa=72, imm=1: top limb masked to 8 bits. -/
theorem test_setword_v5 : after (step (ready 0x0001000000480002 [] [0xffff]))
    (fun t => statusWord t == 0xa && t.r0 == bus [0x0, 0xff] && t.rw0 == 72) = true := by decide

/-- V7, SETWORD wa=64, imm=1: i = wc(64) = 1. -/
theorem test_setword_v7 : after (step (ready 0x0001000000400002 [] [0x1]))
    (fun t => statusWord t == 0x102) = true := by decide

/-- V9, BIT wa=8, imm=8: i = W although i < 64 (C2). -/
theorem test_bit_v9 : after (step (ready 0x0008000000080003 [0xff] []))
    (fun t => statusWord t == 0x102) = true := by decide

/-- V10, BIT wa=100, imm=99: bit in limb 1. -/
theorem test_bit_v10 : after (step (ready 0x0063000000640003 [0x0, 0x800000000] []))
    (fun t => statusWord t == 0x26) = true := by decide

/-- V11, SETBIT wa=8: clear. -/
theorem test_setbit_v11 : after (step (ready 0x0000000000080004 [0xff] []))
    (fun t => statusWord t == 0xa && t.r0 == bus [0xfe] && t.rw0 == 8) = true := by decide

/-- V13, SETBIT wa=8, imm=8, ci=1. -/
theorem test_setbit_v13 : after (step (ready 0x0008000000080204 [] []))
    (fun t => statusWord t == 0x102) = true := by decide

/-- V14, CONCAT wa=4, wb=4. -/
theorem test_concat_v14 : after (step (ready 0x0000000400040005 [0x5] [0x3]))
    (fun t => statusWord t == 0xa && t.r0 == bus [0x35] && t.rw0 == 8) = true := by decide

/-- V15, CONCAT wa=64, wb=1: result crosses a limb. -/
theorem test_concat_v15 : after (step (ready 0x0000000100400005 [0x1] [0x1]))
    (fun t => statusWord t == 0xa && t.r0 == bus [0x1, 0x1] && t.rw0 == 65) = true := by decide

/-- V17, SPLIT wa=8, imm=3. -/
theorem test_split_v17 : after (step (ready 0x0003000000080006 [0xb5] []))
    (fun t => statusWord t == 0x1a && t.r0 == bus [0x16] && t.rw0 == 5 && t.r1 == bus [0x5] && t.rw1 == 3) = true := by decide

/-- V20, SPLIT wa=8, imm=8: p = W (D14). -/
theorem test_split_v20 : after (step (ready 0x0008000000080006 [0xb5] []))
    (fun t => statusWord t == 0x502) = true := by decide

/-- V23, WIDTH wa=1. -/
theorem test_width_v23 : after (step (ready 0x0000000000010007 [] []))
    (fun t => statusWord t == 0xa && t.r0 == bus [0x1] && t.rw0 == 16) = true := by decide

/-- V26, WORDCOUNT wa=65. -/
theorem test_wordcount_v26 : after (step (ready 0x0000000000410008 [] []))
    (fun t => statusWord t == 0xa && t.r0 == bus [0x2] && t.rw0 == 16) = true := by decide

/-- V28, WORDMASK wa=72, imm=1. -/
theorem test_wordmask_v28 : after (step (ready 0x0001000000480009 [] []))
    (fun t => statusWord t == 0xa && t.r0 == bus [0xff] && t.rw0 == 64) = true := by decide

/-- V31, WORDMASK wa=72, imm=2: i = wc(72) (D13). -/
theorem test_wordmask_v31 : after (step (ready 0x0002000000480009 [] []))
    (fun t => statusWord t == 0x102) = true := by decide

/-- V32, FROMNAT.s wa=8: -128 truncated. -/
theorem test_fromnat_v32 : after (step (ready 0x000000000008010A [0xffffffffffffff80] []))
    (fun t => statusWord t == 0xa && t.r0 == bus [0x80] && t.rw0 == 8) = true := by decide

/-- V33, FROMNAT.s wa=128: -128 sign-extended. -/
theorem test_fromnat_v33 : after (step (ready 0x000000000080010A [0xffffffffffffff80] []))
    (fun t => statusWord t == 0xa && t.r0 == bus [0xffffffffffffff80, 0xffffffffffffffff] && t.rw0 == 128) = true := by decide

/-- V37, FROMLIMBS wa=128, imm=2: limb 2 not in the list: ignored. -/
theorem test_fromlimbs_v37 : after (step (ready 0x000200000080000B [0x2, 0x3, 0x7] []))
    (fun t => statusWord t == 0xa && t.r0 == bus [0x2, 0x3] && t.rw0 == 128) = true := by decide

/-- V38, FROMLIMBS wa=64, imm=2: n > wc(WA): excess limb discarded. -/
theorem test_fromlimbs_v38 : after (step (ready 0x000200000040000B [0x2, 0x3] []))
    (fun t => statusWord t == 0xa && t.r0 == bus [0x2] && t.rw0 == 64) = true := by decide

/-- V44, FROMBITS.s wa=8, imm=3: zero padding even for S = 1 (D40). -/
theorem test_frombits_v44 : after (step (ready 0x000300000008010C [0x313131] []))
    (fun t => statusWord t == 0xa && t.r0 == bus [0x7] && t.rw0 == 8) = true := by decide

/-- V45, FROMBITS wa=2, imm=4: bad character in the truncated part. -/
theorem test_frombits_v45 : after (step (ready 0x000400000002000C [0x31307a31] []))
    (fun t => statusWord t == 0x402) = true := by decide

/-- V51, TOBITS wa=6: "101101". -/
theorem test_tobits_v51 : after (step (ready 0x000000000006000D [0x2d] []))
    (fun t => statusWord t == 0xa && t.r0 == bus [0x313031313031] && t.rw0 == 48) = true := by decide

/-- S-SHLw, SHL wa=130, imm=65: limb skip 1, sub-limb shift 1. -/
theorem test_shl_s_shlw : after (step (ready 0x0041000000820010 [0x1] []))
    (fun t => statusWord t == 0xa && t.r0 == bus [0x0, 0x2] && t.rw0 == 130) = true := by decide

/-- S-SHL8, SHL wa=8, imm=8. -/
theorem test_shl_s_shl8 : after (step (ready 0x0008000000080010 [0x81] []))
    (fun t => statusWord t == 0xa && t.r0 == bus [] && t.rw0 == 8) = true := by decide

/-- S-SHRs, SHR.s wa=8, imm=1: tag ignored: no sign fill. -/
theorem test_shr_s_shrs : after (step (ready 0x0001000000080111 [0x81] []))
    (fun t => statusWord t == 0xa && t.r0 == bus [0x40] && t.rw0 == 8) = true := by decide

/-- S-SHRw, SHR wa=130, imm=129. -/
theorem test_shr_s_shrw : after (step (ready 0x0081000000820011 [0x0, 0x0, 0x2] []))
    (fun t => statusWord t == 0xa && t.r0 == bus [0x1] && t.rw0 == 130) = true := by decide

/-- S-SAR1, SAR.s wa=8, imm=1. -/
theorem test_sar_s_sar1 : after (step (ready 0x0001000000080112 [0x81] []))
    (fun t => statusWord t == 0xa && t.r0 == bus [0xc0] && t.rw0 == 8) = true := by decide

/-- S-SAR300, SAR.s wa=8, imm=300. -/
theorem test_sar_s_sar300 : after (step (ready 0x012C000000080112 [0x81] []))
    (fun t => statusWord t == 0xa && t.r0 == bus [0xff] && t.rw0 == 8) = true := by decide

/-- SD1, ROL wa=8, imm=3: rule R144. -/
theorem test_rol_sd1 : after (step (ready 0x0003000000080013 [0x17] []))
    (fun t => statusWord t == 0xa && t.r0 == bus [0xb8] && t.rw0 == 8) = true := by decide

/-- S-ROL8, ROL wa=8, imm=8: k >= W gives 0 (C1). -/
theorem test_rol_s_rol8 : after (step (ready 0x0008000000080013 [0x81] []))
    (fun t => statusWord t == 0xa && t.r0 == bus [] && t.rw0 == 8) = true := by decide

/-- SD2, ROR wa=8, imm=3: rule R145. -/
theorem test_ror_sd2 : after (step (ready 0x0003000000080014 [0x17] []))
    (fun t => statusWord t == 0xa && t.r0 == bus [0xe2] && t.rw0 == 8) = true := by decide

/-- S-RORw, ROR wa=130, imm=1. -/
theorem test_ror_s_rorw : after (step (ready 0x0001000000820014 [0x1] []))
    (fun t => statusWord t == 0xa && t.r0 == bus [0x0, 0x0, 0x2] && t.rw0 == 130) = true := by decide

/-- S-RCL1.1, RCL wa=8, imm=1, ci=1. -/
theorem test_rcl_s_rcl1_1 : after (step (ready 0x0001000000080215 [0x81] []))
    (fun t => statusWord t == 0x2e && t.r0 == bus [0x3] && t.rw0 == 8) = true := by decide

/-- S-RCL8.1, RCL wa=8, imm=8, ci=1: k >= W (D22). -/
theorem test_rcl_s_rcl8_1 : after (step (ready 0x0008000000080215 [0x81] []))
    (fun t => statusWord t == 0x2a && t.r0 == bus [] && t.rw0 == 8) = true := by decide

/-- S-RCR1.1, RCR wa=8, imm=1, ci=1. -/
theorem test_rcr_s_rcr1_1 : after (step (ready 0x0001000000080216 [0x81] []))
    (fun t => statusWord t == 0x2e && t.r0 == bus [0xc0] && t.rw0 == 8) = true := by decide

/-- S-RCR7.1, RCR wa=8, imm=7, ci=1. -/
theorem test_rcr_s_rcr7_1 : after (step (ready 0x0007000000080216 [0x81] []))
    (fun t => statusWord t == 0x2a && t.r0 == bus [0x7] && t.rw0 == 8) = true := by decide

/-- A2, ADD wa=192, wb=192: carry into a limb whose B limb is all ones (C5). -/
theorem test_add_a2 : after (step (ready 0x000000C000C00020 [0x1, 0x5] [0xffffffffffffffff, 0xffffffffffffffff, 0xffffffffffffffff]))
    (fun t => statusWord t == 0xa && t.r0 == bus [0x0, 0x5] && t.rw0 == 192) = true := by decide

/-- A5, ADD wa=8, wb=9: WB != WA. -/
theorem test_add_a5 : after (step (ready 0x0000000900080020 [0x1] [0x1]))
    (fun t => statusWord t == 0x302) = true := by decide

/-- A7, EXPADD.u wa=8, wb=8, ci=1: maximum: 511. -/
theorem test_expadd_a7 : after (step (ready 0x0000000800080221 [0xff] [0xff]))
    (fun t => statusWord t == 0xa && t.r0 == bus [0x1ff] && t.rw0 == 9) = true := by decide

/-- A10, EXPADD.s wa=4, wb=4: -8 + -8 = -16 in 5 bits. -/
theorem test_expadd_a10 : after (step (ready 0x0000000400040121 [0x8] [0x8]))
    (fun t => statusWord t == 0xa && t.r0 == bus [0x10] && t.rw0 == 5) = true := by decide

/-- A13, SUB wa=8, wb=8: 0 - 1. -/
theorem test_sub_a13 : after (step (ready 0x0000000800080022 [] [0x1]))
    (fun t => statusWord t == 0xa && t.r0 == bus [0xff] && t.rw0 == 8) = true := by decide

/-- A15, SUB wa=65, wb=65: borrow across a limb. -/
theorem test_sub_a15 : after (step (ready 0x0000004100410022 [0x0, 0x1] [0x1]))
    (fun t => statusWord t == 0xa && t.r0 == bus [0xffffffffffffffff] && t.rw0 == 65) = true := by decide

/-- A17, EXPSUB.u wa=4, wb=12: wraps at 12 bits. -/
theorem test_expsub_a17 : after (step (ready 0x0000000C00040023 [] [0x1]))
    (fun t => statusWord t == 0xa && t.r0 == bus [0xfff] && t.rw0 == 12) = true := by decide

/-- A19, EXPSUB.s wa=8, wb=8: -128 - 127 wraps to 1 (no guard bit). -/
theorem test_expsub_a19 : after (step (ready 0x0000000800080123 [0x80] [0x7f]))
    (fun t => statusWord t == 0xa && t.r0 == bus [0x1] && t.rw0 == 8) = true := by decide

/-- M1, SMUL.u wa=8, wb=8. -/
theorem test_smul_m1 : after (step (ready 0x0000000800080030 [0xff] [0xff]))
    (fun t => statusWord t == 0xa && t.r0 == bus [0xfe01] && t.rw0 == 16) = true := by decide

/-- M2, SMUL.u wa=1, wb=1. -/
theorem test_smul_m2 : after (step (ready 0x0000000100010030 [0x1] [0x1]))
    (fun t => statusWord t == 0xa && t.r0 == bus [0x1] && t.rw0 == 2) = true := by decide

/-- SB1, BMUL.s wa=4, wb=4: rule R181. -/
theorem test_bmul_sb1 : after (step (ready 0x0000000400040131 [0x8] [0xf]))
    (fun t => statusWord t == 0xa && t.r0 == bus [0x8] && t.rw0 == 8) = true := by decide

/-- M7, BMUL.s wa=4, wb=1: (-8)(-1) = 8 in 5 bits. -/
theorem test_bmul_m7 : after (step (ready 0x0000000100040131 [0x8] [0x1]))
    (fun t => statusWord t == 0xa && t.r0 == bus [0x8] && t.rw0 == 5) = true := by decide

/-- M11, KMUL.u wa=8, wb=4: 2 * max(8, 4) = 16-bit result. -/
theorem test_kmul_m11 : after (step (ready 0x0000000400080032 [0xff] [0xf]))
    (fun t => statusWord t == 0xa && t.r0 == bus [0xef1] && t.rw0 == 16) = true := by decide

/-- M12, KMUL.u wa=100, wb=100: recursion n = 100 > L. -/
theorem test_kmul_m12 : after (step (ready 0x0000006400640032 [0xffffffffffffffff, 0xfffffffff] [0xffffffffffffffff, 0xfffffffff]))
    (fun t => statusWord t == 0xa && t.r0 == bus [0x1, 0xffffffe000000000, 0xffffffffffffffff, 0xff] && t.rw0 == 200) = true := by decide

/-- M15, MUL.u wa=8, wb=8. -/
theorem test_mul_m15 : after (step (ready 0x0000000800080033 [0xff] [0xff]))
    (fun t => statusWord t == 0xa && t.r0 == bus [0x1] && t.rw0 == 8) = true := by decide

/-- M17, MUL.u wa=8, wb=16. -/
theorem test_mul_m17 : after (step (ready 0x0000001000080033 [0x1] [0x1]))
    (fun t => statusWord t == 0x302) = true := by decide

/-- M20, EXPMUL.s wa=3, wb=2: (-1)(-1) = 1 in 5 bits. -/
theorem test_expmul_m20 : after (step (ready 0x0000000200030134 [0x7] [0x3]))
    (fun t => statusWord t == 0xa && t.r0 == bus [0x1] && t.rw0 == 5) = true := by decide

/-- M19, EXPMUL.u wa=8, wb=8. -/
theorem test_expmul_m19 : after (step (ready 0x0000000800080034 [0x80] [0xff]))
    (fun t => statusWord t == 0xa && t.r0 == bus [0x7f80] && t.rw0 == 16) = true := by decide

/-- DV4, RDIV.s wa=8, wb=8: (-128)/(-1) wraps (D24). -/
theorem test_rdiv_dv4 : after (step (ready 0x0000000800080140 [0x80] [0xff]))
    (fun t => statusWord t == 0x1a && t.r0 == bus [0x80] && t.rw0 == 8 && t.r1 == bus [] && t.rw1 == 8) = true := by decide

/-- DV5, RDIV.s wa=8, wb=8: -5/3: (-1, -2), not the fast path (C7). -/
theorem test_rdiv_dv5 : after (step (ready 0x0000000800080140 [0xfb] [0x3]))
    (fun t => statusWord t == 0x1a && t.r0 == bus [0xff] && t.rw0 == 8 && t.r1 == bus [0xfe] && t.rw1 == 8) = true := by decide

/-- DV15, DIV.s wa=8, wb=8. -/
theorem test_div_dv15 : after (step (ready 0x0000000800080141 [0xf9] [0x2]))
    (fun t => statusWord t == 0xa && t.r0 == bus [0xfd] && t.rw0 == 8) = true := by decide

/-- DV16, DIV.s wa=8, wb=8. -/
theorem test_div_dv16 : after (step (ready 0x0000000800080141 [0x1] []))
    (fun t => statusWord t == 0x202) = true := by decide

/-- DV17, REM.s wa=8, wb=8. -/
theorem test_rem_dv17 : after (step (ready 0x0000000800080142 [0xf9] [0x2]))
    (fun t => statusWord t == 0xa && t.r0 == bus [0xff] && t.rw0 == 8) = true := by decide

/-- DV18, REM.u wa=8, wb=8. -/
theorem test_rem_dv18 : after (step (ready 0x0000000800080042 [0x1] []))
    (fun t => statusWord t == 0x202) = true := by decide

/-- WC1, CAST.s wa=8, wb=16. -/
theorem test_cast_wc1 : after (step (ready 0x0000001000080150 [0x80] []))
    (fun t => statusWord t == 0xa && t.r0 == bus [0xff80] && t.rw0 == 16) = true := by decide

/-- WC6, CAST.s wa=9, wb=7: shrink changes sign / value (truncation, not an error). -/
theorem test_cast_wc6 : after (step (ready 0x0000000700090150 [0x80] []))
    (fun t => statusWord t == 0xa && t.r0 == bus [] && t.rw0 == 7) = true := by decide

/-- B3, AND wa=8, wb=4: WB != WA. -/
theorem test_and_b3 : after (step (ready 0x0000000400080060 [0xff] [0xf]))
    (fun t => statusWord t == 0x302) = true := by decide

/-- B4, OR wa=65, wb=65. -/
theorem test_or_b4 : after (step (ready 0x0000004100410061 [0x0, 0x1] [0x1]))
    (fun t => statusWord t == 0xa && t.r0 == bus [0x1, 0x1] && t.rw0 == 65) = true := by decide

/-- B1, NOT wa=65: top limb masked to 1 bit. -/
theorem test_not_b1 : after (step (ready 0x0000000000410062 [] []))
    (fun t => statusWord t == 0xa && t.r0 == bus [0xffffffffffffffff, 0x1] && t.rw0 == 65) = true := by decide

/-- E10, NOT.s wa=4, wb=65535, imm=65535, ci=1: unused fields ignored (D42). -/
theorem test_not_e10 : after (step (ready 0xFFFFFFFF00040362 [0xf] []))
    (fun t => statusWord t == 0xa && t.r0 == bus [] && t.rw0 == 4) = true := by decide

/-- B5, EQ wa=8, wb=8: bus bits above WA ignored. -/
theorem test_eq_b5 : after (step (ready 0x0000000800080068 [0x1ab] [0xab]))
    (fun t => statusWord t == 0x26) = true := by decide

/-- B6, NE wa=1, wb=1. -/
theorem test_ne_b6 : after (step (ready 0x0000000100010069 [] []))
    (fun t => statusWord t == 0x22) = true := by decide

/-- B7, LT.s wa=8, wb=8. -/
theorem test_lt_b7 : after (step (ready 0x000000080008016A [0x80] [0x7f]))
    (fun t => statusWord t == 0x26) = true := by decide

/-- B8, LT.u wa=8, wb=8. -/
theorem test_lt_b8 : after (step (ready 0x000000080008006A [0x80] [0x7f]))
    (fun t => statusWord t == 0x22) = true := by decide

/-- B9, LE.s wa=8, wb=8. -/
theorem test_le_b9 : after (step (ready 0x000000080008016B [0x7f] [0x80]))
    (fun t => statusWord t == 0x22) = true := by decide

/-- B10, GT.s wa=1, wb=1: 1-bit: 0 > -1. -/
theorem test_gt_b10 : after (step (ready 0x000000010001016C [] [0x1]))
    (fun t => statusWord t == 0x26) = true := by decide

/-- B11, GE.s wa=8, wb=8. -/
theorem test_ge_b11 : after (step (ready 0x000000080008016D [0x80] [0x80]))
    (fun t => statusWord t == 0x26) = true := by decide

/-- B12, GE.s wa=8, wb=9: WB != WA. -/
theorem test_ge_b12 : after (step (ready 0x000000090008016D [0x1] [0x1]))
    (fun t => statusWord t == 0x302) = true := by decide

/-- E3, (raw word): OPC 0x24 reserved. -/
theorem test_reserved_e3 : after (step (ready 0x0000000000080024 [] []))
    (fun t => statusWord t == 0x502) = true := by decide

/-- E4, (raw word): RSV bit 10 set. -/
theorem test_add_e4 : after (step (ready 0x0000000800080420 [] []))
    (fun t => statusWord t == 0x502) = true := by decide

/-- E12, DIV.u wa=8: BadCommand beats DivisionByZero. -/
theorem test_div_e12 : after (step (ready 0x0000000000080041 [0x1] []))
    (fun t => statusWord t == 0x502) = true := by decide

/-- By hand from R230: 0xCC and 0xAA give 0x88. -/
theorem test_and_bits : after (step (ready 0x0000000800080060 [0xCC] [0xAA]))
    (fun t => statusWord t == 0xa && t.r0 == bus [0x88] && t.rw0 == 8) = true := by decide

/-- SA1 at the limb width L = 8 (R6): 200 + 100 in two limbs of a 16-bit value. -/
theorem test_add_small_limbs :
    after (exec (.add 16 16) { State.resetOf { limb := .w8, wmax := 16 } with
      a := [0xC8, 0] ++ List.replicate 14 0, b := [0x64, 0] ++ List.replicate 14 0 })
      (fun t => t.r0 == [0x2C, 1] ++ List.replicate 14 0) = true := by decide

/-! ## The protocol -/

/-- R404, R26: acceptance captures the word and the buses and clears the valid bits. -/
theorem test_accept :
    after (step { holding with events := [.clk (offer 0x0000000800080020 [200] [100])] })
      (fun t => t.phase == .busy && t.cmd == 0x0000000800080020 && t.a == bus [200] && t.b == bus [100]
        && !t.r0v && !t.r1v && t.r0 == bus [22] && t.accepted == 1) = true := by decide

/-- R407: an offer while BUSY changes nothing but the cycle that passes. -/
theorem test_offer_while_busy :
    after (step { ready 0x0000000800080020 [200] [100] with
        wait := 2, events := [.clk (offer 0x62 [1] [])] })
      (fun t => t.phase == .busy && t.cmd == 0x0000000800080020 && t.a == bus [200] && t.wait == 1) = true := by
  decide

/-- R401: reset while BUSY drops the command. -/
theorem test_reset_while_busy :
    after (step { ready 0x0000000800080020 [200] [100] with events := [.clk resetPins] })
      (fun t => t.phase == .idle && statusWord t == 0 && rwWord t == 0) = true := by decide

/-- R406: an idle edge keeps the response. -/
theorem test_idle_edge_keeps : after (step holding) (fun t => t == holding) = true := by decide

/-- R29: R1 holds a value after SPLIT. -/
theorem test_read_r1 : after (step { holding with events := [.read .r1] })
    (fun t => t.seen == [(.r1, .bus (bus [5]))]) = true := by decide

/-- R29: CO holds none after SPLIT. -/
theorem test_read_co_faults : faults (step { holding with events := [.read .co] }) .co = true := by decide

/-- The word placed by `withFetchWord` is what the next step completes: NOT wa=8 of 0. -/
theorem test_with_fetch_word : after (step ((State.resetOf unit).withFetchWord 64 0x0000000000080062))
    (fun t => t.phase == .done && t.r0 == bus [0xff] && t.events == []) = true := by decide

/-! ## Witnesses: the hypotheses of every statement are met together by a concrete state and operands

Statements without hypotheses, or over all states and commands, have none here. -/

/-- The 65-bit WORDCOUNT command of the small unit, at its completing edge. -/
def sample : State := ready 0x0000000000410008 [0xAB, 1] [0x34, 1]

/-- A well-formed state. -/
theorem sample_wf : sample.Wf where
  legal := by decide
  busA := by decide
  busB := by decide
  busR0 := by decide
  busR1 := by decide
  valid := by decide
  resultR0 := by decide
  resultR1 := by decide
  idle := by decide

theorem witness_DecodedWordIsItsEncoding : decode 0x0000000800080221 = .command (.expadd .unsigned 8 8 true) := by
  decide

theorem witness_ReservedEncodingsAreBadCommand :
    (∃ (s : State) (e : DecodeError), decode s.cmd = .rejected e ∧ s.Completing ∧ s.events = []) ∧
    ∃ (s : State) (e : DecodeError) (p : Pins), decode s.cmd = .rejected e ∧ s.Completing ∧
      s.events = [.clk p] ∧ p.rst = false ∧ p.cmdValid = true :=
  ⟨⟨ready 0x0000000800080024 [] [], _, by rfl, by decide, by decide⟩,
    ⟨{ ready 0x0000000800080024 [] [] with events := [.clk (offer 0x62 [1] [2])] }, _,
      offer 0x62 [1] [2], by rfl, by decide⟩⟩

/-- The words EncodedAs and EncodedWithTag speak of, for every OPC and tag. -/
theorem witness_EncodedAs (opc : BitVec 8) (s : Bool) : ∃ f : Fields, f.opc = opc ∧ f.rsv = 0#6 ∧ f.s = s :=
  ⟨⟨opc, s, true, 0, 8, 8, 1⟩, rfl, rfl, rfl⟩

/-- Both clauses on the fixed tag, every tagged command, and a command that ignores S. -/
theorem witness_TagBitUse :
    (∀ opc ∈ [0x12#8, 0x31#8, 0x30#8, 0x32#8, 0x0A#8, 0x21#8, 0x23#8, 0x33#8, 0x34#8, 0x40#8, 0x41#8, 0x42#8,
      0x50#8, 0x6A#8, 0x6B#8, 0x6C#8, 0x6D#8], ∃ f : Fields, f.opc = opc ∧ f.rsv = 0#6) ∧
    ∃ f : Fields, f.opc ∉ [0x0A#8, 0x12#8, 0x21#8, 0x23#8, 0x30#8, 0x31#8, 0x32#8, 0x33#8, 0x34#8,
      0x40#8, 0x41#8, 0x42#8, 0x50#8, 0x6A#8, 0x6B#8, 0x6C#8, 0x6D#8] :=
  ⟨fun opc _ => ⟨⟨opc, true, false, 0, 8, 8, 1⟩, rfl, rfl⟩, ⟨0x01#8, false, false, 0, 8, 0, 0⟩, by decide⟩

theorem witness_AcceptanceCapturesCommand :
    ∃ (s : State) (p : Pins), s.events = [.clk p] ∧ p.rst = false ∧ p.cmdValid = true ∧ s.phase ≠ .busy ∧
      busWf s.cfg p.a = true ∧ busWf s.cfg p.b = true :=
  ⟨{ holding with events := [.clk (offer 0x62 [1] [2])] }, offer 0x62 [1] [2], by decide⟩

theorem witness_OfferWhileBusyIsIgnored :
    ∃ (s : State) (p : Pins), s.events = [.clk p] ∧ p.rst = false ∧ p.cmdValid = true ∧ s.phase = .busy :=
  ⟨{ sample with events := [.clk (offer 0x62 [1] [2])] }, offer 0x62 [1] [2], by decide⟩

theorem witness_ResetEdge : ∃ (s : State) (p : Pins), s.events = [.clk p] ∧ p.rst = true ∧ s.phase = .busy :=
  ⟨{ sample with events := [.clk resetPins] }, resetPins, by decide⟩

theorem witness_ResetStateHoldsNoValue : Output.r0 ≠ .status := by decide

theorem witness_StepRunsDecodedCommand :
    decode sample.cmd = .command (.wordcount 65) ∧ sample.Completing ∧ sample.events = [] ∧
    Pins.idle.rst = false ∧ decodeTableWord 64 0x0000000000410008 = some (.wordcount 65) := by decide

/-- No further cycle to wait, and two. -/
theorem witness_EveryAcceptedCommandCompletes :
    (∃ (s : State) (ps : List Pins), s.phase = .busy ∧ ps.length = s.wait + 1 ∧ s.wait = 0 ∧
      (∀ p ∈ ps, p.rst = false) ∧ s.events = ps.map .clk ++ []) ∧
    ∃ (s : State) (ps : List Pins), s.phase = .busy ∧ ps.length = s.wait + 1 ∧ s.wait = 2 ∧
      (∀ p ∈ ps, p.rst = false) ∧ s.events = ps.map .clk ++ [.read .status] :=
  ⟨⟨{ sample with events := [.clk Pins.idle] }, [Pins.idle], by decide⟩,
    { sample with wait := 2, events := [.clk Pins.idle, .clk (offer 0x62 [] []), .clk Pins.idle, .read .status] },
    [Pins.idle, offer 0x62 [] [], Pins.idle], by decide⟩

theorem witness_ResponseIsStable :
    ∃ (es : List HostEvent) (s : State), es = [.clk Pins.idle, .read .r1] ∧ s.phase = .done ∧
      s.events = es ++ [] ∧ ∀ e ∈ es, (∃ p : Pins, e = .clk p ∧ p.rst = false ∧ p.cmdValid = false) ∨
        ∃ o v, e = .read o ∧ readOutput s o = some v := by
  refine ⟨_, { holding with events := [.clk Pins.idle, .read .r1] }, rfl, rfl, rfl, fun e he => ?_⟩
  simp only [List.mem_cons, List.not_mem_nil, or_false] at he
  rcases he with rfl | rfl
  · exact .inl ⟨_, rfl, rfl, rfl⟩
  · exact .inr ⟨_, _, rfl, rfl⟩

/-- Every output, with and without a value. -/
theorem witness_ReadsGiveValidOutputsOnly :
    (holding.r0v = true ∧ holding.r1v = true ∧ holding.phase = .done ∧ sample.r0v = false ∧
      sample.r1v = false ∧ sample.cov = false ∧ sample.phase ≠ .done) ∧
    { holding with cov := true, events := [.read .co] }.cov = true := by decide

theorem witness_ResponseDependsOnlyOnCapture :
    ∃ s t : State, s.cfg = t.cfg ∧ s.cmd = t.cmd ∧ s.a = t.a ∧ s.b = t.b ∧ s.phase ≠ t.phase ∧ s.r0 ≠ t.r0 :=
  ⟨sample, { sample with phase := .done, r0 := bus [7] }, by decide⟩

theorem witness_ErrorProducesNoOutput :
    ∃ s t : State, runCaptured s = .next t ∧ t.st = .error .indexError :=
  ⟨ready 0x0002000000480001 [0x1234] [], _, rfl, by decide⟩

theorem witness_WidthMismatchCommands :
    (widthOk sample.cfg 8 = true ∧ widthOk sample.cfg 9 = true ∧ (9 : Field16) ≠ 8) ∧
    ∃ t, exec (.eq 8 9) sample = .next t ∧ t.st = .error .widthMismatch :=
  ⟨by decide, _, rfl, by decide⟩

theorem witness_ProducedOutputs :
    (∃ t, exec (.split 8 3) sample = .next t ∧ t.st = .ok) ∧ widthOk sample.cfg 192 = true :=
  ⟨⟨_, rfl, by decide⟩, by decide⟩

/-- The first and the last limb of 72 bits, and the first index outside. -/
theorem witness_LimbReadAndWrite :
    widthOk sample.cfg 72 = true ∧ (0 : Field16).toNat < wc sample.cfg 72 ∧
      (1 : Field16).toNat < wc sample.cfg 72 ∧ wc sample.cfg 72 ≤ (2 : Field16).toNat := by decide

theorem witness_BitReadAndWrite :
    widthOk sample.cfg 8 = true ∧ (7 : Field16).toNat < (8 : Field16).toNat ∧
      (8 : Field16).toNat ≤ (8 : Field16).toNat := by decide

theorem witness_ConcatAndSplit :
    widthOk sample.cfg 8 = true ∧ widthOk sample.cfg 192 = true ∧ 1 ≤ (7 : Field16).toNat ∧
      (7 : Field16).toNat < (8 : Field16).toNat ∧ (0 : Field16).toNat = 0 ∧
      (8 : Field16).toNat ≤ (8 : Field16).toNat := by decide

theorem witness_WidthCountAndMask :
    widthOk sample.cfg 72 = true ∧ (1 : Field16).toNat < wc sample.cfg 72 ∧
      wc sample.cfg 72 ≤ (2 : Field16).toNat := by decide

theorem witness_NativeAndLimbConstructors :
    widthOk sample.cfg 8 = true ∧ (24 : Field16).toNat ≤ sample.cfg.nbus ∧
      sample.cfg.nbus < (25 : Field16).toNat := by decide

/-- The characters "101", a bad character, and one count too many. -/
theorem witness_BitStringConstructorAndEncoding :
    widthOk unit 8 = true ∧ (192 : Field16).toNat ≤ unit.charcap ∧ unit.charcap < (193 : Field16).toNat ∧
      (∀ j < 3, byteAt unit (bus [0x313031]) j = 0x30 ∨ byteAt unit (bus [0x313031]) j = 0x31) ∧
      ∃ j < 3, byteAt unit (bus [0x317A31]) j ≠ 0x30 ∧ byteAt unit (bus [0x317A31]) j ≠ 0x31 := by decide

/-- Amounts below, at and above the width. -/
theorem witness_ShiftResults :
    widthOk sample.cfg 8 = true ∧ ¬ (8 : Field16).toNat ≤ (7 : Field16).toNat ∧
      (8 : Field16).toNat ≤ (8 : Field16).toNat := by decide

theorem witness_RotationResults :
    widthOk sample.cfg 8 = true ∧ (7 : Field16).toNat < (8 : Field16).toNat ∧
      (8 : Field16).toNat ≤ (8 : Field16).toNat := by decide

theorem witness_LimbShiftDatapath : 1 ≤ 130 ∧ 130 ≤ unit.wmax ∧ 3 < 2 ^ 130 ∧ 65 < 130 := by decide

theorem witness_ShiftLaws :
    1 ≤ 8 ∧ 0x41 < 2 ^ 8 ∧ (0 < 7 ∧ 7 < 8) ∧ 3 + 4 < 8 ∧ 2 ≤ 8 ∧ (0x41).testBit (8 - 1) = false := by decide

theorem witness_AddAndSubWrap :
    widthOk sample.cfg 8 = true ∧ widthOk sample.cfg 9 = true ∧ (9 : Field16) ≠ 8 := by decide

theorem witness_ExpandingAddAndSub : widthOk sample.cfg 3 = true ∧ widthOk sample.cfg 192 = true := by decide

/-- A limb of B all ones with carry-in 1 (90_conflicts.md C5). -/
theorem witness_RippleCarryIsModularSum :
    [0, 1].length = [255, 255].length ∧ (∀ l ∈ [0, 1], l < 2 ^ 8) ∧ (∀ l ∈ [255, 255], l < 2 ^ 8) ∧
      widthOk sample.cfg 72 = true := by decide

/-- The widths of the CAST clause at their greatest. -/
theorem witness_AddSubLaws :
    widthOk sample.cfg 1 = true ∧ widthOk sample.cfg 192 = true ∧ widthOk sample.cfg 191 = true ∧
      (192 : Field16).toNat = (191 : Field16).toNat + 1 := by decide

theorem witness_SchoolbookProductIsExact : widthOk sample.cfg 8 = true ∧ widthOk sample.cfg 192 = true := by decide

/-- The most negative operands among them. -/
theorem witness_BoothProductIsExact :
    widthOk sample.cfg 4 = true ∧ widthOk sample.cfg 1 = true ∧
      sval 4 ((ready 0 [0x8] []).opA 4) = -8 := by decide

theorem witness_KaratsubaProductIsExact : widthOk sample.cfg 8 = true ∧ widthOk sample.cfg 100 = true := by decide

theorem witness_MulAndExpmul :
    widthOk sample.cfg 8 = true ∧ widthOk sample.cfg 9 = true ∧ (9 : Field16) ≠ 8 := by decide

theorem witness_MultipliersAgree : widthOk sample.cfg 1 = true ∧ widthOk sample.cfg 192 = true := by decide

/-- A denominator that is not 0, and one whose WB low bits are 0. -/
theorem witness_RestoringDivision :
    widthOk sample.cfg 8 = true ∧ sample.opB 8 ≠ 0 ∧ (ready 0 [5] [0x100]).opB 8 = 0 := by decide

theorem witness_DivAndRemProjectRdiv :
    widthOk sample.cfg 8 = true ∧ sample.opB 8 ≠ 0 ∧ (ready 0 [5] [0x100]).opB 8 = 0 := by decide

/-- Each of the four fast paths. -/
theorem witness_DivisionFastPaths :
    (1 ≤ 9 ∧ 9 < 2 ^ 8 ∧ fastPath 9 9 = some (1, 0)) ∧ (0 < 2 ^ 8 ∧ fastPath 0 9 = some (0, 0)) ∧
      (5 < 9 ∧ fastPath 5 9 = some (0, 5)) ∧ 200 < 2 ^ 8 ∧ fastPath 200 1 = some (200, 0) := by decide

/-- Ordinary operands, and the quotient that wraps. -/
theorem witness_DivisionInvariant :
    (widthOk sample.cfg 8 = true ∧ sample.opB 8 ≠ 0 ∧
      ¬ (sval 8 (sample.opA 8) = -2 ^ (8 - 1) ∧ sval 8 (sample.opB 8) = -1)) ∧
    (ready 0 [0x80] [0xFF]).opB 8 ≠ 0 ∧ sval 8 ((ready 0 [0x80] [0xFF]).opA 8) = -2 ^ (8 - 1) ∧
      sval 8 ((ready 0 [0x80] [0xFF]).opB 8) = -1 := by decide

/-- Growing, keeping and shrinking. -/
theorem witness_CastGrowsAndShrinks :
    widthOk sample.cfg 8 = true ∧ widthOk sample.cfg 16 = true ∧
      (8 : Field16).toNat ≤ (16 : Field16).toNat ∧ (8 : Field16).toNat ≤ (8 : Field16).toNat ∧
      (8 : Field16).toNat < (9 : Field16).toNat := by decide

theorem witness_CastRoundTrip :
    widthOk sample.cfg 8 = true ∧ widthOk sample.cfg 16 = true ∧ widthOk sample.cfg 192 = true ∧
      (8 : Field16).toNat ≤ (16 : Field16).toNat ∧ (16 : Field16).toNat ≤ (192 : Field16).toNat := by decide

theorem witness_BitwiseResults :
    widthOk sample.cfg 8 = true ∧ widthOk sample.cfg 9 = true ∧ (9 : Field16) ≠ 8 := by decide

theorem witness_ComparisonResults :
    widthOk sample.cfg 8 = true ∧ widthOk sample.cfg 9 = true ∧ (9 : Field16) ≠ 8 := by decide

theorem witness_ComparisonLaws : widthOk sample.cfg 1 = true ∧ widthOk sample.cfg 192 = true := by decide

/-- A 72-bit value: limbs below and from the word count on, and a well-formed bus. -/
theorem witness_ProducedValueOnBus :
    5 < 2 ^ 72 ∧ (1 < unit.nbus ∧ 1 < wc unit 72) ∧ wc unit 72 ≤ 2 ∧ 72 ≤ unit.nbus * unit.L ∧
      busWf unit sample.a = true ∧ 191 < unit.charcap := by decide

theorem witness_BitStringRoundTrip :
    ∃ s t u : State, widthOk s.cfg 8 = true ∧ exec (.tobits 8) s = .next t ∧ u.cfg = s.cfg ∧ u.a = t.r0 :=
  ⟨sample, _, { sample with a := busOf unit (busNat 8 (bitChars (sample.opA 8) 8)) (8 * 8) }, by decide, rfl,
    rfl, rfl⟩

/-- The widths of the associativity clause at their greatest, 3 + 189 = 189 + 3 = 192. -/
theorem witness_SplitConcatRoundTrip_widths :
    widthOk sample.cfg 3 = true ∧ widthOk sample.cfg 189 = true ∧ widthOk sample.cfg 192 = true ∧
      (192 : Field16).toNat = (3 : Field16).toNat + (189 : Field16).toNat ∧
      (192 : Field16).toNat = (189 : Field16).toNat + (3 : Field16).toNat := by decide

theorem witness_SplitConcatRoundTrip :
    ∃ s t u : State, widthOk s.cfg 8 = true ∧ 1 ≤ (3 : Field16).toNat ∧
      (3 : Field16).toNat < (8 : Field16).toNat ∧ exec (.split 8 3) s = .next t ∧ u.cfg = s.cfg ∧
      u.a = t.r1 ∧ u.b = t.r0 :=
  ⟨sample, _, { sample with
    a := busOf unit (sample.opA 8 % 2 ^ 3) 3, b := busOf unit (sample.opA 8 / 2 ^ 3) (8 - 3) },
    by decide, by decide, by decide, rfl, rfl, rfl, rfl⟩

theorem witness_PseudoCommands :
    (8 : Field16).toNat ≤ (16 : Field16).toNat ∧ (8 : Field16).toNat < (16 : Field16).toNat ∧
      widthOk sample.cfg 8 = true := by decide

theorem witness_StepKeepsWellFormed : ∃ s t : State, s.Wf ∧ step s = .next t := ⟨sample, _, sample_wf, rfl⟩

theorem witness_ResetIsWellFormed : unit.Legal ∧ Config.Legal { limb := .w8, wmax := 1 } ∧
    Config.Legal { limb := .w64, wmax := 65535 } := by decide

/-- A read that faults, and a completion that changes STATUS. -/
theorem witness_OnlyTheseEventsChangeOutputs :
    (∃ (s : State) (f : Fault), step s = .fault f ∧ s.events = [.read .co]) ∧
    (∃ s t : State, step s = .next t ∧ statusWord t ≠ statusWord s ∧ s.events = [] ∧ s.Completing) ∧
    ∃ s t : State, step s = .next t ∧ statusWord t ≠ statusWord s ∧ s.events = [.clk Pins.idle] ∧
      s.Completing :=
  ⟨⟨{ holding with events := [.read .co] }, _, rfl, rfl⟩, ⟨{ sample with events := [] }, _, rfl, by decide⟩,
    { sample with events := [.clk Pins.idle] }, _, rfl, by decide⟩

theorem witness_AndOrLaws :
    widthOk sample.cfg 1 = true ∧ widthOk sample.cfg 192 = true ∧
      Instr.and 192 192 ∈ [Instr.and 192 192, .or 192 192] ∧ Instr.or 1 1 ∈ [Instr.and 1 1, .or 1 1] := by decide

end Sys2Proof.Tests
end

section
/-! PROOFS. The family of 00_scope.md: what a completing command leaves unchanged (O17), what a value
on a result bus looks like (O53), and the reset state (O58). -/

namespace Sys2Proof.Machine

/-! ## Completion (R15, R27, R303) -/

/-- What completion leaves to the state: every output it did not produce. -/
theorem State.respond_keeps_unproduced (s : State) (r : Response) :
    ((s.respond r).r0v = false → (s.respond r).r0 = s.r0 ∧ (s.respond r).rw0 = s.rw0) ∧
    ((s.respond r).r1v = false → (s.respond r).r1 = s.r1 ∧ (s.respond r).rw1 = s.rw1) ∧
    ((s.respond r).cov = false → (s.respond r).co = s.co) := by
  cases r with
  | raise e => simp
  | ok o =>
    obtain ⟨r0, r1, co⟩ := o
    refine ⟨?_, ?_, ?_⟩
    · cases r0 with
      | none => exact fun _ => ⟨rfl, rfl⟩
      | some p => exact nofun
    · cases r1 with
      | none => exact fun _ => ⟨rfl, rfl⟩
      | some p => exact nofun
    · cases co with
      | none => exact fun _ => rfl
      | some c => exact nofun

/-- Whatever the response, completion ends in DONE and touches nothing but the response registers. -/
theorem State.respond_frame (s : State) (r : Response) :
    (s.respond r).phase = .done ∧ (s.respond r).cfg = s.cfg ∧ (s.respond r).cmd = s.cmd ∧
    (s.respond r).a = s.a ∧ (s.respond r).b = s.b ∧ (s.respond r).wait = s.wait ∧
    (s.respond r).accepted = s.accepted ∧ (s.respond r).events = s.events ∧
    (s.respond r).seen = s.seen := by
  cases r with
  | raise e => simp
  | ok o => simp [State.respond]

/-- Settles O17: every command completes with a response, and completion has the frame. -/
theorem completionFrame : Obligations.CompletionFrame := by
  intro i s
  obtain ⟨r, hr⟩ := exec_responds i s
  obtain ⟨hphase, hcfg, hcmd, ha, hb, hwait, haccepted, hevents, hseen⟩ := s.respond_frame r
  exact ⟨s.respond r, hr, hphase, hcfg, hcmd, ha, hb, hwait, haccepted, hevents, hseen,
    s.respond_keeps_unproduced r⟩

/-! ## A value on a bus (R13, R15, R22, R54) -/

/-- The layout of R15: the fields of the value in its own limbs, 0 in every other. It needs no bound
on the width, unlike `limbAt_busOf`. -/
theorem limbAt_busOf_layout (c : Config) (v w j : Nat) :
    limbAt (busOf c v w) j
      = if j < c.nbus ∧ j < wc c w then bitsAt v (j * c.L) c.L else 0 := by
  by_cases hj : j < c.nbus
  · simp [limbAt, busOf, hj]
  · rw [limbAt_of_le (by simpa [busOf] using hj), if_neg fun h => hj h.1]

/-- R13's sum, for a bus of NBUS limbs. -/
theorem val_eq_sum {c : Config} {x : Bus} (hx : busWf c x = true) (w : Nat) :
    val c x w = (∑ j ∈ Finset.range c.nbus, limbAt x j * 2 ^ (j * c.L)) % 2 ^ w := by
  obtain ⟨hlen, -⟩ := busWf_iff.mp hx
  rw [val, trunc, busNat_eq_sum, hlen]

/-- Settles O53, from the layout of `busOf` and R13's reading of a bus. -/
theorem producedValueOnBus : Obligations.ProducedValueOnBus := by
  refine ⟨fun c v w hv => ⟨busWf_busOf c v w, fun j hj hwc => ?_, fun j hwc => ?_,
    busNat_busOf_lt hv, val_busOf hv⟩, fun c x hx => ⟨val_eq_sum hx, fun j _ => ?_⟩⟩
  · rw [limbAt_busOf_layout, if_pos ⟨hj, hwc⟩]
  · rw [limbAt_busOf_layout, if_neg fun h => hwc.not_gt h.2]
  · exact byteAt_eq_bitsAt hx j

/-! ## Reset (R6, R7, R39) -/

@[simp] theorem statusWord_resetOf (c : Config) : statusWord (State.resetOf c) = 0 := rfl

@[simp] theorem rwWord_resetOf (c : Config) : rwWord (State.resetOf c) = 0 := by
  simp [rwWord, State.resetOf]

/-- After reset nothing is valid, the buses are NBUS limbs of 0, and STATUS and RW are 0. -/
theorem State.resetOf_wf {c : Config} (hc : c.Legal) : (State.resetOf c).Wf where
  legal := hc
  busA := busWf_replicate_zero c
  busB := busWf_replicate_zero c
  busR0 := busWf_replicate_zero c
  busR1 := busWf_replicate_zero c
  valid := by simp [State.resetOf]
  resultR0 := nofun
  resultR1 := nofun
  idle _ := ⟨statusWord_resetOf c, rwWord_resetOf c⟩

/-- Settles O58; that the buses hold 0 is the model's choice (log entry 4). -/
theorem resetIsWellFormed : Obligations.ResetIsWellFormed :=
  ⟨by decide, fun _ => State.resetOf_wf⟩

end Sys2Proof.Machine
end

section
/-! PROOFS. The family of 10_state.md: the invariant every step keeps (O57), acceptance (O7), the
outputs a command produces (O24), what can change them (O59), the reset state (O10), the host's
reads (O14) and the layout of STATUS and RW (O15). -/

namespace Sys2Proof.Machine

variable {s t : State}

/-! ## The invariant (R22 to R32, R39) -/

/-- Well-formedness does not look at the model's own fields: the wait, the counter, the host's
events and what it has read. -/
theorem State.Wf.withBookkeeping (h : s.Wf) (wait accepted : Nat) (events : List HostEvent)
    (seen : List (Output × ReadValue)) :
    ({ s with wait, accepted, events, seen } : State).Wf :=
  ⟨h.legal, h.busA, h.busB, h.busR0, h.busR1, h.valid, h.resultR0, h.resultR1, h.idle⟩

theorem State.Wf.took (h : s.Wf) (rest : List HostEvent) : (s.took rest).Wf :=
  h.withBookkeeping s.wait s.accepted rest s.seen

theorem State.Wf.waited (h : s.Wf) : s.waited.Wf :=
  h.withBookkeeping (s.wait - 1) s.accepted s.events s.seen

theorem State.Wf.resetUnit (h : s.Wf) : s.resetUnit.Wf :=
  (State.resetOf_wf h.legal).withBookkeeping 0 s.accepted s.events s.seen

theorem State.Wf.accept (h : s.Wf) (p : Pins) : (s.accept p).Wf where
  legal := h.legal
  busA := busWf_portBus s.cfg p.a
  busB := busWf_portBus s.cfg p.b
  busR0 := h.busR0
  busR1 := h.busR1
  valid := by simp
  resultR0 := nofun
  resultR1 := nofun
  idle := nofun

/-- A value in its width, put on a bus with that width in RW, satisfies the masking invariant. -/
theorem resultWf_busOf (c : Config) {v w : Nat} (h : v < 2 ^ w ∧ 1 ≤ w ∧ w < 2 ^ 32) :
    resultWf c (busOf c v w) (BitVec.ofNat 32 w) := by
  obtain ⟨hv, hpos, hw⟩ := h
  rw [resultWf, BitVec.toNat_ofNat, Nat.mod_eq_of_lt hw]
  exact ⟨hpos, busNat_busOf_lt hv⟩

theorem State.Wf.failed (h : s.Wf) (e : ErrorCode) : (s.failed e).Wf where
  legal := h.legal
  busA := h.busA
  busB := h.busB
  busR0 := h.busR0
  busR1 := h.busR1
  valid := by simp
  resultR0 := nofun
  resultR1 := nofun
  idle := nofun

/-- A completion with outputs in their widths: a register either takes such a value or keeps its
bus, and only in the first case it is valid. -/
theorem State.Wf.completed (h : s.Wf) {o : Outputs} (h0 : OutputWf o.r0) (h1 : OutputWf o.r1) :
    (s.completed o).Wf := by
  obtain ⟨r0, r1, co⟩ := o
  refine ⟨h.legal, h.busA, h.busB, ?_, ?_, fun _ => ⟨rfl, rfl⟩, ?_, ?_, nofun⟩
  · cases r0 with
    | none => exact h.busR0
    | some p => exact busWf_busOf s.cfg p.1 p.2
  · cases r1 with
    | none => exact h.busR1
    | some p => exact busWf_busOf s.cfg p.1 p.2
  · cases r0 with
    | none => exact nofun
    | some p => exact fun _ => resultWf_busOf s.cfg (h0 p.1 p.2 rfl)
  · cases r1 with
    | none => exact nofun
    | some p => exact fun _ => resultWf_busOf s.cfg (h1 p.1 p.2 rfl)

theorem State.Wf.respond (h : s.Wf) {r : Response} (hr : ResponseWf r) : (s.respond r).Wf := by
  cases r with
  | ok o => exact h.completed (hr o rfl).1 (hr o rfl).2
  | raise e => exact h.failed e

/-- The captured word completes with a response in its widths, whether or not it decodes. -/
theorem runCaptured_responseWf (s : State) :
    ∃ r, runCaptured s = .next (s.respond r) ∧ ResponseWf r := by
  rw [runCaptured]
  split
  · exact exec_responseWf _ s
  · exact ⟨_, rfl, .raise _⟩

theorem State.Wf.clockEdge {p : Pins} (h : s.Wf) (ht : clockEdge p s = .next t) : t.Wf := by
  rcases clockEdge_cases p s with ⟨-, e⟩ | ⟨-, -, -, e⟩ | ⟨-, -, -, e⟩ | ⟨-, -, -, e⟩ | ⟨-, -, -, e⟩
    <;> rw [e] at ht
  · cases ht
    exact h.resetUnit
  · cases ht
    exact h.accept p
  · obtain ⟨r, er, hr⟩ := runCaptured_responseWf s
    rw [er] at ht
    cases ht
    exact h.respond hr
  · cases ht
    exact h.waited
  · cases ht
    exact h

theorem State.Wf.hostRead {o : Output} (h : s.Wf) (ht : hostRead s o = .next t) : t.Wf := by
  rcases hostRead_cases s o with ⟨v, -, e⟩ | ⟨-, e⟩ <;> rw [e] at ht
  · cases ht
    exact h.withBookkeeping s.wait s.accepted s.events ((o, v) :: s.seen)
  · cases ht

/-- A step is an idle edge, an edge the host gives, or one of its reads (log entry 2). -/
theorem step_cases (s : State) :
    s.events = [] ∧ step s = clockEdge Pins.idle s ∨
    (∃ p rest, s.events = .clk p :: rest ∧ step s = clockEdge p (s.took rest)) ∨
    ∃ o rest, s.events = .read o :: rest ∧ step s = hostRead (s.took rest) o := by
  rcases he : s.events with _ | ⟨_ | _, rest⟩
  · exact .inl ⟨rfl, step_nil he⟩
  · exact .inr (.inl ⟨_, rest, rfl, step_clk he⟩)
  · exact .inr (.inr ⟨_, rest, rfl, step_read he⟩)

/-- Settles O57: each thing a step can do (reset, acceptance, completion, waiting, a read) keeps the
invariant. -/
theorem stepKeepsWellFormed : Obligations.StepKeepsWellFormed := by
  intro s t h ht
  rcases step_cases s with ⟨-, e⟩ | ⟨p, rest, -, e⟩ | ⟨o, rest, -, e⟩ <;> rw [e] at ht
  · exact h.clockEdge ht
  · exact (h.took rest).clockEdge ht
  · exact (h.took rest).hostRead ht

/-! ## What can change an output (R38, R58, R309, R403, R406) -/

/-- STATUS, RW, R0 and R1 stand as before. -/
def State.SameOutputs (s t : State) : Prop :=
  statusWord t = statusWord s ∧ rwWord t = rwWord s ∧ t.r0 = s.r0 ∧ t.r1 = s.r1

/-- An edge resets, accepts, completes, or leaves every output as it was. -/
theorem clockEdge_outputs (p : Pins) (s : State) :
    ∃ t, clockEdge p s = .next t ∧ t.cfg = s.cfg ∧
      ((p.rst = true ∨ p.cmdValid = true ∧ cmdReady s p.rst = true ∨ s.Completing) ∨
        s.SameOutputs t) := by
  rcases clockEdge_cases p s with ⟨hr, e⟩ | ⟨hr, hv, hp, e⟩ | ⟨-, hp, hw, e⟩ | ⟨-, -, -, e⟩ |
    ⟨-, -, -, e⟩ <;> rw [e]
  · exact ⟨_, rfl, rfl, .inl (.inl hr)⟩
  · exact ⟨_, rfl, rfl, .inl (.inr (.inl ⟨hv, by simp [cmdReady, hp, hr]⟩))⟩
  · obtain ⟨r, er⟩ := runCaptured_responds s
    exact ⟨_, er, (s.respond_frame r).2.1, .inl (.inr (.inr ⟨hp, hw⟩))⟩
  · exact ⟨_, rfl, rfl, .inr ⟨rfl, rfl, rfl, rfl⟩⟩
  · exact ⟨_, rfl, rfl, .inr ⟨rfl, rfl, rfl, rfl⟩⟩

/-- A read leaves every output as it was, or faults. -/
theorem hostRead_outputs (s : State) (o : Output) :
    (∃ t, hostRead s o = .next t ∧ t.cfg = s.cfg ∧ s.SameOutputs t) ∨
      hostRead s o = .fault (.noValue o) := by
  rcases hostRead_cases s o with ⟨v, -, e⟩ | ⟨-, e⟩
  · exact .inl ⟨_, e, rfl, rfl, rfl, rfl, rfl⟩
  · exact .inr e

theorem State.SameOutputs.not_changed (h : s.SameOutputs t) :
    ¬(statusWord t ≠ statusWord s ∨ rwWord t ≠ rwWord s ∨ t.r0 ≠ s.r0 ∨ t.r1 ≠ s.r1) := by
  obtain ⟨hst, hrw, h0, h1⟩ := h
  simp [hst, hrw, h0, h1]

/-- Settles O59: an edge always has a next state, and it changes an output only by one of the three
events; a read changes none, and alone can fault. -/
theorem onlyTheseEventsChangeOutputs : Obligations.OnlyTheseEventsChangeOutputs := by
  intro s
  rcases step_cases s with ⟨he, e⟩ | ⟨p, rest, he, e⟩ | ⟨o, rest, he, e⟩ <;> rw [e]
  · obtain ⟨t, et, hcfg, hout⟩ := clockEdge_outputs Pins.idle s
    rw [et]
    refine ⟨by simp, by simp, fun _ h => ?_⟩
    cases h
    refine ⟨hcfg, fun hne => .inl ⟨he, ?_⟩⟩
    rcases hout.resolve_right fun same => same.not_changed hne with hr | ⟨hv, -⟩ | hc
    · exact absurd hr (by decide)
    · exact absurd hv (by decide)
    · exact hc
  · obtain ⟨t, et, hcfg, hout⟩ := clockEdge_outputs p (s.took rest)
    rw [et]
    refine ⟨by simp, by simp, fun _ h => ?_⟩
    cases h
    exact ⟨hcfg, fun hne =>
      .inr ⟨p, rest, he, hout.resolve_right fun same => same.not_changed hne⟩⟩
  · rcases hostRead_outputs (s.took rest) o with ⟨t, et, hcfg, same⟩ | et <;> rw [et]
    · refine ⟨by simp, by simp, fun _ h => ?_⟩
      cases h
      exact ⟨hcfg, fun hne => absurd hne (State.SameOutputs.not_changed (s := s) same)⟩
    · refine ⟨by simp, fun _ h => ?_, by simp⟩
      cases h
      exact ⟨o, rest, he, rfl⟩

/-! ## STATUS and RW (R24, R25, R30, R31) -/

/-- The STATUS word as its bits, from bit 0 up: six flags, bits 6 and 7, and the code from bit 8. -/
theorem statusWord_eq_bits (s : State) :
    statusWord s = BitVec.ofNat 64 (Nat.bit (busyBit s) (Nat.bit (doneBit s) (Nat.bit s.co
      (Nat.bit s.r0v (Nat.bit s.r1v (Nat.bit s.cov (Nat.bit false (Nat.bit false s.st.code)))))))) := by
  simp only [statusWord, Nat.bit_val, Bool.toNat_false]
  congr 1
  ring

theorem StatusCode.code_lt (c : StatusCode) : c.code < 2 ^ 3 := by
  rcases c with _ | e
  · decide
  · cases e <;> decide

/-- What each bit of STATUS is (R25). -/
theorem getLsbD_statusWord (s : State) (i : Nat) :
    (statusWord s).getLsbD i = match i with
      | 0 => busyBit s
      | 1 => doneBit s
      | 2 => s.co
      | 3 => s.r0v
      | 4 => s.r1v
      | 5 => s.cov
      | 6 => false
      | 7 => false
      | k + 8 => s.st.code.testBit k := by
  rw [statusWord_eq_bits, BitVec.getLsbD_ofNat]
  rcases i with _ | _ | _ | _ | _ | _ | _ | _ | k
  case succ.succ.succ.succ.succ.succ.succ.succ =>
    simp only [Nat.testBit_bit_succ]
    rcases Nat.lt_or_ge k 3 with hk | hk
    · rw [decide_eq_true (by omega), Bool.true_and]
    · rw [testBit_of_lt (StatusCode.code_lt _) hk, Bool.and_false]
  all_goals simp only [Nat.testBit_bit_succ, Nat.testBit_bit_zero]; rfl

/-- Settles O15, bit by bit. -/
theorem statusAndWidthRegisterLayout : Obligations.StatusAndWidthRegisterLayout := by
  intro s
  refine ⟨getLsbD_statusWord s 0, getLsbD_statusWord s 1, getLsbD_statusWord s 2,
    getLsbD_statusWord s 3, getLsbD_statusWord s 4, getLsbD_statusWord s 5,
    getLsbD_statusWord s 6, getLsbD_statusWord s 7, ?_, fun k hk => ?_, ?_, ?_⟩
  · have hcode : (statusWord s).extractLsb' 8 3 = BitVec.ofNat 3 s.st.code := by
      refine BitVec.eq_of_getLsbD_eq fun i _ => ?_
      rw [BitVec.getLsbD_extractLsb', BitVec.getLsbD_ofNat, Nat.add_comm, getLsbD_statusWord]
    rw [hcode]
    rcases s.st with _ | e
    · rfl
    · cases e <;> rfl
  · obtain ⟨k, rfl⟩ : ∃ j, k = j + 8 := ⟨k - 8, by omega⟩
    rw [getLsbD_statusWord]
    exact testBit_of_lt (StatusCode.code_lt _) (by omega)
  · exact BitVec.extractLsb'_append_eq_right
  · exact BitVec.extractLsb'_append_eq_left

/-! ## Acceptance (R26, R404) -/

/-- BUSY becomes 1; CO and the code keep their bits; every other bit is 0 (R26). -/
theorem statusWord_accept (s : State) (p : Pins) :
    statusWord (s.accept p) = 1 ||| (statusWord s &&& 0x704#64) := by
  refine BitVec.eq_of_getLsbD_eq fun i hi => ?_
  rw [BitVec.getLsbD_or, BitVec.getLsbD_and, getLsbD_statusWord, getLsbD_statusWord]
  rcases i with _ | _ | _ | _ | _ | _ | _ | _ | k
  case succ.succ.succ.succ.succ.succ.succ.succ =>
    rcases Nat.lt_or_ge k 3 with hk | hk
    · interval_cases k <;> simp
    · simp [testBit_of_lt (StatusCode.code_lt s.st) hk]
  all_goals simp [busyBit, doneBit]

/-- Before DONE and with every valid bit 0 only STATUS can be read (R25, R29). -/
theorem readOutput_eq_none (hp : s.phase ≠ .done) (h0 : s.r0v = false) (h1 : s.r1v = false)
    (hc : s.cov = false) {o : Output} (ho : o ≠ .status) : readOutput s o = none := by
  cases o with
  | status => exact absurd rfl ho
  | st => exact if_neg hp
  | co => simp [readOutput, hc]
  | r0 | rw0 => simp [readOutput, h0]
  | r1 | rw1 => simp [readOutput, h1]

theorem clockEdge_accept {p : Pins} (hr : p.rst = false) (hv : p.cmdValid = true)
    (hp : s.phase ≠ .busy) : clockEdge p s = .next (s.accept p) := by
  simp [clockEdge, cmdReady, hr, hv, hp]

/-- Settles O7; the wait is whatever the latency is (log entry 3). -/
theorem acceptanceCapturesCommand : Obligations.AcceptanceCapturesCommand := by
  intro s p rest he hr hv hp
  have hstep : step s = .next ((s.took rest).accept p) :=
    (step_clk he).trans (clockEdge_accept hr hv hp)
  refine ⟨by simp [cmdReady, hr, hp], portBus_of_wf, portBus_of_wf, ⟨_, hstep⟩, fun t ht => ?_⟩
  rw [hstep] at ht
  cases ht
  exact ⟨statusWord_accept _ p, fun o ho => readOutput_eq_none (by simp) rfl rfl rfl ho⟩

/-! ## Reset (R39, R402) -/

/-- Settles O10; the reference configuration is the model's choice (log entry 1). -/
theorem resetStateHoldsNoValue : Obligations.ResetStateHoldsNoValue :=
  ⟨rfl, fun c => ⟨rfl, statusWord_resetOf c, rwWord_resetOf c, rfl, rfl, rfl, rfl,
    fun _ ho => readOutput_eq_none (by simp [State.resetOf]) rfl rfl rfl ho⟩⟩

/-! ## Reads (R25, R29, R58) -/

theorem readOutput_took (s : State) (rest : List HostEvent) (o : Output) :
    readOutput (s.took rest) o = readOutput s o := by cases o <;> rfl

theorem step_read_value {o : Output} {rest : List HostEvent} {v : ReadValue}
    (he : s.events = .read o :: rest) (hv : readOutput s o = some v) :
    step s = .next { s with events := rest, seen := (o, v) :: s.seen } := by
  rw [step_read he, hostRead, readOutput_took, hv]
  rfl

theorem step_read_fault {o : Output} {rest : List HostEvent} (he : s.events = .read o :: rest)
    (hv : readOutput s o = none) : step s = .fault (.noValue o) := by
  rw [step_read he, hostRead, readOutput_took, hv]

/-- Settles O14: an output holds its register exactly under its valid bit; reads of ST and STATUS and
the log `seen` are the model's reading (log entries 7 and 11). -/
theorem readsGiveValidOutputsOnly : Obligations.ReadsGiveValidOutputsOnly := by
  intro s rest o he ok v h
  have hread : readOutput s o = if ok then some v else none := by
    cases o with
    | status | st | co | r0 | rw0 | r1 | rw1 =>
      obtain ⟨rfl, rfl⟩ := h
      simp [readOutput]
  exact ⟨fun hok => step_read_value he (hread.trans (if_pos hok)),
    fun hok => step_read_fault he (hread.trans (if_neg (by simp [hok])))⟩

/-! ## Which outputs a command produces (R28, R77) -/

/-- Which outputs hold a value. -/
structure Produced where
  r0 : Bool
  r1 : Bool
  co : Bool

/-- The outputs a response writes. -/
def Outputs.produced (o : Outputs) : Produced := ⟨o.r0.isSome, o.r1.isSome, o.co.isSome⟩

/-- The outputs a command writes when it ends with OK (R28, R77). -/
def producedBy : Instr → Produced
  | .bit _ _ | .eq _ _ | .ne _ _ | .lt _ _ _ | .le _ _ _ | .gt _ _ _ | .ge _ _ _ =>
    ⟨false, false, true⟩
  | .rcl _ _ _ | .rcr _ _ _ => ⟨true, false, true⟩
  | .split _ _ | .rdiv _ _ _ => ⟨true, true, false⟩
  | _ => ⟨true, false, false⟩

/-- A response that is OK writes exactly these outputs. -/
def Response.Produces (r : Response) (k : Produced) : Prop := ∀ o, r = .ok o → o.produced = k

theorem Response.Produces.raise (e : ErrorCode) (k : Produced) : (Response.raise e).Produces k := nofun

theorem Response.Produces.ok (o : Outputs) : (Response.ok o).Produces o.produced := by
  rintro _ ⟨⟩
  rfl

/-- A check that raises adds no output. -/
theorem Response.Produces.guard {r : Response} {k : Produced} (h : r.Produces k) (c : Prop)
    [Decidable c] (e : ErrorCode) : (if c then .raise e else r : Response).Produces k := by
  split
  · exact .raise e k
  · exact h

theorem Response.Produces.usingWidth {wa : Field16} {f : Nat → Response} {k : Produced}
    (h : ∀ w, (f w).Produces k) : (usingWidth s wa f).Produces k := by
  rcases usingWidth_cases s wa f with e | ⟨-, e⟩ <;> rw [e]
  · exact .raise _ k
  · exact h _

theorem Response.Produces.usingWidths {wa wb : Field16} {f : Nat → Nat → Response} {k : Produced}
    (h : ∀ w v, (f w v).Produces k) : (usingWidths s wa wb f).Produces k := by
  rcases usingWidths_cases s wa wb f with e | ⟨-, e⟩ <;> rw [e]
  · exact .raise _ k
  · exact h _ _

/-- Every command writes the outputs of its column, or raises. -/
theorem exec_produced (i : Instr) (s : State) :
    ∃ r, exec i s = .next (s.respond r) ∧ r.Produces (producedBy i) := by
  cases i with
  | width | wordcount | fromnat | tobits | shl | shr | sar | rol | ror | rcl | rcr | not =>
    exact ⟨_, rfl, .usingWidth fun _ => .ok _⟩
  | word | setword | bit | setbit | split | wordmask | fromlimbs =>
    exact ⟨_, rfl, .usingWidth fun _ => .guard (.ok _) _ _⟩
  | frombits =>
    refine ⟨_, rfl, .usingWidth fun _ => .guard ?_ _ _⟩
    split
    · exact .ok _
    · exact .raise _ _
  | concat | expadd | expsub | smul | bmul | kmul | expmul | cast =>
    exact ⟨_, rfl, .usingWidths fun _ _ => .ok _⟩
  | add | sub | mul | and | or | eq | ne | lt | le | gt | ge | rdiv | div | rem =>
    exact ⟨_, rfl, .usingWidths fun _ _ => .guard (.ok _) _ _⟩

/-- The next state of a command that ends with OK has the valid bits of its column. -/
theorem exec_valid_bits {i : Instr} (h : exec i s = .next t) (hok : t.st = .ok) :
    (⟨t.r0v, t.r1v, t.cov⟩ : Produced) = producedBy i := by
  obtain ⟨r, hr, hp⟩ := exec_produced i s
  rw [hr] at h
  cases h
  cases r with
  | ok o => exact hp o rfl
  | raise e => cases hok

theorem add_carry_lt {w a b : Nat} (ha : a < 2 ^ w) (hb : b < 2 ^ w) (c : Bool) :
    a + b + c.toNat < 2 ^ (w + 1) := by
  have hc := Bool.toNat_le c
  rw [pow_succ]
  omega

/-- EXPADD.u at one width is the exact sum: one more bit holds it (R162). -/
theorem expaddValue_unsigned_same {w a b : Nat} (ha : a < 2 ^ w) (hb : b < 2 ^ w) (c : Bool) :
    expaddValue .unsigned w w a b c = a + b + c.toNat := by
  rw [expaddValue, max_self]
  exact trunc_of_lt (add_carry_lt ha hb c)

theorem exec_expadd_unsigned_same {wa : Field16} (hw : widthOk s.cfg wa = true) (ci : Bool) :
    exec (.expadd .unsigned wa wa ci) s
      = .next (s.gaveR0 (s.opA wa + s.opB wa + ci.toNat) (wa.toNat + 1)) := by
  rw [exec, execExpadd, respond, withAB_ok hw hw,
    expaddValue_unsigned_same (val_lt _ _ _) (val_lt _ _ _), max_self, State.respond_r0]

/-- Settles O24: the valid bits are the command's column of `producedBy`, and the carry of EXPADD.u
is the top bit of an exact sum of WA + 1 bits. -/
theorem producedOutputs : Obligations.ProducedOutputs := by
  refine ⟨fun i s t h hok => ?_, fun s wa ci hw =>
    ⟨_, exec_expadd_unsigned_same hw ci,
      testBit_top (by omega) (add_carry_lt (val_lt _ _ _) (val_lt _ _ _) ci)⟩⟩
  obtain ⟨h0, h1, hc⟩ := Produced.mk.inj (exec_valid_bits h hok)
  have : Nonempty Tag := ⟨.unsigned⟩
  rw [h0, h1, hc]
  -- each list in the statement is one column of `producedBy`, read row by row
  cases i <;> simp

end Sys2Proof.Machine
end

section
/-! PROOFS. The family of 30_encoding.md: decoding against encoding (O2, O3), the words that are no
command (O4), bit S (O5), the order of checks (O19), the pseudo-commands (O56), the layout of the
command word (O1), words of the spec (O6) and the step that runs a decoded command (O11). -/

namespace Sys2Proof

variable {f : Fields} {i : Instr} {r : OpcodeRow}

/-! ## The fields a command uses (R71 to R77) -/

/-- The fields with those the commands of this row ignore (columns "-" of R77) set to 0. -/
def OpcodeRow.used (r : OpcodeRow) (f : Fields) : Fields :=
  { f with
    s := if r.s = .ignored then false else f.s
    ci := if r.ci then f.ci else false
    wb := if r.wb then f.wb else 0
    imm := if r.imm then f.imm else 0 }

@[simp] theorem OpcodeRow.used_opc (r : OpcodeRow) (f : Fields) : (r.used f).opc = f.opc := rfl

theorem Field16.and_not_ignored (used : Bool) (x : Field16) :
    x &&& ~~~ (if used then 0#16 else BitVec.allOnes 16) = if used then x else 0#16 := by
  cases used
  · exact BitVec.and_zero
  · exact BitVec.and_allOnes

/-- Clearing the ignored bits of a word clears the ignored fields. -/
theorem OpcodeRow.word_used (r : OpcodeRow) (w : CmdWord) :
    (r.used (Fields.ofWord w)).word = w &&& ~~~ r.ignoredBits := by
  rw [← Fields.word_ofWord (w &&& ~~~ r.ignoredBits), Fields.word_inj, Fields.ofWord_and,
    Fields.ofWord_not, OpcodeRow.ignoredBits, Fields.ofWord_word]
  simp only [Field16.and_not_ignored, OpcodeRow.used, Fields.mk.injEq, BitVec.ofNat_eq_ofNat,
    BitVec.not_zero, BitVec.and_allOnes, true_and, and_true]
  constructor
  · by_cases hs : r.s = .ignored <;> simp [hs]
  · cases r.ci <;> simp

/-- Junk in the ignored bits changes ignored fields only. -/
theorem OpcodeRow.used_junk (r : OpcodeRow) (w junk : CmdWord) :
    r.used (Fields.ofWord (w ||| (junk &&& r.ignoredBits))) = r.used (Fields.ofWord w) := by
  rw [← Fields.word_inj, r.word_used, r.word_used]
  refine BitVec.eq_of_getLsbD_eq fun k hk => ?_
  simp only [BitVec.getLsbD_and, BitVec.getLsbD_or, BitVec.getLsbD_not]
  cases r.ignoredBits.getLsbD k <;> simp

/-- No command ignores a bit of OPC, RSV or WA (R71, R73, R74). -/
theorem OpcodeRow.ignoredBits_and_opc_rsv_wa (r : OpcodeRow) :
    r.ignoredBits &&& 0xFFFFFCFF#64 = 0 := by
  have h : ∀ s ci wb imm : Bool, Fields.word ⟨0, s, !ci, 0, 0, if wb then 0 else BitVec.allOnes 16,
      if imm then 0 else BitVec.allOnes 16⟩ &&& 0xFFFFFCFF#64 = 0 := by decide
  exact h _ r.ci r.wb r.imm

/-! ## The opcode map (R77, R78) -/

theorem rowOf_spec {opc : BitVec 8} (h : rowOf opc = some r) : r ∈ opcodeTable ∧ opc = r.opc :=
  ⟨List.mem_of_find?_eq_some h, (by simpa using List.find?_some h : r.opc = opc).symm⟩

theorem not_reserved_of_mem_table : ∀ r ∈ opcodeTable, Machine.ReservedOpcode r.opc = false := by
  decide

theorem exists_row_of_not_reserved :
    ∀ opc : BitVec 8, Machine.ReservedOpcode opc = false → ∃ r ∈ opcodeTable, r.opc = opc := by
  decide

/-- R78 lists as reserved exactly the numbers without a row. -/
theorem rowOf_eq_none_iff {opc : BitVec 8} :
    rowOf opc = none ↔ Machine.ReservedOpcode opc = true := by
  simp only [rowOf, List.find?_eq_none, beq_iff_eq]
  constructor
  · intro h
    by_contra hres
    obtain ⟨r, hmem, hopc⟩ := exists_row_of_not_reserved opc (Bool.not_eq_true _ ▸ hres)
    exact h r hmem hopc
  · rintro h r hmem rfl
    rw [not_reserved_of_mem_table r hmem] at h
    cases h

/-- A number that means a command has a row. -/
theorem exists_row_of_instrOf (h : instrOf f = some i) : ∃ r, rowOf f.opc = some r := by
  rw [instrOf] at h
  split at h
  case h_43 => cases h
  all_goals
    rename_i hopc
    rw [hopc]
    exact ⟨_, rfl⟩

@[simp] theorem Tag.bit_ofBit (b : Bool) : (Tag.ofBit b).bit = b := by cases b <;> rfl

/-- The opcode map row by row: a row has a command, whose fields are the used ones where RSV and a
fixed S are as they must be, and the decoder looks at no ignored field. -/
theorem decodeFields_of_mem_table : ∀ r ∈ opcodeTable, ∀ f : Fields, f.opc = r.opc →
    (∃ i, instrOf f = some i ∧
      (f.rsv = 0#6 → (fixedTag f.opc).all (· == f.s) = true → fieldsOf i = r.used f)) ∧
    decodeFields (r.used f) = decodeFields f := by
  simp only [opcodeTable, storageRows, shiftRows, addSubRows, mulRows, divCastRows, bitwiseRows,
    List.cons_append, List.nil_append, List.forall_mem_cons, List.not_mem_nil, false_imp_iff,
    implies_true, and_true]
  and_intros
  all_goals
    rintro ⟨opc, s, ci, rsv, wa, wb, imm⟩ (rfl : opc = _)
    refine ⟨⟨_, rfl, ?_⟩, rfl⟩
    simp +contextual [fieldsOf, OpcodeRow.used, fixedTag]

theorem exists_instrOf_of_row (h : rowOf f.opc = some r) : ∃ i, instrOf f = some i ∧
    (f.rsv = 0#6 → (fixedTag f.opc).all (· == f.s) = true → fieldsOf i = r.used f) :=
  (decodeFields_of_mem_table r (rowOf_spec h).1 f (rowOf_spec h).2).1

theorem decodeFields_used (h : rowOf f.opc = some r) : decodeFields (r.used f) = decodeFields f :=
  (decodeFields_of_mem_table r (rowOf_spec h).1 f (rowOf_spec h).2).2

/-! ## What the decoder accepts (R79) -/

/-- The three checks of the decoder. -/
theorem decodeFields_eq_command_iff : decodeFields f = .command i ↔
    instrOf f = some i ∧ f.rsv = 0#6 ∧ (fixedTag f.opc).all (· == f.s) = true := by
  rw [decodeFields]
  cases instrOf f with
  | none => simp
  | some j =>
    dsimp only
    split_ifs <;> simp_all

/-- The fields of a command decode to it. -/
theorem decodeFields_fieldsOf (i : Instr) : decodeFields (fieldsOf i) = .command i := by
  rw [← decode_word]
  cases i
  exacts [Laws.RoundTrip.word _ _, Laws.RoundTrip.setword _ _, Laws.RoundTrip.bit _ _,
    Laws.RoundTrip.setbit _ _ _, Laws.RoundTrip.concat _ _, Laws.RoundTrip.split _ _,
    Laws.RoundTrip.width _, Laws.RoundTrip.wordcount _, Laws.RoundTrip.wordmask _ _,
    Laws.RoundTrip.fromnat _ _, Laws.RoundTrip.fromlimbs _ _, Laws.RoundTrip.frombits _ _,
    Laws.RoundTrip.tobits _, Laws.RoundTrip.shl _ _, Laws.RoundTrip.shr _ _,
    Laws.RoundTrip.sar _ _, Laws.RoundTrip.rol _ _, Laws.RoundTrip.ror _ _,
    Laws.RoundTrip.rcl _ _ _, Laws.RoundTrip.rcr _ _ _, Laws.RoundTrip.add _ _,
    Laws.RoundTrip.expadd _ _ _ _, Laws.RoundTrip.sub _ _, Laws.RoundTrip.expsub _ _ _,
    Laws.RoundTrip.smul _ _, Laws.RoundTrip.bmul _ _, Laws.RoundTrip.kmul _ _,
    Laws.RoundTrip.mul _ _ _, Laws.RoundTrip.expmul _ _ _, Laws.RoundTrip.rdiv _ _ _,
    Laws.RoundTrip.div _ _ _, Laws.RoundTrip.rem _ _ _, Laws.RoundTrip.cast _ _ _,
    Laws.RoundTrip.and _ _, Laws.RoundTrip.or _ _, Laws.RoundTrip.not _, Laws.RoundTrip.eq _ _,
    Laws.RoundTrip.ne _ _, Laws.RoundTrip.lt _ _ _, Laws.RoundTrip.le _ _ _,
    Laws.RoundTrip.gt _ _ _, Laws.RoundTrip.ge _ _ _]

/-- Fields decode to a command exactly when they are its fields but for the ignored ones. -/
theorem decodeFields_eq_command_iff_used :
    decodeFields f = .command i ↔ ∃ r, rowOf f.opc = some r ∧ fieldsOf i = r.used f := by
  constructor
  · intro h
    obtain ⟨hi, hrsv, htag⟩ := decodeFields_eq_command_iff.mp h
    obtain ⟨r, hrow⟩ := exists_row_of_instrOf hi
    obtain ⟨j, hj, hfields⟩ := exists_instrOf_of_row hrow
    obtain rfl : i = j := Option.some.inj (hi.symm.trans hj)
    exact ⟨r, hrow, hfields hrsv htag⟩
  · rintro ⟨r, hrow, hfields⟩
    rw [← decodeFields_used hrow, ← hfields, decodeFields_fieldsOf]

theorem Instr.ignoredBits_of_row (h : rowOf (fieldsOf i).opc = some r) :
    i.ignoredBits = r.ignoredBits := by rw [Instr.ignoredBits, h]

/-- Settles O2: junk in the ignored bits leaves the used fields, and they decide what is decoded. -/
theorem decodeInvertsEncode : Obligations.DecodeInvertsEncode := by
  intro i junk
  obtain ⟨r, hrow, hfields⟩ := decodeFields_eq_command_iff_used.mp (decodeFields_fieldsOf i)
  rw [Instr.ignoredBits_of_row hrow]
  have hused : r.used (Fields.ofWord (encode i ||| (junk &&& r.ignoredBits))) = fieldsOf i := by
    rw [r.used_junk, encode, Fields.ofWord_word, ← hfields]
  refine decodeFields_eq_command_iff_used.mpr ⟨r, ?_, hused.symm⟩
  rw [← hrow, ← hused, r.used_opc]

/-- Settles O3: the used fields of a word are those of its command. -/
theorem decodedWordIsItsEncoding : Obligations.DecodedWordIsItsEncoding := by
  intro w i h
  obtain ⟨r, hrow, hfields⟩ := decodeFields_eq_command_iff_used.mp h
  have hrow' : rowOf (fieldsOf i).opc = some r := by rw [hfields, r.used_opc, hrow]
  rw [Instr.ignoredBits_of_row hrow', ← r.word_used, ← hfields]
  exact ⟨rfl, r.ignoredBits_and_opc_rsv_wa⟩

/-! ## What the decoder refuses (R71, R73, R78) -/

theorem exists_instrOf_iff : (∃ i, instrOf f = some i) ↔ Machine.ReservedOpcode f.opc = false := by
  rw [← Bool.not_eq_true, ← rowOf_eq_none_iff, ← ne_eq, Option.ne_none_iff_exists']
  constructor
  · rintro ⟨i, hi⟩
    exact exists_row_of_instrOf hi
  · rintro ⟨r, hrow⟩
    obtain ⟨i, hi, -⟩ := exists_instrOf_of_row hrow
    exact ⟨i, hi⟩

theorem exists_command_iff : (∃ i, decodeFields f = .command i) ↔
    Machine.ReservedOpcode f.opc = false ∧ f.rsv = 0#6 ∧
      (fixedTag f.opc).all (· == f.s) = true := by
  simp only [decodeFields_eq_command_iff, exists_and_right, exists_instrOf_iff]

theorem exists_rejected_iff :
    (∃ e, decodeFields f = .rejected e) ↔ ¬ ∃ i, decodeFields f = .command i := by
  cases decodeFields f <;> simp

/-- S is wrong at 0 for SAR and BMUL and at 1 for SMUL and KMUL (R71). -/
theorem fixedTag_wrong_iff (opc : BitVec 8) (s : Bool) : ¬ (fixedTag opc).all (· == s) = true ↔
    (opc = 0x12#8 ∨ opc = 0x31#8) ∧ s = false ∨ (opc = 0x30#8 ∨ opc = 0x32#8) ∧ s = true := by
  unfold fixedTag
  split <;> simp_all

end Sys2Proof

namespace Sys2Proof.Machine

variable {s : State}

/-! ## Steps at the completing edge (R79, R405) -/

theorem runCaptured_command {i : Instr} (h : decode s.cmd = .command i) :
    runCaptured s = exec i s := by
  rw [runCaptured, h]

theorem runCaptured_rejected {e : DecodeError} (h : decode s.cmd = .rejected e) :
    runCaptured s = .next (s.gaveError .badCommand) := by
  rw [runCaptured, h]
  rfl

/-- Whatever the host presents, the edge without reset that ends a command runs it. -/
theorem clockEdge_completing {p : Pins} (hc : s.Completing) (hr : p.rst = false) :
    clockEdge p s = runCaptured s := by
  obtain ⟨hp, hw⟩ := hc
  simp [clockEdge, cmdReady, hr, hp, hw]

theorem step_completing_nil (hc : s.Completing) (he : s.events = []) : step s = runCaptured s :=
  (step_nil he).trans (clockEdge_completing hc rfl)

theorem step_completing_clk {p : Pins} {rest : List HostEvent} (hc : s.Completing)
    (he : s.events = .clk p :: rest) (hr : p.rst = false) : step s = runCaptured (s.took rest) :=
  (step_clk he).trans (clockEdge_completing hc hr)

/-- Settles O4: the refused words are those that fail a check of the decoder, and the completing edge
answers each with BadCommand; an empty list is an idle edge (log entry 2). -/
theorem reservedEncodingsAreBadCommand : Obligations.ReservedEncodingsAreBadCommand := by
  refine ⟨fun f => ?_, fun s e h hc => ⟨fun he => ?_, fun p rest he hr => ?_⟩⟩
  · rw [decode_word, exists_rejected_iff, exists_command_iff, ← fixedTag_wrong_iff]
    simp only [not_and_or, Bool.not_eq_false, ne_eq]
  · rw [step_completing_nil hc he, runCaptured_rejected h]
  · rw [step_completing_clk hc he hr, runCaptured_rejected (s := s.took rest) h]
    rfl

/-- Settles O11; the idle edge of an empty list and `withFetchWord` are the model's choice (log
entries 2 and 10). -/
theorem stepRunsDecodedCommand : Obligations.StepRunsDecodedCommand := by
  refine ⟨fun s i h hc => ⟨fun he => ?_, fun p rest he hr => ?_⟩, fun s nbits w i h => ?_⟩
  · rw [step_completing_nil hc he, runCaptured_command h]
  · rw [step_completing_clk hc he hr]
    exact runCaptured_command (s := s.took rest) h
  · have hdecode : decode (BitVec.ofNat 64 (w % 2 ^ min nbits 64)) = .command i := by
      rw [decodeTableWord] at h
      split at h
      · cases h
        assumption
      · cases h
    rw [step_completing_clk (s := s.withFetchWord nbits w) ⟨rfl, rfl⟩ rfl rfl]
    exact runCaptured_command (s := (s.withFetchWord nbits w).took s.events) hdecode

/-! ## Bit S (R71) -/

/-- Where S is not fixed, RSV = 0 is enough for the command of an opcode. -/
theorem encodedAs_of_instrOf {opc : BitVec 8} {mk : Fields → Instr}
    (h : ∀ f : Fields, instrOf { f with opc := opc } = some (mk { f with opc := opc }))
    (htag : fixedTag opc = none) : EncodedAs opc mk := by
  rintro f rfl hrsv
  rw [decode_word, decodeFields_eq_command_iff, htag]
  exact ⟨h f, hrsv, rfl⟩

/-- A row that ignores S decodes the same with S inverted. -/
theorem decodeFields_not_s {f : Fields} {r : OpcodeRow} (hrow : rowOf f.opc = some r)
    (hs : r.s = .ignored) : decodeFields { f with s := !f.s } = decodeFields f := by
  rw [← decodeFields_used (f := { f with s := !f.s }) hrow, ← decodeFields_used hrow]
  simp only [OpcodeRow.used, hs, if_true]

theorem decodeFields_of_no_row {f : Fields} (h : rowOf f.opc = none) :
    decodeFields f = .rejected (.reservedOpcode f.opc) := by
  have hnone : instrOf f = none := Option.eq_none_iff_forall_ne_some.mpr fun i hi => by
    obtain ⟨r, hrow⟩ := exists_row_of_instrOf hi
    rw [h] at hrow
    cases hrow
  rw [decodeFields, hnone]

theorem decode_fixed_tag_iff (f : Fields) (hrsv : f.rsv = 0#6) :
    (f.opc = 0x12#8 ∨ f.opc = 0x31#8 → ((∃ i, decode f.word = .command i) ↔ f.s = true)) ∧
    (f.opc = 0x30#8 ∨ f.opc = 0x32#8 → ((∃ i, decode f.word = .command i) ↔ f.s = false)) := by
  rw [decode_word, exists_command_iff]
  constructor
  all_goals
    rintro (h | h) <;> rw [h, hrsv]
    all_goals
      generalize f.s = b
      revert b
      decide

/-- Column S of R77 is "-" for every opcode but the tagged and the fixed ones. -/
theorem s_ignored_of_mem_table : ∀ r ∈ opcodeTable, r.opc ∉ [0x0A#8, 0x12#8, 0x21#8, 0x23#8, 0x30#8,
    0x31#8, 0x32#8, 0x33#8, 0x34#8, 0x40#8, 0x41#8, 0x42#8, 0x50#8, 0x6A#8, 0x6B#8, 0x6C#8, 0x6D#8] →
    r.s = .ignored := by decide

/-- Settles O5: a fixed S by the decoder's check, a tag by the opcode map, and column S of R77 for
the rest. -/
theorem tagBitUse : Obligations.TagBitUse := by
  refine ⟨decode_fixed_tag_iff, ?_, ?_, ?_, ?_, ?_, ?_, ?_, ?_, ?_, ?_, ?_, ?_, ?_, fun f hopc => ?_⟩
  case refine_14 =>
    rw [decode_word, decode_word]
    cases hrow : rowOf f.opc with
    | none =>
      rw [decodeFields_of_no_row hrow, decodeFields_of_no_row (f := { f with s := !f.s }) hrow]
    | some r =>
      obtain ⟨hmem, heq⟩ := rowOf_spec hrow
      exact (decodeFields_not_s hrow (s_ignored_of_mem_table r hmem (heq ▸ hopc))).symm
  all_goals exact encodedAs_of_instrOf (fun _ => rfl) rfl

/-! ## The order of checks (R79, R301, R306) -/

/-- The errors checked last are neither BadCommand nor WidthMismatch. -/
theorem operandError_ne (s : State) (i : Instr) :
    operandError s i ≠ some .badCommand ∧ operandError s i ≠ some .widthMismatch := by
  cases i with
  | word | setword | wordmask | bit | setbit | rdiv | div | rem | frombits =>
    rw [operandError]
    split <;> simp
  | _ => exact ⟨nofun, nofun⟩

theorem errorOf_eq_badCommand_iff {i : Instr} :
    errorOf s i = some .badCommand ↔ i.wellFormed s.cfg = false := by
  rw [errorOf]
  split_ifs with hwf <;> simp [hwf, (operandError_ne s i).1]

theorem errorOf_eq_widthMismatch_iff {i : Instr} : errorOf s i = some .widthMismatch ↔
    i.wellFormed s.cfg = true ∧ i.widthsAgree = false := by
  rw [errorOf]
  split_ifs with hwf hagree
  · simp [hwf]
  · simp [hwf, hagree]
  · simp [hagree, (operandError_ne s i).2]

/-- Settles O19: the status a command ends with is its first error, in the order of `errorOf`. -/
theorem validationOrder : Obligations.ValidationOrder := by
  intro s
  cases h : decode s.cmd with
  | rejected e => exact ⟨_, runCaptured_rejected h, rfl⟩
  | command i =>
    obtain ⟨r, hr, hst⟩ := exec_status i s
    exact ⟨_, (runCaptured_command h).trans hr, (hst _).trans errorOf_eq_badCommand_iff,
      (hst _).trans errorOf_eq_widthMismatch_iff⟩

/-! ## Pseudo-commands (R82) -/

theorem wc_mono (c : Config) {w v : Nat} (h : w ≤ v) : wc c w ≤ wc c v :=
  Nat.div_le_div_right (by omega)

/-- The limbs of a width hold its value (R13, R14). -/
theorem trunc_busNat_take (c : Config) (x : Bus) {w n : Nat} (h : w ≤ n * c.L) :
    trunc w (busNat c.L (x.take n)) = val c x w := by
  rcases Nat.le_total n x.length with hn | hn
  · obtain ⟨k, hk⟩ := pow_dvd_pow 2 h
    rw [val, ← congrArg (busNat c.L) (List.take_append_drop n x), busNat_append,
      List.length_take_of_le hn, Nat.mul_comm c.L n, hk, mul_assoc, trunc, trunc,
      Nat.add_mul_mod_self_left]
  · rw [List.take_of_length_le hn, val]

/-- FROMLIMBS of the limbs of WA re-masks A (R82, R112). -/
theorem exec_fromlimbs_wc {wa n : Field16} (hw : widthOk s.cfg wa = true)
    (hn : n.toNat = wc s.cfg wa.toNat) :
    exec (.fromlimbs wa n) s = .next (s.gaveR0 (s.opA wa) wa.toNat) := by
  obtain ⟨hpos, hmax⟩ := widthOk_iff.mp hw
  have hnbus : ¬ n.toNat > s.cfg.nbus := by
    rw [hn, not_lt]
    exact wc_mono s.cfg (by omega : wa.toNat ≤ 8 * s.cfg.wmax)
  rw [exec, execFromlimbs, respond, usingWidth_ok hw, if_neg hnbus,
    trunc_busNat_take s.cfg s.a (hn ▸ le_wc_mul s.cfg wa.toNat), State.respond_r0]

/-- Settles O56; that outputs without a value keep their bits is the model's reading (log entry 5). -/
theorem pseudoCommands : Obligations.PseudoCommands := by
  refine fun s wa wb => ⟨fun h => ⟨if_pos h, if_pos h⟩, fun h => if_pos h, rfl, rfl, rfl, rfl, ?_⟩
  rintro n rfl
  refine ⟨rfl, fun hw => ?_⟩
  have hn : (BitVec.ofNat 16 (wc s.cfg wa.toNat)).toNat = wc s.cfg wa.toNat :=
    (BitVec.toNat_ofNat _ _).trans
      (Nat.mod_eq_of_lt ((wc_le (widthOk_iff.mp hw).1).trans_lt wa.isLt))
  exact ⟨hn, exec_fromlimbs_wc hw hn⟩

/-! ## The command word (R70) -/

/-- Settles O1, bit by bit; the fields of a word are its only choice of fields. -/
theorem commandWordLayout : Obligations.CommandWordLayout := by
  refine ⟨fun f => BitVec.eq_of_getLsbD_eq fun k hk => ?_,
    fun w => ⟨Fields.ofWord w, Fields.word_ofWord w, fun f hf => ?_⟩⟩
  · rw [Fields.getLsbD_word]
    simp only [BitVec.getLsbD_or, BitVec.getLsbD_shiftLeft, BitVec.getLsbD_setWidth]
    split_ifs <;> simp (disch := omega) [BitVec.getLsbD_of_ge, decide_eq_true, decide_eq_false]
  · rw [← hf, Fields.ofWord_word]

/-- Settles O6: the fields of each word are those of its command. -/
theorem specWordsDecode : Obligations.SpecWordsDecode :=
  ⟨decodeFields_fieldsOf (.word 72 1), decodeFields_fieldsOf (.setbit 8 4 true),
    decodeFields_fieldsOf (.sar 8 300), decodeFields_fieldsOf (.expadd .unsigned 8 8 true),
    decodeFields_fieldsOf (.bmul 4 3), decodeFields_fieldsOf (.rdiv .unsigned 128 65),
    decodeFields_fieldsOf (.cast .signed 1 1024), decodeFields_fieldsOf (.lt .signed 8 8)⟩

end Sys2Proof.Machine
end

section
/-! PROOFS. The family of 41_limb_storage.md: limbs (O25), bits (O26), concatenation and split (O27,
O55), widths, counts and masks (O28), constructors (O29) and bit strings (O30, O54). -/

namespace Sys2Proof.Machine

variable {s : State} {wa wb : Field16}

/-! ## What each command answers at legal widths

One equation a command, every branch of its rule with the next state it gives. -/

/-- A command that either raises or answers. -/
theorem respond_ite (c : Prop) [Decidable c] (r r' : Response) :
    respond s (if c then r else r') = .next (if c then s.respond r else s.respond r') := by
  rw [respond, apply_ite s.respond]

theorem exec_word (hw : widthOk s.cfg wa = true) (i : Field16) :
    exec (.word wa i) s = .next (if wc s.cfg wa.toNat ≤ i.toNat then s.gaveError .indexError
      else s.gaveR0 (bitsAt (s.opA wa) (i.toNat * s.cfg.L) s.cfg.L) s.cfg.L) := by
  rw [exec, execWord, withA_ok hw]
  exact respond_ite _ _ _

theorem exec_setword (hw : widthOk s.cfg wa = true) (i : Field16) :
    exec (.setword wa i) s = .next (if wc s.cfg wa.toNat ≤ i.toNat then s.gaveError .indexError
      else s.gaveR0 (replaceBits (s.opA wa) (i.toNat * s.cfg.L) s.cfg.L
        (limbAt s.b 0 &&& wmask s.cfg wa.toNat i.toNat)) wa.toNat) := by
  rw [exec, execSetword, withA_ok hw]
  exact respond_ite _ _ _

theorem exec_bit (hw : widthOk s.cfg wa = true) (i : Field16) :
    exec (.bit wa i) s = .next (if wa.toNat ≤ i.toNat then s.gaveError .indexError
      else s.gaveBit ((s.opA wa).testBit i.toNat)) := by
  rw [exec, execBit, withA_ok hw]
  exact respond_ite _ _ _

theorem exec_setbit (hw : widthOk s.cfg wa = true) (i : Field16) (v : Bool) :
    exec (.setbit wa i v) s = .next (if wa.toNat ≤ i.toNat then s.gaveError .indexError
      else s.gaveR0 (replaceBits (s.opA wa) i.toNat 1 v.toNat) wa.toNat) := by
  rw [exec, execSetbit, withA_ok hw]
  exact respond_ite _ _ _

theorem exec_concat (ha : widthOk s.cfg wa = true) (hb : widthOk s.cfg wb = true) :
    exec (.concat wa wb) s
      = .next (s.gaveR0 (s.opA wa + s.opB wb * 2 ^ wa.toNat) (wa.toNat + wb.toNat)) := by
  rw [exec, execConcat, withAB_ok ha hb, respond, State.respond_r0]

theorem exec_split (hw : widthOk s.cfg wa = true) (p : Field16) :
    exec (.split wa p) s = .next (if p.toNat = 0 ∨ wa.toNat ≤ p.toNat then s.gaveError .badCommand
      else s.gaveR0R1 (s.opA wa / 2 ^ p.toNat) (wa.toNat - p.toNat)
        (s.opA wa % 2 ^ p.toNat) p.toNat) := by
  rw [exec, execSplit, withA_ok hw]
  exact respond_ite _ _ _

theorem exec_width (hw : widthOk s.cfg wa = true) :
    exec (.width wa) s = .next (s.gaveR0 wa.toNat 16) := by
  rw [exec, execWidth, usingWidth_ok hw, respond, State.respond_r0]

theorem exec_wordcount (hw : widthOk s.cfg wa = true) :
    exec (.wordcount wa) s = .next (s.gaveR0 (wc s.cfg wa.toNat) 16) := by
  rw [exec, execWordcount, usingWidth_ok hw, respond, State.respond_r0]

theorem exec_wordmask (hw : widthOk s.cfg wa = true) (i : Field16) :
    exec (.wordmask wa i) s = .next (if wc s.cfg wa.toNat ≤ i.toNat then s.gaveError .indexError
      else s.gaveR0 (wmask s.cfg wa.toNat i.toNat) s.cfg.L) := by
  rw [exec, execWordmask, usingWidth_ok hw]
  exact respond_ite _ _ _

theorem exec_fromnat (hw : widthOk s.cfg wa = true) (t : Tag) :
    exec (.fromnat t wa) s
      = .next (s.gaveR0 (truncInt wa.toNat (valueOf t s.cfg.L (limbAt s.a 0))) wa.toNat) := by
  rw [exec, execFromnat, usingWidth_ok hw, respond, State.respond_r0]

theorem exec_fromlimbs (hw : widthOk s.cfg wa = true) (n : Field16) :
    exec (.fromlimbs wa n) s = .next (if s.cfg.nbus < n.toNat then s.gaveError .badCommand
      else s.gaveR0 (trunc wa.toNat (busNat s.cfg.L (s.a.take n.toNat))) wa.toNat) := by
  rw [exec, execFromlimbs, usingWidth_ok hw]
  exact respond_ite _ _ _

theorem exec_frombits (hw : widthOk s.cfg wa = true) (n : Field16) :
    exec (.frombits wa n) s = .next (if s.cfg.charcap < n.toNat then s.gaveError .badCommand
      else if (charsOn s.cfg s.a n.toNat).all isBitChar then
        s.gaveR0 (trunc wa.toNat (parseBits (charsOn s.cfg s.a n.toNat))) wa.toNat
      else s.gaveError .parseError) := by
  rw [exec, execFrombits, usingWidth_ok hw, respond_ite, apply_ite s.respond]
  rfl

theorem exec_tobits (hw : widthOk s.cfg wa = true) :
    exec (.tobits wa) s
      = .next (s.gaveR0 (busNat 8 (bitChars (s.opA wa) wa.toNat)) (8 * wa.toNat)) := by
  rw [exec, execTobits, withA_ok hw, respond, State.respond_r0]

/-! ## Limbs (R102, R103) -/

/-- The replaced field holds the new value. -/
theorem bitsAt_replaceBits_same {n v : Nat} (a lo : Nat) (hv : v < 2 ^ n) :
    bitsAt (replaceBits a lo n v) lo n = v := by
  refine Nat.eq_of_testBit_eq fun k => ?_
  rw [testBit_bitsAt, testBit_replaceBits hv, Nat.add_sub_cancel_left]
  rcases Nat.lt_or_ge k n with hk | hk
  · rw [if_pos ⟨by omega, by omega⟩, decide_eq_true hk, Bool.true_and]
  · rw [decide_eq_false (by omega), Bool.false_and, testBit_of_lt hv hk]

/-- A field apart from the replaced one stays. -/
theorem bitsAt_replaceBits_apart {lo n v lo' m : Nat} (a : Nat) (hv : v < 2 ^ n)
    (h : lo' + m ≤ lo ∨ lo + n ≤ lo') : bitsAt (replaceBits a lo n v) lo' m = bitsAt a lo' m := by
  refine Nat.eq_of_testBit_eq fun k => ?_
  rw [testBit_bitsAt, testBit_bitsAt, testBit_replaceBits hv]
  rcases Nat.lt_or_ge k m with hk | hk
  · rw [if_neg (by omega)]
  · rw [decide_eq_false (by omega), Bool.false_and, Bool.false_and]

/-- Two limbs do not overlap. -/
theorem limbs_apart (L : Nat) {i j : Nat} (h : j ≠ i) : j * L + L ≤ i * L ∨ i * L + L ≤ j * L := by
  rw [← Nat.succ_mul, ← Nat.succ_mul]
  rcases Nat.lt_or_gt_of_ne h with h | h
  · exact .inl (Nat.mul_le_mul_right L h)
  · exact .inr (Nat.mul_le_mul_right L h)

/-- SETWORD limb by limb: limb i takes the new value, every other limb stays. -/
theorem limb_replaceBits {L v : Nat} (a i j : Nat) (hv : v < 2 ^ L) :
    bitsAt (replaceBits a (i * L) L v) (j * L) L = if j = i then v else bitsAt a (j * L) L := by
  split
  · subst j
    exact bitsAt_replaceBits_same a _ hv
  · exact bitsAt_replaceBits_apart a hv (limbs_apart L ‹_›)

/-- Settles O25: the limbs SETWORD leaves are those of `limb_replaceBits`, and the mask keeps the
result in its width; that outputs not produced keep their bits is the model's reading (log entry 5). -/
theorem limbReadAndWrite : Obligations.LimbReadAndWrite := by
  refine ⟨encodedAs_of_instrOf (fun _ => rfl) rfl, encodedAs_of_instrOf (fun _ => rfl) rfl,
    fun s wa i hw => ?_⟩
  rw [exec_word hw, exec_setword hw]
  constructor
  · intro hi
    rw [if_neg (not_le.mpr hi), if_neg (not_le.mpr hi)]
    refine ⟨rfl, _, rfl, setword_lt (widthOk_iff.mp hw).1 (val_lt _ _ _) hi, fun j _ => ?_⟩
    rw [limb_replaceBits _ _ _ (Nat.and_lt_two_pow _ (wmask_lt _ _ _))]
    split
    · subst j
      rfl
    · rfl
  · intro hi
    rw [if_pos hi, if_pos hi]
    exact ⟨rfl, rfl⟩

/-! ## Bits (R104, R105) -/

/-- SETBIT bit by bit: bit i takes the new value, every other bit stays. -/
theorem testBit_setbit (a i : Nat) (v : Bool) (j : Nat) :
    (replaceBits a i 1 v.toNat).testBit j = if j = i then v else a.testBit j := by
  rw [testBit_replaceBits (by cases v <;> decide)]
  split_ifs with hin hji hji
  · rw [hji, Nat.sub_self]
    cases v <;> rfl
  · omega
  · omega
  · rfl

/-- Settles O26, bit by bit; that outputs not produced keep their bits is the model's reading (log
entry 5). -/
theorem bitReadAndWrite : Obligations.BitReadAndWrite := by
  refine ⟨encodedAs_of_instrOf (fun _ => rfl) rfl, encodedAs_of_instrOf (fun _ => rfl) rfl,
    fun s wa i v hw => ?_⟩
  rw [exec_bit hw, exec_setbit hw]
  constructor
  · intro hi
    rw [if_neg (not_le.mpr hi), if_neg (not_le.mpr hi)]
    exact ⟨rfl, _, rfl, setbit_lt (val_lt _ _ _) hi v, testBit_setbit _ _ v⟩
  · intro hi
    rw [if_pos hi, if_pos hi]
    exact ⟨rfl, rfl⟩

/-! ## Width, word count and word mask (R108, R109, R110) -/

/-- Settles O28, from the bounds on `wc` and the mask's bits (R14); that outputs not produced keep
their bits, and how 16 bits stand on the narrowest bus, is the model's reading (log entries 5, 8). -/
theorem widthCountAndMask : Obligations.WidthCountAndMask := by
  refine ⟨encodedAs_of_instrOf (fun _ => rfl) rfl, encodedAs_of_instrOf (fun _ => rfl) rfl,
    encodedAs_of_instrOf (fun _ => rfl) rfl, fun s wa hw => ?_⟩
  have hpos : 1 ≤ wa.toNat := (widthOk_iff.mp hw).1
  refine ⟨exec_width hw,
    ⟨_, exec_wordcount hw, rfl, le_wc_mul s.cfg wa.toNat, wc_pred_mul_lt hpos⟩, fun i => ?_⟩
  rw [exec_wordmask hw]
  constructor
  · intro hi
    rw [if_neg (not_le.mpr hi)]
    exact ⟨_, rfl, testBit_wmask hpos hi⟩
  · intro hi
    rw [if_pos hi]

/-! ## Native integers and limb lists (R111, R112) -/

/-- Settles O29: FROMNAT by the tag, FROMLIMBS by R13's sum; that outputs not produced keep their
bits is the model's reading (log entry 5). -/
theorem nativeAndLimbConstructors : Obligations.NativeAndLimbConstructors := by
  refine ⟨encodedAs_of_instrOf (fun _ => rfl) rfl, encodedAs_of_instrOf (fun _ => rfl) rfl,
    fun s wa hw => ⟨?_, exec_fromnat hw .signed, fun n => ?_⟩⟩
  · rw [exec_fromnat hw, valueOf, truncInt_natCast, trunc]
  · rw [exec_fromlimbs hw, busNat_take]
    constructor
    · intro hn
      rw [if_neg (not_lt.mpr hn), trunc]
    · intro hn
      rw [if_pos hn]

/-! ## Bit strings (R113, R114, R115) -/

/-- Every one of the characters is a bit character. -/
theorem all_isBitChar_charsOn {c : Config} {x : Bus} {n : Nat} :
    (charsOn c x n).all isBitChar = true ↔ ∀ j < n, byteAt c x j = 0x30 ∨ byteAt c x j = 0x31 := by
  simp [charsOn, isBitChar]

/-- Settles O30, from the sum a bit string denotes and the characters of TOBITS; that outputs not
produced keep their bits is the model's reading (log entry 5). -/
theorem bitStringConstructorAndEncoding : Obligations.BitStringConstructorAndEncoding := by
  refine ⟨encodedAs_of_instrOf (fun _ => rfl) rfl, encodedAs_of_instrOf (fun _ => rfl) rfl,
    fun s wa hw => ⟨fun n => ?_, _, exec_tobits hw, tobits_lt _ _, fun j hj => bitsAt_tobits hj⟩⟩
  rw [exec_frombits hw]
  refine ⟨fun hn => ?_, fun hn => by rw [if_pos hn]⟩
  rw [if_neg (not_lt.mpr hn)]
  constructor
  · intro hgood
    rw [if_pos (all_isBitChar_charsOn.mpr hgood), charsOn, parseBits_eq_sum, trunc]
  · rintro ⟨j, hj, h0, h1⟩
    rw [if_neg fun hall => (all_isBitChar_charsOn.mp hall j hj).elim h0 h1]

theorem isBitChar_of_mem_bitChars {a w ch : Nat} (h : ch ∈ bitChars a w) : isBitChar ch = true := by
  obtain ⟨j, -, rfl⟩ := List.mem_map.mp h
  rw [bitAt]
  cases a.testBit (w - 1 - j) <;> rfl

theorem bitsAt_one (v i : Nat) : bitsAt v i 1 = bitAt v i := by
  rw [bitsAt, bitAt, pow_one, Nat.testBit_eq_decide_div_mod_eq]
  rcases Nat.mod_two_eq_zero_or_one (v / 2 ^ i) with h | h <;> simp [h]

/-- Reading the characters of a value as a number gives the value (R115). -/
theorem parseBits_bitChars {a w : Nat} (ha : a < 2 ^ w) : parseBits (bitChars a w) = a := by
  calc parseBits (bitChars a w)
      = ∑ j ∈ Finset.range w, bitAt a (w - 1 - j) * 2 ^ (w - 1 - j) := by
        simp only [bitChars, parseBits_eq_sum, Nat.add_sub_cancel_left]
    _ = ∑ j ∈ Finset.range w, bitAt a j * 2 ^ j :=
        Finset.sum_range_reflect (fun j => bitAt a j * 2 ^ j) w
    _ = a % 2 ^ w := by simpa only [bitsAt_one, Nat.mul_one] using sum_bitsAt 1 a w
    _ = a := Nat.mod_eq_of_lt ha

/-- A bus carries the text of a value of legal width (R8). -/
theorem text_le_bus {c : Config} (hw : widthOk c wa = true) : 8 * wa.toNat ≤ c.nbus * c.L :=
  (Nat.mul_le_mul_left 8 (widthOk_iff.mp hw).2).trans (le_nbus_mul c)

/-- The characters on the bus TOBITS leaves are those of the value (R114, R54). -/
theorem charsOn_tobits {c : Config} (hw : widthOk c wa = true) (a : Nat) :
    charsOn c (busOf c (busNat 8 (bitChars a wa.toNat)) (8 * wa.toNat)) wa.toNat
      = bitChars a wa.toNat := by
  refine List.map_congr_left fun j hj => ?_
  rw [byteAt_eq_bitsAt (busWf_busOf _ _ _), busNat_busOf_of_le (tobits_lt _ _) (text_le_bus hw),
    bitsAt_tobits (List.mem_range.mp hj)]

/-- Settles O54: TOBITS leaves the value's characters, all of them bit characters, and they denote
the value; that outputs not produced keep their bits is the model's reading (log entry 5). -/
theorem bitStringRoundTrip : Obligations.BitStringRoundTrip := by
  refine fun s wa hw => ⟨_, exec_tobits hw, fun u hcfg ha => ?_⟩
  rw [← hcfg] at hw
  have hchars : charsOn u.cfg u.a wa.toNat = bitChars (s.opA wa) wa.toNat := by
    rw [ha, State.gaveR0_r0, ← hcfg, charsOn_tobits hw]
  have hcap : wa.toNat ≤ u.cfg.charcap :=
    (Nat.le_div_iff_mul_le (by norm_num)).mpr (Nat.mul_comm wa.toNat 8 ▸ text_le_bus hw)
  rw [exec_frombits hw, if_neg (not_lt.mpr hcap), hchars,
    if_pos (List.all_eq_true.mpr fun _ => isBitChar_of_mem_bitChars),
    parseBits_bitChars (val_lt _ _ _), trunc_of_lt (val_lt _ _ _)]

/-! ## Concatenation and split (R106, R107, R116) -/

/-- Settles O27; that outputs not produced keep their bits is the model's reading (log entry 5). -/
theorem concatAndSplit : Obligations.ConcatAndSplit := by
  refine ⟨encodedAs_of_instrOf (fun _ => rfl) rfl, encodedAs_of_instrOf (fun _ => rfl) rfl,
    fun s wa wb ha hb => exec_concat ha hb, fun s wa p hw => ?_⟩
  rw [exec_split hw]
  constructor
  · intro hp hlt
    rw [if_neg (by omega)]
  · intro hp
    rw [if_pos hp]

/-- A legal width field reads back a result of that width from the bus that carries it (R13, R15). -/
theorem val_busOf_of_widthOk {c : Config} {v w : Nat} (hok : widthOk c wa = true)
    (hw : wa.toNat = w) (hv : v < 2 ^ w) : val c (busOf c v w) w = v := by
  have hbus := text_le_bus hok
  exact val_busOf hv (by omega)

/-- CONCAT of the two parts SPLIT leaves on R1 and R0 gives the value back (R116). -/
theorem exec_concat_of_split (s : State) {wa p : Field16} (hw : widthOk s.cfg wa = true)
    (hp : 1 ≤ p.toNat) (hlt : p.toNat < wa.toNat) :
    ∃ t, exec (.split wa p) s = .next t ∧
      ∀ u : State, u.cfg = s.cfg → u.a = t.r1 → u.b = t.r0 →
        exec (.concat p (wa - p)) u = .next (u.gaveR0 (s.opA wa) wa.toNat) := by
  have hsplit := exec_split hw p
  rw [if_neg (by omega)] at hsplit
  refine ⟨_, hsplit, fun u hcfg ha hb => ?_⟩
  have hmax := (widthOk_iff.mp hw).2
  have hsub : (wa - p).toNat = wa.toNat - p.toNat := BitVec.toNat_sub_of_le hlt.le
  have hpOk : widthOk u.cfg p = true := widthOk_iff.mpr (by rw [hcfg]; omega)
  have hsubOk : widthOk u.cfg (wa - p) = true := widthOk_iff.mpr (by rw [hcfg]; omega)
  have hlow : u.opA p = s.opA wa % 2 ^ p.toNat := by
    rw [State.opA, ha, State.gaveR0R1_r1, ← hcfg]
    exact val_busOf_of_widthOk hpOk rfl (Nat.mod_lt _ (by positivity))
  have hhigh : u.opB (wa - p) = s.opA wa / 2 ^ p.toNat := by
    rw [State.opB, hb, State.gaveR0R1_r0, ← hcfg, hsub]
    refine val_busOf_of_widthOk hsubOk hsub (Nat.div_lt_of_lt_mul ?_)
    rw [← pow_add, Nat.add_sub_cancel' hlt.le]
    exact val_lt _ _ _
  rw [exec_concat hpOk hsubOk, hlow, hhigh, hsub, Nat.mod_add_div', Nat.add_sub_cancel' hlt.le]

/-- Concatenating twice from the left or from the right puts the three values together the same. -/
theorem concat_value_assoc (x y z w v : Nat) :
    x + y * 2 ^ w + z * 2 ^ (w + v) = x + (y + z * 2 ^ v) * 2 ^ w := by
  rw [pow_add]
  ring

/-- CONCAT of two buses, whatever else the state holds. -/
theorem exec_concat_buses (s : State) (x y : Bus) (ha : widthOk s.cfg wa = true)
    (hb : widthOk s.cfg wb = true) :
    exec (.concat wa wb) { s with a := x, b := y } = .next (State.gaveR0 { s with a := x, b := y }
      (val s.cfg x wa.toNat + val s.cfg y wb.toNat * 2 ^ wa.toNat) (wa.toNat + wb.toNat)) :=
  exec_concat (s := { s with a := x, b := y }) ha hb

/-- Settles O55: both parts of a split read back from their buses, and both ways to concatenate three
values leave one value; that outputs not produced keep their bits is the model's reading (log entry
5). -/
theorem splitConcatRoundTrip : Obligations.SplitConcatRoundTrip := by
  refine ⟨fun s _ _ => exec_concat_of_split s, ?_⟩
  intro s x y z wx wy wz wxy wyz hx hy hz hwxy hxy hwyz hyz
  refine ⟨_, _, _, _, exec_concat_buses s x y hx hy, exec_concat_buses s y z hy hz,
    exec_concat_buses s _ z hxy hz, exec_concat_buses s x _ hx hyz, ?_⟩
  have hleft := val_busOf_of_widthOk hxy hwxy
    (concat_lt (val_lt s.cfg x wx.toNat) (val_lt s.cfg y wy.toNat))
  have hright := val_busOf_of_widthOk hyz hwyz
    (concat_lt (val_lt s.cfg y wy.toNat) (val_lt s.cfg z wz.toNat))
  simp only [State.gaveR0_r0, State.gaveR0_rw0, hwxy, hwyz, hleft, hright, concat_value_assoc]
  refine ⟨?_, ?_, ?_⟩
  · rw [Nat.add_assoc]
  · rw [Nat.add_assoc]
  · rw [BitVec.toNat_ofNat]
    omega

end Sys2Proof.Machine
end

section
/-! PROOFS. The family of 42_shift.md: the shifts (O31), the rotations (O32), the limb datapath
(O33) and the laws between shifts and rotations (O34). -/

namespace Sys2Proof.Machine

variable {s : State} {wa : Field16} {c : Config} {w a k k₁ k₂ : Nat}

/-! ## Words whose bit S is fixed (R71) -/

/-- With the fixed value of S the word is its opcode's command, with the other one it is refused. -/
theorem encodedWithTag_of_instrOf {opc : BitVec 8} {tag : Bool} {mk : Fields → Instr}
    (h : ∀ f : Fields, instrOf { f with opc := opc } = some (mk { f with opc := opc }))
    (htag : fixedTag opc = some tag) : EncodedWithTag opc tag mk := by
  rintro f rfl hrsv
  rw [decode_word, decodeFields_eq_command_iff, htag]
  refine ⟨fun hs => ⟨h f, hrsv, by simp [hs]⟩, fun hs s hcmd => ?_⟩
  have hrejected : ∃ e, decodeFields f = .rejected e := by
    rw [exists_rejected_iff, exists_command_iff, htag]
    simp [hs.symm]
  obtain ⟨e, he⟩ := hrejected
  exact runCaptured_rejected (e := e) (by rw [hcmd, decode_word, he])

/-! ## What each command answers at a legal width -/

theorem exec_shl (hw : widthOk s.cfg wa = true) (k : Field16) :
    exec (.shl wa k) s = .next (s.gaveR0 (shlValue wa.toNat (s.opA wa) k.toNat) wa.toNat) := by
  rw [exec, execShl, withA_ok hw, respond, State.respond_r0]

theorem exec_shr (hw : widthOk s.cfg wa = true) (k : Field16) :
    exec (.shr wa k) s = .next (s.gaveR0 (shrValue wa.toNat (s.opA wa) k.toNat) wa.toNat) := by
  rw [exec, execShr, withA_ok hw, respond, State.respond_r0]

theorem exec_sar (hw : widthOk s.cfg wa = true) (k : Field16) :
    exec (.sar wa k) s = .next (s.gaveR0 (sarValue wa.toNat (s.opA wa) k.toNat) wa.toNat) := by
  rw [exec, execSar, withA_ok hw, respond, State.respond_r0]

theorem exec_rol (hw : widthOk s.cfg wa = true) (k : Field16) :
    exec (.rol wa k) s = .next (s.gaveR0 (rolValue wa.toNat (s.opA wa) k.toNat) wa.toNat) := by
  rw [exec, execRol, withA_ok hw, respond, State.respond_r0]

theorem exec_ror (hw : widthOk s.cfg wa = true) (k : Field16) :
    exec (.ror wa k) s = .next (s.gaveR0 (rorValue wa.toNat (s.opA wa) k.toNat) wa.toNat) := by
  rw [exec, execRor, withA_ok hw, respond, State.respond_r0]

theorem exec_rcl (hw : widthOk s.cfg wa = true) (k : Field16) (ci : Bool) :
    exec (.rcl wa k ci) s = .next (s.gaveR0Bit (rclValue wa.toNat (s.opA wa) k.toNat ci).1 wa.toNat
      (rclValue wa.toNat (s.opA wa) k.toNat ci).2) := by
  rw [exec, execRcl, withA_ok hw, respond, State.respond_r0bit]

theorem exec_rcr (hw : widthOk s.cfg wa = true) (k : Field16) (ci : Bool) :
    exec (.rcr wa k ci) s = .next (s.gaveR0Bit (rcrValue wa.toNat (s.opA wa) k.toNat ci).1 wa.toNat
      (rcrValue wa.toNat (s.opA wa) k.toNat ci).2) := by
  rw [exec, execRcr, withA_ok hw, respond, State.respond_r0bit]

/-! ## Shifts (R141, R142, R143) -/

/-- Integer division by 2^k, which SAR does, is the floor of the quotient (R143). -/
theorem floor_div_two_pow (z : Int) (k : Nat) : ⌊(z : ℚ) / 2 ^ k⌋ = z / ((2 ^ k : Nat) : Int) := by
  rw [← Rat.floor_intCast_div_natCast, Nat.cast_pow, Nat.cast_ofNat]

/-- Settles O31: below the width SAR's division is the floor; that outputs not produced keep their
bits is the model's reading (log entry 5). -/
theorem shiftResults : Obligations.ShiftResults := by
  refine ⟨encodedAs_of_instrOf (fun _ => rfl) rfl, encodedAs_of_instrOf (fun _ => rfl) rfl,
    encodedWithTag_of_instrOf (fun _ => rfl) rfl,
    fun s wa k hw => ⟨exec_shl hw k, exec_shr hw k, ?_⟩⟩
  rw [exec_sar hw, sarValue, floor_div_two_pow]

/-! ## Rotations (R144 to R147) -/

/-- A rotation left by n - k takes every bit from k positions above (R145). -/
theorem testBit_rotate_sub {n x j : Nat} (hx : x < 2 ^ n) (hk : k ≤ n) (hj : j < n) :
    (rotate n x (n - k)).testBit j = x.testBit ((j + k) % n) := by
  have hback : ((j + k) % n + (n - k)) % n = j := by
    rw [Nat.mod_add_mod, Nat.add_assoc, Nat.add_sub_cancel' hk, Nat.add_mod_right,
      Nat.mod_eq_of_lt hj]
  rw [← testBit_rotate_mod hx (Nat.sub_le n k) (Nat.mod_lt (j + k) (by omega)), hback]

theorem rolValue_of_le (hw : 1 ≤ w) (hk : w ≤ k) : rolValue w a k = 0 := by
  rw [rolValue, if_neg (by omega), if_neg (by omega)]

theorem rorValue_of_le (hw : 1 ≤ w) (hk : w ≤ k) : rorValue w a k = 0 := by
  rw [rorValue, if_neg (by omega), if_neg (by omega)]

theorem rclValue_of_le (hw : 1 ≤ w) (hk : w ≤ k) (ci : Bool) : rclValue w a k ci = (0, false) := by
  rw [rclValue, if_neg (by omega), if_neg (by omega)]

theorem rcrValue_of_le (hw : 1 ≤ w) (hk : w ≤ k) (ci : Bool) : rcrValue w a k ci = (0, false) := by
  rw [rcrValue, if_neg (by omega), if_neg (by omega)]

/-- What RCL leaves on R0 and CO is its ring rotated left (R146). -/
theorem ring_rclValue (ha : a < 2 ^ w) (hk : k < w) (ci : Bool) :
    ring w (rclValue w a k ci).1 (rclValue w a k ci).2 = rotate (w + 1) (ring w a ci) k := by
  rw [rclValue_eq ha hk, ring_ringParts (rotate_lt (ring_lt ha ci) (by omega))]

/-- What RCR leaves on R0 and CO is its ring rotated left by the rest of a turn (R147). -/
theorem ring_rcrValue (ha : a < 2 ^ w) (hk : k < w) (ci : Bool) :
    ring w (rcrValue w a k ci).1 (rcrValue w a k ci).2
      = rotate (w + 1) (ring w a ci) (w + 1 - k) := by
  rw [rcrValue_eq ha hk, ring_ringParts (rotate_lt (ring_lt ha ci) (by omega))]

/-- The ring as R146 writes it is the statement's `value + carry * 2^w`. -/
theorem add_carry_eq_ring (w v : Nat) (ci : Bool) : v + ci.toNat * 2 ^ w = ring w v ci :=
  Nat.add_comm _ _

/-- Settles O32: below the width ROL and ROR rotate WA bits and RCL and RCR a ring of WA + 1 bits;
that outputs not produced keep their bits is the model's reading (log entry 5). -/
theorem rotationResults : Obligations.RotationResults := by
  refine ⟨encodedAs_of_instrOf (fun _ => rfl) rfl, encodedAs_of_instrOf (fun _ => rfl) rfl,
    encodedAs_of_instrOf (fun _ => rfl) rfl, encodedAs_of_instrOf (fun _ => rfl) rfl,
    fun s wa k ci hw => ?_⟩
  have hpos : 1 ≤ wa.toNat := (widthOk_iff.mp hw).1
  have ha : s.opA wa < 2 ^ wa.toNat := val_lt _ _ _
  have hring := ring_lt ha ci
  simp only [exec_rol hw, exec_ror hw, exec_rcl hw, exec_rcr hw, add_carry_eq_ring]
  constructor
  · intro hk
    refine ⟨⟨_, rfl, rolValue_lt ha _, fun j hj => ?_⟩, ⟨_, rfl, rorValue_lt ha _, fun j hj => ?_⟩,
      ⟨_, _, rfl, rclValue_lt ha _ _, fun j hj => ?_⟩,
      _, _, rfl, rcrValue_lt ha _ _, fun j hj => ?_⟩
    · rw [rolValue_eq ha hk, testBit_rotate_mod ha hk.le hj]
    · rw [rorValue_eq hk, testBit_rotate_sub ha hk.le hj]
    · rw [ring_rclValue ha hk, testBit_rotate_mod hring (by omega) (by omega)]
    · rw [ring_rcrValue ha hk, testBit_rotate_sub hring (by omega) (by omega)]
  · intro hk
    rw [rolValue_of_le hpos hk, rorValue_of_le hpos hk, rclValue_of_le hpos hk,
      rcrValue_of_le hpos hk]
    exact ⟨rfl, rfl, rfl, rfl⟩

/-! ## The limb datapath (R140) -/

/-- A limb joined with the spill of the limb below it is the field that lies across the two. -/
theorem join_adjacent_limbs {v lo L r : Nat} (hr : r ≤ L) :
    trunc L (bitsAt v (lo + L) L * 2 ^ r) + bitsAt v lo L / 2 ^ (L - r)
      = bitsAt v (lo + (L - r)) L := by
  refine Nat.eq_of_testBit_eq fun i => ?_
  rw [trunc_mul_two_pow _ hr, testBit_high_low _ (high_part_lt (bitsAt_lt _ _ _) hr),
    Nat.testBit_div_two_pow, Nat.testBit_mod_two_pow, testBit_bitsAt, testBit_bitsAt,
    testBit_bitsAt]
  split
  · rw [decide_eq_true (show i + (L - r) < L by omega), decide_eq_true (show i < L by omega),
      Nat.add_comm i, Nat.add_assoc]
  · by_cases hi : i < L
    · rw [decide_eq_true (show i - r < L - r by omega), decide_eq_true (show i - r < L by omega),
        decide_eq_true hi, show lo + L + (i - r) = lo + (L - r) + i by omega]
      rfl
    · rw [decide_eq_false (show ¬ i - r < L - r by omega), decide_eq_false hi, Bool.false_and,
        Bool.false_and]

/-- Skipping limbs upward: limb j is the limb m below, or 0 where there is none. -/
theorem limb_mul_two_pow (v L m j : Nat) :
    bitsAt (v * 2 ^ (m * L)) (j * L) L = if m ≤ j then bitsAt v ((j - m) * L) L else 0 := by
  split
  · rename_i h
    have hj : j * L = m * L + (j - m) * L := by rw [← Nat.add_mul, Nat.add_sub_cancel' h]
    rw [bitsAt, bitsAt, hj, pow_add, ← Nat.div_div_eq_div_mul, Nat.mul_div_cancel _ (by positivity)]
  · rename_i h
    have hle : j * L + L ≤ m * L := by
      rw [← Nat.succ_mul]
      exact Nat.mul_le_mul_right L (by omega)
    refine Nat.eq_of_testBit_eq fun i => ?_
    rw [testBit_bitsAt, Nat.testBit_mul_two_pow, Nat.zero_testBit]
    simp only [Bool.and_eq_false_iff, decide_eq_false_iff_not]
    omega

/-- Dropping the low k bits moves a field down by k. -/
theorem bitsAt_div_two_pow (v k lo n : Nat) : bitsAt (v / 2 ^ k) lo n = bitsAt v (k + lo) n := by
  rw [bitsAt, bitsAt, Nat.div_div_eq_div_mul, ← pow_add]

/-- Masking a limb truncates the value to its width (R14, R22). -/
theorem bitsAt_and_wmask {j : Nat} (hw : 1 ≤ w) (hj : j < wc c w) (v : Nat) :
    bitsAt v (j * c.L) c.L &&& wmask c w j = bitsAt (trunc w v) (j * c.L) c.L := by
  refine Nat.eq_of_testBit_eq fun i => ?_
  rw [Nat.testBit_and, testBit_wmask hw hj, testBit_bitsAt, testBit_bitsAt, trunc,
    Nat.testBit_mod_two_pow]
  by_cases hi : i < c.L <;> simp [hi, Bool.and_comm]

/-- Limbs that are the fields of a value in its width are a bus with that value. -/
theorem busNat_of_limbs {v : Nat} {f : Nat → Nat} (hv : v < 2 ^ w)
    (hf : ∀ j < wc c w, f j = bitsAt v (j * c.L) c.L) :
    busNat c.L ((List.range (wc c w)).map f) = v := by
  rw [List.map_congr_left fun j hj => hf j (List.mem_range.mp hj), busNat_map_range, sum_bitsAt,
    Nat.mod_eq_of_lt (hv.trans_le (Nat.pow_le_pow_right (by norm_num) (le_wc_mul c w)))]

/-- Limb j of the left shift is the masked field of a * 2^k. -/
theorem shlLimb_busOf {j : Nat} (hw : 1 ≤ w) (hbus : w ≤ c.nbus * c.L) (ha : a < 2 ^ w)
    (hj : j < wc c w) :
    shlLimb c (busOf c a w) w k j = bitsAt (trunc w (a * 2 ^ k)) (j * c.L) c.L := by
  have hr : k % c.L < c.L := Nat.mod_lt _ (L_pos c)
  have hk : k / c.L * c.L + k % c.L = k := Nat.div_add_mod' k c.L
  have hmoved := limb_mul_two_pow a c.L (k / c.L + 1) (j + 1)
  have hspill := limb_mul_two_pow a c.L (k / c.L + 1) j
  rw [Nat.add_sub_add_right, Nat.succ_mul j] at hmoved
  simp only [Nat.add_le_add_iff_right] at hmoved
  rw [shlLimb, limbAt_busOf ha hbus, limbAt_busOf ha hbus, ← bitsAt_and_wmask hw hj, Nat.sub_sub,
    ← hmoved, ← hspill, join_adjacent_limbs hr.le]
  have hshift : a * 2 ^ k = a * 2 ^ ((k / c.L + 1) * c.L) / 2 ^ (c.L - k % c.L) := by
    rw [show (k / c.L + 1) * c.L = k + (c.L - k % c.L) by rw [Nat.succ_mul]; omega, pow_add,
      ← Nat.mul_assoc, Nat.mul_div_cancel _ (by positivity)]
  rw [hshift, bitsAt_div_two_pow, Nat.add_comm (c.L - k % c.L)]

/-- Limb j of the right shift is the masked field of a div 2^k. -/
theorem shrLimb_busOf {j : Nat} (hw : 1 ≤ w) (hbus : w ≤ c.nbus * c.L) (ha : a < 2 ^ w)
    (hj : j < wc c w) :
    shrLimb c (busOf c a w) w k j = bitsAt (trunc w (a / 2 ^ k)) (j * c.L) c.L := by
  have hr : k % c.L < c.L := Nat.mod_lt _ (L_pos c)
  have hk : k / c.L * c.L + k % c.L = k := Nat.div_add_mod' k c.L
  have hjoin := join_adjacent_limbs (v := a) (lo := (j + k / c.L) * c.L) (Nat.sub_le c.L (k % c.L))
  rw [Nat.sub_sub_self hr.le, ← Nat.succ_mul, Nat.add_comm (trunc _ _)] at hjoin
  rw [shrLimb, limbAt_busOf ha hbus, limbAt_busOf ha hbus, ← bitsAt_and_wmask hw hj, hjoin,
    bitsAt_div_two_pow, show (j + k / c.L) * c.L + k % c.L = k + j * c.L by rw [Nat.add_mul]; omega]

/-- Settles O33, limb by limb: each limb of either datapath is the field of the shifted value. -/
theorem limbShiftDatapath : Obligations.LimbShiftDatapath := by
  intro c w a k hw hmax ha _
  have hbus : w ≤ c.nbus * c.L := le_trans (by omega) (le_nbus_mul c)
  have hshr : a / 2 ^ k < 2 ^ w := (Nat.div_le_self _ _).trans_lt ha
  constructor
  · exact busNat_of_limbs (trunc_lt w _) fun j hj => shlLimb_busOf hw hbus ha hj
  · refine busNat_of_limbs hshr fun j hj => ?_
    rw [shrLimb_busOf hw hbus ha hj, trunc_of_lt hshr]

/-! ## Laws (R148) -/

/-- The two parts of a rotated value share no bit. -/
theorem rolValue_eq_or (ha : a < 2 ^ w) (h0 : 0 < k) (hk : k < w) :
    rolValue w a k = shlValue w a k ||| shrValue w a (w - k) := by
  rw [rolValue_eq ha hk, shlValue, if_neg (not_le.mpr hk), shrValue, if_neg (by omega),
    rotate_eq a hk.le, trunc_mul_two_pow a hk.le,
    Nat.two_pow_add_eq_or_of_lt (high_part_lt ha hk.le)]

theorem rolValue_rolValue (ha : a < 2 ^ w) (h : k₁ + k₂ < w) :
    rolValue w (rolValue w a k₁) k₂ = rolValue w a (k₁ + k₂) := by
  rw [rolValue_eq (rolValue_lt ha k₁) (by omega), rolValue_eq ha (by omega), rolValue_eq ha h,
    rotate_rotate ha h.le]

theorem rclValue_rclValue (ha : a < 2 ^ w) (h : k₁ + k₂ < w) (ci : Bool) :
    rclValue w (rclValue w a k₁ ci).1 k₂ (rclValue w a k₁ ci).2 = rclValue w a (k₁ + k₂) ci := by
  rw [rclValue_eq (rclValue_lt ha _ _) (by omega), ring_rclValue ha (by omega), rclValue_eq ha h,
    rotate_rotate (ring_lt ha ci) (by omega)]

/-- Rotating left by n - k₁ and by n - k₂ is one full turn more than rotating by n - (k₁ + k₂). -/
theorem rotate_sub_rotate_sub {n x : Nat} (hx : x < 2 ^ n) (h : k₁ + k₂ ≤ n) :
    rotate n (rotate n x (n - k₁)) (n - k₂) = rotate n x (n - (k₁ + k₂)) := by
  have hsplit : rotate n x (n - k₁) = rotate n (rotate n x (n - (k₁ + k₂))) k₂ := by
    rw [rotate_rotate hx (by omega), show n - (k₁ + k₂) + k₂ = n - k₁ by omega]
  rw [hsplit, rotate_rotate (rotate_lt hx (Nat.sub_le _ _)) (by omega),
    show k₂ + (n - k₂) = n by omega, rotate_full]

theorem rcrValue_rcrValue (ha : a < 2 ^ w) (h : k₁ + k₂ < w) (ci : Bool) :
    rcrValue w (rcrValue w a k₁ ci).1 k₂ (rcrValue w a k₁ ci).2 = rcrValue w a (k₁ + k₂) ci := by
  rw [rcrValue_eq (rcrValue_lt ha _ _) (by omega), ring_rcrValue ha (by omega), rcrValue_eq ha h,
    rotate_sub_rotate_sub (ring_lt ha ci) (by omega)]

/-- A rotation whose amounts add up below the width is that many rotations by 1, the carry fed
forward. -/
theorem eq_iterate_of_add {f : Nat → Nat × Bool → Nat × Bool} {p : Nat × Bool} (h0 : f 0 p = p)
    (hadd : ∀ k, k + 1 < w → f 1 (f k p) = f (k + 1) p) (hk : k < w) : f k p = (f 1)^[k] p := by
  induction k with
  | zero => exact h0
  | succ k ih => rw [Function.iterate_succ_apply', ← ih (by omega), hadd k hk]

theorem rclValue_eq_iterate (ha : a < 2 ^ w) (hk : k < w) (ci : Bool) :
    rclValue w a k ci = (fun p : Nat × Bool => rclValue w p.1 1 p.2)^[k] (a, ci) :=
  eq_iterate_of_add (f := fun k p => rclValue w p.1 k p.2) (p := (a, ci)) rfl
    (fun _ h => rclValue_rclValue ha h ci) hk

theorem rcrValue_eq_iterate (ha : a < 2 ^ w) (hk : k < w) (ci : Bool) :
    rcrValue w a k ci = (fun p : Nat × Bool => rcrValue w p.1 1 p.2)^[k] (a, ci) :=
  eq_iterate_of_add (f := fun k p => rcrValue w p.1 k p.2) (p := (a, ci)) rfl
    (fun _ h => rcrValue_rcrValue ha h ci) hk

/-- RCL undoes RCR: together they turn the ring once around. -/
theorem rclValue_rcrValue (ha : a < 2 ^ w) (hk : k < w) (ci : Bool) :
    rclValue w (rcrValue w a k ci).1 k (rcrValue w a k ci).2 = (a, ci) := by
  rw [rclValue_eq (rcrValue_lt ha _ _) hk, ring_rcrValue ha hk,
    rotate_rotate (ring_lt ha ci) (by omega), show w + 1 - k + k = w + 1 by omega, rotate_full,
    ringParts_ring ha]

/-- Without a sign bit SAR shifts in zeros. -/
theorem sarValue_eq_shrValue (ha : a < 2 ^ w) (hsign : a.testBit (w - 1) = false) (k : Nat) :
    sarValue w a k = shrValue w a k := by
  have hsval : sval w a = (a : Int) := by simp [sval, hsign]
  have hdiv : truncInt w ((a : Int) / ((2 ^ k : Nat) : Int)) = a / 2 ^ k := by
    rw [← Int.natCast_div, truncInt_natCast, trunc_of_lt ((Nat.div_le_self _ _).trans_lt ha)]
  rw [sarValue, shrValue, hsign, hsval, hdiv, if_neg Bool.false_ne_true]

/-- Settles O34: every rotation is a rotation of a ring, where amounts add up and a full turn is
nothing. -/
theorem shiftLaws : Obligations.ShiftLaws := by
  refine fun w a ci _ ha => ⟨fun k h0 hk => ⟨rolValue_eq_or ha h0 hk, ?_,
      rclValue_eq_iterate ha hk ci, rcrValue_eq_iterate ha hk ci⟩,
    fun _ _ h => rolValue_rolValue ha h,
    fun hw => rclValue_rcrValue ha (by omega) ci, sarValue_eq_shrValue ha⟩
  rw [rorValue_eq hk, rolValue_eq ha (by omega)]

end Sys2Proof.Machine
end

section
/-! PROOFS. The family of 43_addsub.md: modular addition and subtraction (O35), the expanding pair
(O36), the ripple-carry datapath (O37) and the laws between the results (O38). -/

namespace Sys2Proof.Machine

variable {s : State} {t : Tag} {wa wb : Field16} {c : Config} {w v a b : Nat} {ci : Bool}

/-! ## What each command answers at legal widths -/

theorem exec_add (hw : widthOk s.cfg wa = true) :
    exec (.add wa wa) s = .next (s.gaveR0 (trunc wa.toNat (s.opA wa + s.opB wa)) wa.toNat) := by
  rw [exec, execAdd, withEqualAB_same hw, respond, State.respond_r0]

theorem exec_sub (hw : widthOk s.cfg wa = true) :
    exec (.sub wa wa) s = .next (s.gaveR0
      (truncInt wa.toNat ((s.opA wa : Int) - (s.opB wa : Int))) wa.toNat) := by
  rw [exec, execSub, withEqualAB_same hw, sub_eq (val_lt _ _ _), respond, State.respond_r0]

theorem exec_expadd (ha : widthOk s.cfg wa = true) (hb : widthOk s.cfg wb = true) :
    exec (.expadd t wa wb ci) s = .next (s.gaveR0
      (expaddValue t wa.toNat wb.toNat (s.opA wa) (s.opB wb) ci) (max wa.toNat wb.toNat + 1)) := by
  rw [exec, execExpadd, withAB_ok ha hb, respond, State.respond_r0]

theorem exec_expsub (ha : widthOk s.cfg wa = true) (hb : widthOk s.cfg wb = true) :
    exec (.expsub t wa wb) s = .next (s.gaveR0
      (truncInt (max wa.toNat wb.toNat)
        (valueOf t wa.toNat (s.opA wa) - valueOf t wb.toNat (s.opB wb)))
      (max wa.toNat wb.toNat)) := by
  rw [exec, execExpsub, withAB_ok ha hb, expsubValue_eq, respond, State.respond_r0]

theorem exec_cast (ha : widthOk s.cfg wa = true) (hb : widthOk s.cfg wb = true) :
    exec (.cast t wa wb) s
      = .next (s.gaveR0 (castValue t wa.toNat wb.toNat (s.opA wa)) wb.toNat) := by
  rw [exec, execCast, usingWidths_ok ha hb, respond, State.respond_r0]

/-! ## ADD and SUB (R161, R163) -/

/-- Settles O35: `a + not b + 1` is the difference modulo 2^WA; that outputs not produced keep their
bits is the model's reading (log entry 5). -/
theorem addAndSubWrap : Obligations.AddAndSubWrap := by
  refine ⟨encodedAs_of_instrOf (fun _ => rfl) rfl, encodedAs_of_instrOf (fun _ => rfl) rfl,
    fun s wa wb ha hb => ⟨?_, fun hne => ?_⟩⟩
  · rintro rfl
    exact ⟨exec_add ha, exec_sub ha⟩
  · rw [exec, execAdd, withEqualAB_mismatch ha hb hne, exec, execSub, withEqualAB_mismatch ha hb hne]
    exact ⟨rfl, rfl⟩

/-! ## EXPADD and EXPSUB (R162, R164) -/

/-- One bit more than the wider operand holds an unsigned sum and its carry-in. -/
theorem add_carry_lt_max (ha : a < 2 ^ w) (hb : b < 2 ^ v) (ci : Bool) :
    a + b + ci.toNat < 2 ^ (max w v + 1) :=
  add_carry_lt (ha.trans_le (Nat.pow_le_pow_right Nat.two_pos (le_max_left w v)))
    (hb.trans_le (Nat.pow_le_pow_right Nat.two_pos (le_max_right w v))) ci

theorem expaddValue_unsigned (ha : a < 2 ^ w) (hb : b < 2 ^ v) (ci : Bool) :
    expaddValue .unsigned w v a b ci = a + b + ci.toNat :=
  trunc_of_lt (add_carry_lt_max ha hb ci)

/-- One bit more than the wider operand holds a signed sum and its carry-in. -/
theorem sval_add_carry_bounds (hw : 1 ≤ w) (hv : 1 ≤ v) (ha : a < 2 ^ w) (hb : b < 2 ^ v)
    (ci : Bool) :
    -((2 ^ max w v : Nat) : Int) ≤ sval w a + sval v b + (ci.toNat : Int) ∧
      sval w a + sval v b + (ci.toNat : Int) < ((2 ^ max w v : Nat) : Int) := by
  have hsa := sval_bounds hw ha
  have hsb := sval_bounds hv hb
  have hc := Bool.toNat_le ci
  have hwm : 2 ^ (w - 1) ≤ 2 ^ (max w v - 1) := Nat.pow_le_pow_right Nat.two_pos (by omega)
  have hvm : 2 ^ (v - 1) ≤ 2 ^ (max w v - 1) := Nat.pow_le_pow_right Nat.two_pos (by omega)
  have hm := two_pow_pred (hw.trans (le_max_left w v))
  omega

/-- EXPADD loses nothing, whatever the tag (R162). -/
theorem valueOf_expaddValue (t : Tag) (hw : 1 ≤ w) (hv : 1 ≤ v) (ha : a < 2 ^ w) (hb : b < 2 ^ v)
    (ci : Bool) : valueOf t (max w v + 1) (expaddValue t w v a b ci)
      = valueOf t w a + valueOf t v b + (ci.toNat : Int) := by
  cases t with
  | unsigned =>
    rw [expaddValue_unsigned ha hb]
    simp only [valueOf, Nat.cast_add]
  | signed =>
    obtain ⟨hlow, hhigh⟩ := sval_add_carry_bounds hw hv ha hb ci
    rw [expaddValue_eq ha hb]
    exact sval_truncInt (Nat.le_add_left 1 _) hlow hhigh

/-- Settles O36: the exact sum is in range at one bit more than the wider operand; that outputs not
produced keep their bits is the model's reading (log entry 5). -/
theorem expandingAddAndSub : Obligations.ExpandingAddAndSub := by
  refine ⟨encodedAs_of_instrOf (fun _ => rfl) rfl, encodedAs_of_instrOf (fun _ => rfl) rfl,
    fun s t wa wb ci ha hb => ⟨⟨_, exec_expadd ha hb, trunc_lt _ _, ?_⟩, exec_expsub ha hb⟩⟩
  exact valueOf_expaddValue t (widthOk_iff.mp ha).1 (widthOk_iff.mp hb).1 (val_lt _ _ _)
    (val_lt _ _ _) ci

/-! ## The ripple-carry datapath (R160) -/

/-- The carry out of a limb is what its sum holds above L bits, also for a carry into a limb of all
ones (C5). -/
theorem carry_eq_div {L t : Nat} (ht : t < 2 ^ (L + 1)) : (decide (2 ^ L ≤ t)).toNat = t / 2 ^ L := by
  have hdiv : t / 2 ^ L < 2 := Nat.div_lt_of_lt_mul (by rwa [← pow_succ])
  by_cases h : 2 ^ L ≤ t
  · have hpos := Nat.div_pos h (by positivity)
    simp only [h, decide_true, Bool.toNat_true]
    omega
  · simp only [h, decide_false, Bool.toNat_false, Nat.div_eq_of_lt (not_le.mp h)]

theorem length_rippleAdd (L : Nat) (xs ys : Bus) (ci : Bool) (h : xs.length = ys.length) :
    (rippleAdd L xs ys ci).length = xs.length := by
  induction xs generalizing ys ci with
  | nil => rfl
  | cons x xs ih =>
    cases ys with
    | nil => cases h
    | cons y ys => exact congrArg (· + 1) (ih ys _ (Nat.succ.inj h))

theorem rippleAdd_lt (L : Nat) (xs ys : Bus) (ci : Bool) : ∀ l ∈ rippleAdd L xs ys ci, l < 2 ^ L := by
  induction xs generalizing ys ci with
  | nil => exact nofun
  | cons x xs ih =>
    cases ys with
    | nil => exact nofun
    | cons y ys => exact List.forall_mem_cons.mpr ⟨trunc_lt _ _, ih ys _⟩

/-- On limbs of L bits the carries give the sum of the two buses (R160). -/
theorem busNat_rippleAdd {L : Nat} {xs ys : Bus} (ci : Bool) (hlen : xs.length = ys.length)
    (hx : ∀ l ∈ xs, l < 2 ^ L) (hy : ∀ l ∈ ys, l < 2 ^ L) :
    busNat L (rippleAdd L xs ys ci)
      = (busNat L xs + busNat L ys + ci.toNat) % 2 ^ (xs.length * L) := by
  induction xs generalizing ys ci with
  | nil => simp [rippleAdd, busNat, Nat.mod_one]
  | cons x xs ih =>
    cases ys with
    | nil => cases hlen
    | cons y ys =>
      obtain ⟨hx0, hxs⟩ := List.forall_mem_cons.mp hx
      obtain ⟨hy0, hys⟩ := List.forall_mem_cons.mp hy
      have hsum : x + 2 ^ L * busNat L xs + (y + 2 ^ L * busNat L ys) + ci.toNat
          = x + y + ci.toNat + 2 ^ L * (busNat L xs + busNat L ys) := by ring
      rw [rippleAdd, busNat, ih _ (Nat.succ.inj hlen) hxs hys, carry_eq_div (add_carry_lt hx0 hy0 ci),
        busNat, busNat, hsum, List.length_cons, Nat.succ_mul, Nat.add_comm _ L, pow_add, Nat.mod_mul,
        Nat.add_mul_mod_self_left, Nat.add_mul_div_left _ _ (by positivity), trunc,
        Nat.add_comm (_ / _)]

/-- The datapath on the buses of two values gives their sum in W bits (R160, R161). -/
theorem busNat_rippleAdd_busOf (ha : a < 2 ^ w) (hb : b < 2 ^ w) (hbus : w ≤ c.nbus * c.L) :
    busNat c.L (rippleAdd c.L (busOf c a w) (busOf c b w) false) % 2 ^ w = trunc w (a + b) := by
  obtain ⟨hlenA, hlimbsA⟩ := busWf_iff.mp (busWf_busOf c a w)
  obtain ⟨hlenB, hlimbsB⟩ := busWf_iff.mp (busWf_busOf c b w)
  rw [busNat_rippleAdd false (hlenA.trans hlenB.symm) hlimbsA hlimbsB, busNat_busOf_of_le ha hbus,
    busNat_busOf_of_le hb hbus, hlenA, Nat.mod_mod_of_dvd _ (pow_dvd_pow 2 hbus)]
  rfl

/-- A bus carries one bit more than a legal width (R8). -/
theorem succ_width_le_bus (hw : widthOk c wa = true) : wa.toNat + 1 ≤ c.nbus * c.L := by
  have hone := (widthOk_iff.mp hw).1
  have htext := text_le_bus hw
  omega

/-- Settles O37, by induction on the limbs; that outputs not produced keep their bits is the model's
reading (log entry 5). -/
theorem rippleCarryIsModularSum : Obligations.RippleCarryIsModularSum := by
  refine ⟨fun _ _ _ _ _ _ => rfl, fun L xs ys ci hlen hx hy =>
    ⟨length_rippleAdd L xs ys ci hlen, rippleAdd_lt L xs ys ci, busNat_rippleAdd ci hlen hx hy⟩,
    fun s wa hw => ?_⟩
  rw [exec_add hw, busNat_rippleAdd_busOf (val_lt _ _ _) (val_lt _ _ _)
    (Nat.le_of_succ_le (succ_width_le_bus hw))]

/-! ## Laws (R165)

First on values modulo 2^W, then on what the commands leave. -/

theorem trunc_add_assoc (w x y z : Nat) :
    trunc w (trunc w (x + y) + z) = trunc w (x + trunc w (y + z)) := by
  simp only [trunc, Nat.mod_add_mod, Nat.add_mod_mod, Nat.add_assoc]

/-- Adding a wrapped integer wraps once. -/
theorem trunc_add_wrapped (w x : Nat) (z : Int) :
    trunc w (x + truncInt w z) = truncInt w (x + z) := by
  rw [← truncInt_natCast, truncInt_congr, Nat.cast_add, truncInt_cast, Int.add_emod_emod]

theorem trunc_sub_add (ha : a < 2 ^ w) : trunc w (truncInt w ((a : Int) - (b : Int)) + b) = a := by
  rw [Nat.add_comm, trunc_add_wrapped, add_sub_cancel, truncInt_natCast, trunc_of_lt ha]

theorem trunc_add_neg (w a b : Nat) :
    trunc w (a + truncInt w (0 - (b : Int))) = truncInt w ((a : Int) - (b : Int)) := by
  rw [trunc_add_wrapped, zero_sub, sub_eq_add_neg]

theorem val_replicate_zero (c : Config) (n w : Nat) : val c (List.replicate n 0) w = 0 := by
  have hzero : busNat c.L (List.replicate n 0) = 0 := by
    induction n with
    | zero => rfl
    | succ n ih => rw [List.replicate_succ, busNat, ih, Nat.mul_zero]
  rw [val, hzero]
  exact Nat.zero_mod _

/-- A wrapped result of legal width reads back from R0 (R13, R15). -/
theorem val_busOf_trunc (hw : widthOk c wa = true) (x : Nat) :
    val c (busOf c (trunc wa.toNat x) wa.toNat) wa.toNat = trunc wa.toNat x :=
  val_busOf_of_widthOk hw rfl (trunc_lt _ _)

theorem val_busOf_truncInt (hw : widthOk c wa = true) (z : Int) :
    val c (busOf c (truncInt wa.toNat z) wa.toNat) wa.toNat = truncInt wa.toNat z :=
  val_busOf_of_widthOk hw rfl (truncInt_lt _ _)

/-- A result that fits its bus, read at a smaller width, is truncated to it (R13). -/
theorem val_busOf_shrink (hv : a < 2 ^ v) (hbus : v ≤ c.nbus * c.L) (w : Nat) :
    val c (busOf c a v) w = trunc w a := by
  rw [val, busNat_busOf_of_le hv hbus]

theorem castValue_shrink (t : Tag) (h : v < w) (a : Nat) : castValue t w v a = trunc v a :=
  if_neg (not_le.mpr h)

/-- Settles O38: each law of commands is a law of values modulo 2^WA, for every result reads back
from the bus that carries it; that outputs not produced keep their bits is the model's reading (log
entry 5). -/
theorem addSubLaws : Obligations.AddSubLaws := by
  intro s wa hw
  have hbus := succ_width_le_bus hw
  have hsum : s.opA wa + s.opB wa < 2 ^ (wa.toNat + 1) :=
    add_carry_lt (val_lt _ _ _) (val_lt _ _ _) false
  have hexp : exec (.expadd .unsigned wa wa false) s
      = .next (s.gaveR0 (s.opA wa + s.opB wa) (wa.toNat + 1)) := exec_expadd_unsigned_same hw false
  refine ⟨_, _, _, _, exec_add hw, exec_sub hw, exec_sub hw, hexp,
    ?commutes, fun x => ⟨_, _, _, exec_add hw, exec_add hw, exec_add hw, ?associates, rfl⟩,
    ⟨_, exec_add hw, ?undoesSub⟩, ⟨_, exec_add hw, ?addsNeg⟩, ?shrinksAsValue,
    fun w' hw' hw'ok => ⟨_, exec_cast hw'ok hw, ?shrinksByCast⟩,
    fun wb ci hb => ⟨_, exec_expadd hw hb, ?exactSum⟩⟩
  case commutes =>
    rw [exec_add (s := { s with a := s.b, b := s.a }) hw, Nat.add_comm]
    rfl
  case associates =>
    simp only [State.gaveR0_r0, State.opA, State.opB, val_busOf_trunc hw, trunc_add_assoc]
  case undoesSub =>
    simp only [State.gaveR0_r0, State.gaveR0_cfg, State.opA, State.opB, val_busOf_truncInt hw,
      trunc_sub_add (val_lt _ _ _)]
    exact val_busOf_of_widthOk hw rfl (val_lt _ _ _)
  case addsNeg =>
    simp only [State.gaveR0_r0, State.opA, State.opB, val_busOf_truncInt hw, val_replicate_zero,
      Nat.cast_zero, trunc_add_neg]
  case shrinksAsValue =>
    simp only [State.gaveR0_r0, State.gaveR0_cfg, val_busOf_trunc hw, val_busOf_shrink hsum hbus]
  case shrinksByCast =>
    simp only [State.gaveR0_r0, State.opA, hw', val_busOf hsum hbus,
      castValue_shrink _ (Nat.lt_succ_self _)]
  case exactSum =>
    have hbus' : max wa.toNat wb.toNat + 1 ≤ s.cfg.nbus * s.cfg.L := by
      have := succ_width_le_bus hb
      omega
    rw [State.gaveR0_cfg, State.gaveR0_r0, expaddValue_unsigned (val_lt _ _ _) (val_lt _ _ _),
      val_busOf (add_carry_lt_max (val_lt _ _ _) (val_lt _ _ _) ci) hbus']

end Sys2Proof.Machine
end

section
/-! PROOFS. The family of 44_mul.md: the schoolbook (O39), Booth (O40) and Karatsuba (O41) products,
MUL and EXPMUL (O42) and the laws between the multipliers (O43). -/

namespace Sys2Proof.Machine

variable {s : State} {t : Tag} {wa wb : Field16} {w v n a b : Nat}

/-! ## Products under a tag -/

/-- The sum of the widths holds a signed product, that of the most negative operands included. -/
theorem sval_product_bounds (hw : 1 ≤ w) (hv : 1 ≤ v) (ha : a < 2 ^ w) (hb : b < 2 ^ v) :
    -((2 ^ (w + v - 1) : Nat) : Int) ≤ sval w a * sval v b ∧
      sval w a * sval v b < ((2 ^ (w + v - 1) : Nat) : Int) := by
  obtain ⟨ha₁, ha₂⟩ := sval_bounds hw ha
  obtain ⟨hb₁, hb₂⟩ := sval_bounds hv hb
  have hle : |sval w a * sval v b| ≤ ((2 ^ (w - 1) * 2 ^ (v - 1) : Nat) : Int) := by
    rw [abs_mul, Nat.cast_mul]
    exact mul_le_mul (abs_le.mpr ⟨ha₁, ha₂.le⟩) (abs_le.mpr ⟨hb₁, hb₂.le⟩) (abs_nonneg _)
      (Int.natCast_nonneg _)
  have hlt : 2 ^ (w - 1) * 2 ^ (v - 1) < 2 ^ (w + v - 1) := by
    rw [← pow_add]
    exact Nat.pow_lt_pow_right Nat.one_lt_two (by omega)
  have habs := abs_lt.mp (hle.trans_lt (Int.ofNat_lt.mpr hlt))
  exact ⟨habs.1.le, habs.2⟩

/-- The product by the tag loses nothing, whatever the tag (R184). -/
theorem valueOf_product (t : Tag) (hw : 1 ≤ w) (hv : 1 ≤ v) (ha : a < 2 ^ w) (hb : b < 2 ^ v) :
    valueOf t (w + v) (truncInt (w + v) (valueOf t w a * valueOf t v b))
      = valueOf t w a * valueOf t v b := by
  cases t with
  | unsigned =>
    simp only [valueOf, ← Nat.cast_mul, truncInt_natCast, trunc_of_lt (product_lt ha hb)]
  | signed =>
    obtain ⟨hlow, hhigh⟩ := sval_product_bounds hw hv ha hb
    exact sval_truncInt (Nat.le_add_right_of_le hw) hlow hhigh

/-- The low bits of a pattern are the smaller pattern. -/
theorem trunc_truncInt (h : w ≤ n) (z : Int) : trunc w (truncInt n z) = truncInt w z := by
  have hdvd : ((2 ^ w : Nat) : Int) ∣ ((2 ^ n : Nat) : Int) :=
    Int.natCast_dvd_natCast.mpr (pow_dvd_pow 2 h)
  rw [← truncInt_natCast, truncInt_congr, truncInt_cast, Int.emod_emod_of_dvd _ hdvd]

/-- Modulo 2^W the tag does not matter to a product (R183). -/
theorem trunc_product (t : Tag) (w a b : Nat) :
    trunc w (truncInt (w + w) (valueOf t w a * valueOf t w b)) = trunc w (a * b) := by
  rw [trunc_truncInt (Nat.le_add_right w w), ← truncInt_natCast, truncInt_congr, Nat.cast_mul,
    Int.mul_emod, valueOf_emod, valueOf_emod, ← Int.mul_emod]

/-! ## What each command answers at legal widths -/

theorem exec_smul (ha : widthOk s.cfg wa = true) (hb : widthOk s.cfg wb = true) :
    exec (.smul wa wb) s
      = .next (s.gaveR0 (s.opA wa * s.opB wb) (wa.toNat + wb.toNat)) := by
  rw [exec, execSmul, withAB_ok ha hb, schoolbook_eq (val_lt _ _ _) (val_lt _ _ _), respond,
    State.respond_r0]

theorem exec_bmul (ha : widthOk s.cfg wa = true) (hb : widthOk s.cfg wb = true) :
    exec (.bmul wa wb) s = .next (s.gaveR0 (truncInt (wa.toNat + wb.toNat)
      (sval wa.toNat (s.opA wa) * sval wb.toNat (s.opB wb))) (wa.toNat + wb.toNat)) := by
  rw [exec, execBmul, withAB_ok ha hb, booth_eq (widthOk_iff.mp ha).1 (widthOk_iff.mp hb).1
    (val_lt _ _ _) (val_lt _ _ _), respond, State.respond_r0]

theorem exec_kmul (ha : widthOk s.cfg wa = true) (hb : widthOk s.cfg wb = true) :
    exec (.kmul wa wb) s
      = .next (s.gaveR0 (s.opA wa * s.opB wb) (2 * max wa.toNat wb.toNat)) := by
  rw [exec, execKmul, withAB_ok ha hb, karatsuba_eq, respond, State.respond_r0]

theorem exec_mul (hw : widthOk s.cfg wa = true) :
    exec (.mul t wa wa) s = .next (s.gaveR0 (trunc wa.toNat (s.opA wa * s.opB wa)) wa.toNat) := by
  have hpos := (widthOk_iff.mp hw).1
  rw [exec, execMul, withEqualAB_same hw, taggedProduct_eq hpos hpos (val_lt _ _ _) (val_lt _ _ _),
    trunc_product, respond, State.respond_r0]

theorem exec_expmul (ha : widthOk s.cfg wa = true) (hb : widthOk s.cfg wb = true) :
    exec (.expmul t wa wb) s = .next (s.gaveR0 (truncInt (wa.toNat + wb.toNat)
      (valueOf t wa.toNat (s.opA wa) * valueOf t wb.toNat (s.opB wb))) (wa.toNat + wb.toNat)) := by
  rw [exec, execExpmul, withAB_ok ha hb, taggedProduct_eq (widthOk_iff.mp ha).1
    (widthOk_iff.mp hb).1 (val_lt _ _ _) (val_lt _ _ _), respond, State.respond_r0]

/-! ## The products are exact (R180 to R184) -/

/-- Settles O39: the accumulator is the product, which the sum of the widths holds; that outputs not
produced keep their bits is the model's reading (log entry 5). -/
theorem schoolbookProductIsExact : Obligations.SchoolbookProductIsExact :=
  ⟨encodedWithTag_of_instrOf (fun _ => rfl) rfl,
    fun _ _ _ ha hb => ⟨exec_smul ha hb, product_lt (val_lt _ _ _) (val_lt _ _ _)⟩⟩

/-- Settles O40: Booth's register holds the pattern of the signed product, which the sum of the
widths holds; that outputs not produced keep their bits is the model's reading (log entry 5). -/
theorem boothProductIsExact : Obligations.BoothProductIsExact := by
  refine ⟨encodedWithTag_of_instrOf (fun _ => rfl) rfl,
    fun s wa wb ha hb => ⟨_, exec_bmul ha hb, rfl, ?_⟩⟩
  exact valueOf_product .signed (widthOk_iff.mp ha).1 (widthOk_iff.mp hb).1 (val_lt _ _ _)
    (val_lt _ _ _)

/-- Settles O41: the recursion is the product, which twice the wider width holds; that outputs not
produced keep their bits is the model's reading (log entry 5). -/
theorem karatsubaProductIsExact : Obligations.KaratsubaProductIsExact :=
  ⟨encodedWithTag_of_instrOf (fun _ => rfl) rfl,
    fun _ _ _ ha hb => ⟨exec_kmul ha hb, wide_product_lt (val_lt _ _ _) (val_lt _ _ _)⟩⟩

/-- Settles O42: modulo 2^WA both tags give one product, and the sum of the widths holds the product
under either; that outputs not produced keep their bits is the model's reading (log entry 5). -/
theorem mulAndExpmul : Obligations.MulAndExpmul := by
  refine ⟨encodedAs_of_instrOf (fun _ => rfl) rfl, encodedAs_of_instrOf (fun _ => rfl) rfl,
    fun s t wa wb ha hb => ⟨?same, ?mismatch, _, exec_expmul ha hb, truncInt_lt _ _, ?exact⟩⟩
  case same =>
    rintro rfl
    exact exec_mul ha
  case mismatch =>
    intro hne
    rw [exec, execMul, withEqualAB_mismatch ha hb hne, respond, State.respond_raise]
  case exact =>
    exact valueOf_product t (widthOk_iff.mp ha).1 (widthOk_iff.mp hb).1 (val_lt _ _ _)
      (val_lt _ _ _)

/-! ## Laws (R185) -/

/-- The state with the operand buses exchanged. -/
def State.swapped (s : State) : State := { s with a := s.b, b := s.a }

theorem State.swapped_opA (s : State) (wa : Field16) : s.swapped.opA wa = s.opB wa := rfl

theorem State.swapped_opB (s : State) (wb : Field16) : s.swapped.opB wb = s.opA wb := rfl

theorem exec_mul_swapped (hw : widthOk s.cfg wa = true) :
    exec (.mul t wa wa) s.swapped
      = .next (s.swapped.gaveR0 (trunc wa.toNat (s.opA wa * s.opB wa)) wa.toNat) := by
  rw [exec_mul (s := s.swapped) hw, State.swapped_opA, State.swapped_opB, Nat.mul_comm]

theorem exec_smul_swapped (ha : widthOk s.cfg wa = true) (hb : widthOk s.cfg wb = true) :
    exec (.smul wb wa) s.swapped
      = .next (s.swapped.gaveR0 (s.opA wa * s.opB wb) (wa.toNat + wb.toNat)) := by
  rw [exec_smul (s := s.swapped) hb ha, State.swapped_opA, State.swapped_opB, Nat.mul_comm,
    Nat.add_comm]

theorem exec_bmul_swapped (ha : widthOk s.cfg wa = true) (hb : widthOk s.cfg wb = true) :
    exec (.bmul wb wa) s.swapped = .next (s.swapped.gaveR0 (truncInt (wa.toNat + wb.toNat)
      (sval wa.toNat (s.opA wa) * sval wb.toNat (s.opB wb))) (wa.toNat + wb.toNat)) := by
  rw [exec_bmul (s := s.swapped) hb ha, State.swapped_opA, State.swapped_opB, Int.mul_comm,
    Nat.add_comm]

/-- Settles O43: the multipliers agree because they give one product, and swapping its factors keeps
it; that outputs not produced keep their bits is the model's reading (log entry 5). -/
theorem multipliersAgree : Obligations.MultipliersAgree := by
  intro s t wa hw
  have hwidth : wa.toNat + wa.toNat = 2 * max wa.toNat wa.toNat := by omega
  have hbus : wa.toNat + wa.toNat ≤ s.cfg.nbus * s.cfg.L := by
    have htext := text_le_bus hw
    omega
  have hsmulLow : val s.cfg (busOf s.cfg (s.opA wa * s.opB wa) (wa.toNat + wa.toNat)) wa.toNat
      = trunc wa.toNat (s.opA wa * s.opB wa) :=
    val_busOf_shrink (product_lt (val_lt _ _ _) (val_lt _ _ _)) hbus _
  refine ⟨_, _, _, _, exec_smul hw hw, exec_bmul hw hw, exec_kmul hw hw, exec_mul hw,
    ?sameR0, ?sameRW0, ?boothLow, ?mulLow, exec_mul_swapped hw,
    fun wb hb => ⟨_, _, exec_smul hw hb, exec_bmul hw hb, exec_smul_swapped hw hb,
      exec_bmul_swapped hw hb⟩⟩
  case sameR0 => rw [State.gaveR0_r0, State.gaveR0_r0, hwidth]
  case sameRW0 => rw [State.gaveR0_rw0, State.gaveR0_rw0, hwidth]
  case boothLow =>
    simp only [State.gaveR0_cfg, State.gaveR0_r0]
    rw [hsmulLow, val_busOf_shrink (truncInt_lt _ _) hbus]
    exact trunc_product .signed _ _ _
  case mulLow =>
    simp only [State.gaveR0_cfg, State.gaveR0_r0]
    rw [hsmulLow, val_busOf_trunc hw]

end Sys2Proof.Machine
end

section
/-! PROOFS. The family of 45_div.md: restoring division (O44), its fast paths (O46), the division
invariant (O47) and the projections DIV and REM (O45). -/

namespace Sys2Proof.Machine

variable {s : State} {t : Tag} {wa wb : Field16} {w n d a b : Nat} {x y : Int}

/-! ## What each command answers at legal widths -/

theorem exec_rdiv (ha : widthOk s.cfg wa = true) (hb : widthOk s.cfg wb = true) :
    exec (.rdiv t wa wb) s = .next (if s.opB wb = 0 then s.gaveError .divisionByZero
      else s.gaveR0R1 (divrem t wa.toNat wb.toNat (s.opA wa) (s.opB wb)).1 wa.toNat
        (divrem t wa.toNat wb.toNat (s.opA wa) (s.opB wb)).2 wa.toNat) := by
  rw [exec, execRdiv, withAB_ok ha hb]
  exact respond_ite _ _ _

theorem exec_div (ha : widthOk s.cfg wa = true) (hb : widthOk s.cfg wb = true) :
    exec (.div t wa wb) s = .next (if s.opB wb = 0 then s.gaveError .divisionByZero
      else s.gaveR0 (divrem t wa.toNat wb.toNat (s.opA wa) (s.opB wb)).1 wa.toNat) := by
  rw [exec, execDiv, withAB_ok ha hb]
  exact respond_ite _ _ _

theorem exec_rem (ha : widthOk s.cfg wa = true) (hb : widthOk s.cfg wb = true) :
    exec (.rem t wa wb) s = .next (if s.opB wb = 0 then s.gaveError .divisionByZero
      else s.gaveR0 (divrem t wa.toNat wb.toNat (s.opA wa) (s.opB wb)).2 wa.toNat) := by
  rw [exec, execRem, withAB_ok ha hb]
  exact respond_ite _ _ _

/-! ## Quotient and remainder (R200) -/

theorem exec_rdiv_unsigned (ha : widthOk s.cfg wa = true) (hb : widthOk s.cfg wb = true)
    (h0 : s.opB wb ≠ 0) : exec (.rdiv .unsigned wa wb) s = .next (s.gaveR0R1
      (s.opA wa / s.opB wb) wa.toNat (s.opA wa % s.opB wb) wa.toNat) := by
  rw [exec_rdiv ha hb, if_neg h0, divrem, udivrem_eq (Nat.pos_of_ne_zero h0) (val_lt _ _ _)]

theorem exec_rdiv_signed (ha : widthOk s.cfg wa = true) (hb : widthOk s.cfg wb = true)
    (h0 : s.opB wb ≠ 0) : exec (.rdiv .signed wa wb) s = .next (s.gaveR0R1
      (truncInt wa.toNat ((sval wa.toNat (s.opA wa)).tdiv (sval wb.toNat (s.opB wb)))) wa.toNat
      (truncInt wa.toNat ((sval wa.toNat (s.opA wa)).tmod (sval wb.toNat (s.opB wb))))
        wa.toNat) := by
  rw [exec_rdiv ha hb, if_neg h0,
    divrem_eq (widthOk_iff.mp ha).1 (val_lt _ _ _) (val_lt _ _ _) h0]
  rfl

/-- Settles O44: the restoring loop divides, and the sign rules make it truncating division; that
outputs not produced keep their bits is the model's reading (log entry 5). -/
theorem restoringDivision : Obligations.RestoringDivision := by
  refine ⟨encodedAs_of_instrOf (fun _ => rfl) rfl, fun s wa wb ha hb =>
    ⟨fun h0 => ⟨exec_rdiv_unsigned ha hb h0, exec_rdiv_signed ha hb h0⟩, fun h0 t => ?_⟩⟩
  rw [exec_rdiv ha hb, if_pos h0]

/-! ## Fast paths (R201) -/

/-- The four ways the function of the fast paths can answer. -/
theorem fastPath_cases {qr : Nat × Nat} (h : fastPath n d = some qr) :
    n = d ∧ qr = (1, 0) ∨ n = 0 ∧ qr = (0, 0) ∨ n < d ∧ qr = (0, n) ∨ d = 1 ∧ qr = (n, 0) := by
  rw [fastPath] at h
  split_ifs at h with heq hzero hlt hone <;> cases h
  · exact .inl ⟨heq, rfl⟩
  · exact .inr (.inl ⟨hzero, rfl⟩)
  · exact .inr (.inr (.inl ⟨hlt, rfl⟩))
  · exact .inr (.inr (.inr ⟨hone, rfl⟩))

/-- Settles O46: quotient and remainder of each fast path are those the loop computes. -/
theorem divisionFastPaths : Obligations.DivisionFastPaths := by
  intro n d w hd hn
  rw [udivrem_eq hd hn]
  have hequal : n = d → (n / d, n % d) = (1, 0) := by
    rintro rfl
    rw [Nat.div_self hd, Nat.mod_self]
  have hzero : n = 0 → (n / d, n % d) = (0, 0) := by
    rintro rfl
    rw [Nat.zero_div, Nat.zero_mod]
  have hless : n < d → (n / d, n % d) = (0, n) := fun h => by
    rw [Nat.div_eq_of_lt h, Nat.mod_eq_of_lt h]
  have hone : d = 1 → (n / d, n % d) = (n, 0) := by
    rintro rfl
    rw [Nat.div_one, Nat.mod_one]
  refine ⟨hequal, hzero, hless, hone, fun qr hqr => ?_⟩
  rcases fastPath_cases hqr with ⟨h, rfl⟩ | ⟨h, rfl⟩ | ⟨h, rfl⟩ | ⟨h, rfl⟩
  · exact hequal h
  · exact hzero h
  · exact hless h
  · exact hone h

/-! ## The division invariant (R204)

First for integers, then for the patterns RDIV leaves. -/

/-- A truncated quotient lies in its numerator's signed range, but for the one that wraps. -/
theorem tdiv_mem_range {m : Int} (hlow : -m ≤ x) (hhigh : x < m) (hy : y ≠ 0)
    (hfit : ¬(x = -m ∧ y = -1)) : -m ≤ x.tdiv y ∧ x.tdiv y < m := by
  have habs : (x.tdiv y).natAbs = x.natAbs / y.natAbs := Int.natAbs_tdiv x y
  rcases Nat.lt_or_ge y.natAbs 2 with hunit | hlarge
  · obtain rfl | rfl : y = 1 ∨ y = -1 := by omega
    · rw [Int.tdiv_one]
      exact ⟨hlow, hhigh⟩
    · rw [Int.tdiv_neg, Int.tdiv_one]
      omega
  · have hhalf : x.natAbs / y.natAbs ≤ x.natAbs / 2 := Nat.div_le_div_left hlarge (by norm_num)
    omega

/-- A truncated remainder is 0 or has the numerator's sign. -/
theorem tmod_eq_zero_or_sign (x y : Int) : x.tmod y = 0 ∨ (x.tmod y < 0 ↔ x < 0) := by
  have hsign := Int.sign_tmod x y
  split at hsign
  · exact .inl (Int.sign_eq_zero_iff_zero.mp hsign)
  · refine .inr ?_
    rw [← Int.sign_eq_neg_one_iff_neg, hsign, Int.sign_eq_neg_one_iff_neg]

/-- A truncated remainder lies in its numerator's signed range. -/
theorem tmod_mem_range {m : Int} (hlow : -m ≤ x) (hhigh : x < m) (y : Int) :
    -m ≤ x.tmod y ∧ x.tmod y < m := by
  have hle : (x.tmod y).natAbs ≤ x.natAbs := by
    rw [Int.natAbs_tmod]
    exact Nat.mod_le _ _
  have hsign := tmod_eq_zero_or_sign x y
  omega

theorem abs_tmod_lt (x : Int) (hy : y ≠ 0) : |x.tmod y| < |y| := by
  rw [Int.abs_eq_natAbs, Int.abs_eq_natAbs, Int.natAbs_tmod]
  exact Int.ofNat_lt.mpr (Nat.mod_lt _ (Int.natAbs_pos.mpr hy))

theorem sval_truncInt_tdiv (hw : 1 ≤ w) (ha : a < 2 ^ w) (hy : y ≠ 0)
    (hfit : ¬(sval w a = -2 ^ (w - 1) ∧ y = -1)) :
    sval w (truncInt w ((sval w a).tdiv y)) = (sval w a).tdiv y := by
  obtain ⟨hlow, hhigh⟩ := sval_bounds hw ha
  have hrange := tdiv_mem_range hlow hhigh hy (by simpa using hfit)
  exact sval_truncInt hw hrange.1 hrange.2

theorem sval_truncInt_tmod (hw : 1 ≤ w) (ha : a < 2 ^ w) (y : Int) :
    sval w (truncInt w ((sval w a).tmod y)) = (sval w a).tmod y := by
  obtain ⟨hlow, hhigh⟩ := sval_bounds hw ha
  have hrange := tmod_mem_range hlow hhigh y
  exact sval_truncInt hw hrange.1 hrange.2

/-- Modulo 2^W the patterns of a product and a sum may stand for the integers. -/
theorem trunc_mul_add_truncInt (w b : Nat) (x y : Int) :
    trunc w (truncInt w x * b + truncInt w y) = truncInt w (x * sval w b + y) := by
  rw [← truncInt_natCast, truncInt_congr, Nat.cast_add, Nat.cast_mul, truncInt_cast, truncInt_cast]
  exact ((Int.mod_modEq x _).mul (sval_emod w b).symm).add (Int.mod_modEq y _)

/-- Settles O47: R0 and R1 read back as quotient and remainder, for which the invariant is that of
truncating division; modulo 2^WA the wrapped quotient satisfies it too. -/
theorem divisionInvariant : Obligations.DivisionInvariant := by
  intro s wa wb ha hb h0
  have hwidth := (widthOk_iff.mp ha).1
  have hnum : s.opA wa < 2 ^ wa.toNat := val_lt _ _ _
  have hden : sval wb.toNat (s.opB wb) ≠ 0 := mt (sval_eq_zero (val_lt _ _ _)).mp h0
  refine ⟨⟨_, exec_rdiv_unsigned ha hb h0, ?unsigned⟩, _, exec_rdiv_signed ha hb h0, ?signed⟩
  case unsigned =>
    have hquot : s.opA wa / s.opB wb < 2 ^ wa.toNat := (Nat.div_le_self _ _).trans_lt hnum
    have hrem : s.opA wa % s.opB wb < 2 ^ wa.toNat := (Nat.mod_le _ _).trans_lt hnum
    simp only [State.gaveR0R1_cfg, State.gaveR0R1_r0, State.gaveR0R1_r1,
      val_busOf_of_widthOk ha rfl hquot, val_busOf_of_widthOk ha rfl hrem]
    exact ⟨(Nat.div_add_mod' _ _).symm, Nat.mod_lt _ (Nat.pos_of_ne_zero h0)⟩
  case signed =>
    simp only [State.gaveR0R1_cfg, State.gaveR0R1_r0, State.gaveR0R1_r1, val_busOf_truncInt ha,
      sval_truncInt_tmod hwidth hnum]
    refine ⟨fun hfit => ?_, abs_tmod_lt _ hden, tmod_eq_zero_or_sign _ _, ?_⟩
    · rw [sval_truncInt_tdiv hwidth hnum hden hfit, Int.tdiv_mul_add_tmod]
    · rintro rfl
      refine (trunc_mul_add_truncInt _ _ _ _).trans ?_
      rw [Int.tdiv_mul_add_tmod, truncInt_sval hnum]

/-! ## Projections (R202, R203) -/

/-- Settles O45: the three commands answer from the same quotient and remainder; that outputs not
produced keep their bits is the model's reading (log entry 5). -/
theorem divAndRemProjectRdiv : Obligations.DivAndRemProjectRdiv := by
  refine ⟨encodedAs_of_instrOf (fun _ => rfl) rfl, encodedAs_of_instrOf (fun _ => rfl) rfl,
    fun s t wa wb ha hb => ?_⟩
  rw [exec_div ha hb, exec_rem ha hb]
  constructor
  · intro h0
    rw [exec_rdiv ha hb, if_neg h0, if_neg h0, if_neg h0]
    exact ⟨_, _, rfl, rfl, rfl⟩
  · intro h0
    rw [if_pos h0, if_pos h0]
    exact ⟨rfl, rfl⟩

end Sys2Proof.Machine
end

section
/-! PROOFS. The family of 46_widthcast.md: CAST at legal widths (O48) and casts up and back and in two
steps (O49). -/

namespace Sys2Proof.Machine

variable {s : State} {t : Tag} {wa wb wc : Field16} {w n m a v : Nat}

/-! ## Values

Growing and shrinking are one: the target's pattern of the integer that the tag reads. -/

theorem castValue_grow (h : w ≤ n) : castValue t w n a = ext t n w a := if_pos h

theorem ext_eq_truncInt_valueOf (ha : a < 2 ^ w) (h : w ≤ n) :
    ext t n w a = truncInt n (valueOf t w a) := by
  cases t with
  | unsigned =>
    rw [valueOf, truncInt_natCast]
    exact (trunc_of_lt (ext_lt ha h)).symm
  | signed => rfl

theorem castValue_eq_truncInt_valueOf (ha : a < 2 ^ w) :
    castValue t w n a = truncInt n (valueOf t w a) := by
  rcases le_or_gt w n with h | h
  · rw [castValue_grow h, ext_eq_truncInt_valueOf ha h]
  · rw [castValue_shrink t h, ← trunc_truncInt h.le, truncInt_valueOf ha]

/-- Growing keeps the value under the tag (R220). -/
theorem valueOf_castValue (hw : 1 ≤ w) (ha : a < 2 ^ w) (h : w ≤ n) :
    valueOf t n (castValue t w n a) = valueOf t w a := by
  rw [castValue_grow h, valueOf_ext hw ha h]

/-- After growing, a second cast to any width is the cast there in one step (R221). -/
theorem castValue_castValue (hw : 1 ≤ w) (ha : a < 2 ^ w) (h : w ≤ n) :
    castValue t n m (castValue t w n a) = castValue t w m a := by
  rw [castValue_eq_truncInt_valueOf (castValue_lt ha), valueOf_castValue hw ha h,
    castValue_eq_truncInt_valueOf ha]

theorem castValue_self (ha : a < 2 ^ w) : castValue t w w a = a := by
  rw [castValue_eq_truncInt_valueOf ha, truncInt_valueOf ha]

/-! ## Commands -/

/-- Settles O48: growing extends by the tag, shrinking truncates; that outputs not produced keep their
bits is the model's reading (log entry 5). -/
theorem castGrowsAndShrinks : Obligations.CastGrowsAndShrinks := by
  refine ⟨encodedAs_of_instrOf (fun _ => rfl) rfl, fun s t wa wb ha hb =>
    ⟨_, exec_cast ha hb, castValue_lt (val_lt _ _ _), fun hgrow => ?_, fun hshrink => ?_⟩⟩
  · exact valueOf_castValue (widthOk_iff.mp ha).1 (val_lt _ _ _) hgrow
  · exact castValue_shrink t hshrink _

/-- CAST of a result that stands on bus A starts from the result's value (R13, R15). -/
theorem exec_cast_of_bus (hb : widthOk s.cfg wb = true) (hc : widthOk s.cfg wc = true)
    (hv : v < 2 ^ wb.toNat) (hbus : s.a = busOf s.cfg v wb.toNat) :
    exec (.cast t wb wc) s
      = .next (s.gaveR0 (castValue t wb.toNat wc.toNat v) wc.toNat) := by
  rw [exec_cast hb hc, State.opA, hbus, val_busOf_of_widthOk hb rfl hv]

/-- Settles O49: a cast after a cast up is the cast from the first width, and the cast to the value's
own width is the value. -/
theorem castRoundTrip : Obligations.CastRoundTrip := by
  intro s t wa wb ha hb hle
  have hwa := (widthOk_iff.mp ha).1
  have hval : s.opA wa < 2 ^ wa.toNat := val_lt _ _ _
  have hgrown : castValue t wa.toNat wb.toNat (s.opA wa) < 2 ^ wb.toNat := castValue_lt hval
  refine ⟨_, exec_cast ha hb, ⟨_, exec_cast_of_bus hb ha hgrown rfl, ?value, ?width⟩,
    fun wc hc _ => ⟨_, _, exec_cast_of_bus hb hc hgrown rfl, exec_cast ha hc, ?r0, rfl⟩⟩
  case value =>
    rw [castValue_castValue hwa hval hle, castValue_self hval]
    exact val_busOf_of_widthOk ha rfl hval
  case width => exact BitVec.ofNat_toNat 32 wa
  case r0 =>
    rw [castValue_castValue hwa hval hle]
    rfl

end Sys2Proof.Machine
end

section
/-! PROOFS. The family of 47_bitwise_compare.md: AND, OR and NOT (O50), the comparisons (O51) and the
laws between their results (O52, O60). -/

namespace Sys2Proof.Machine

variable {s : State} {t : Tag} {wa wb : Field16} {w a b : Nat} {op : Instr} {f : Nat → Nat → Nat}

/-! ## What each command answers at a legal width -/

theorem exec_and (hw : widthOk s.cfg wa = true) :
    exec (.and wa wa) s = .next (s.gaveR0 (s.opA wa &&& s.opB wa) wa.toNat) := by
  rw [exec, execAnd, withEqualAB_same hw, respond, State.respond_r0]

theorem exec_or (hw : widthOk s.cfg wa = true) :
    exec (.or wa wa) s = .next (s.gaveR0 (s.opA wa ||| s.opB wa) wa.toNat) := by
  rw [exec, execOr, withEqualAB_same hw, respond, State.respond_r0]

theorem exec_not (hw : widthOk s.cfg wa = true) :
    exec (.not wa) s = .next (s.gaveR0 (complement wa.toNat (s.opA wa)) wa.toNat) := by
  rw [exec, execNot, withA_ok hw, respond, State.respond_r0]

theorem exec_eq (hw : widthOk s.cfg wa = true) :
    exec (.eq wa wa) s = .next (s.gaveBit (eqFlag (s.opA wa) (s.opB wa))) := by
  rw [exec, execEq, withEqualAB_same hw, respond, State.respond_bit]

theorem exec_ne (hw : widthOk s.cfg wa = true) :
    exec (.ne wa wa) s = .next (s.gaveBit !eqFlag (s.opA wa) (s.opB wa)) := by
  rw [exec, execNe, withEqualAB_same hw, respond, State.respond_bit]

theorem exec_lt (hw : widthOk s.cfg wa = true) :
    exec (.lt t wa wa) s = .next (s.gaveBit (ltFlag t wa.toNat (s.opA wa) (s.opB wa))) := by
  rw [exec, execLt, withEqualAB_same hw, respond, State.respond_bit]

theorem exec_le (hw : widthOk s.cfg wa = true) :
    exec (.le t wa wa) s = .next (s.gaveBit (leFlag t wa.toNat (s.opA wa) (s.opB wa))) := by
  rw [exec, execLe, withEqualAB_same hw, respond, State.respond_bit]

theorem exec_gt (hw : widthOk s.cfg wa = true) :
    exec (.gt t wa wa) s = .next (s.gaveBit (ltFlag t wa.toNat (s.opB wa) (s.opA wa))) := by
  rw [exec, execGt, withEqualAB_same hw, respond, State.respond_bit]

theorem exec_ge (hw : widthOk s.cfg wa = true) :
    exec (.ge t wa wa) s = .next (s.gaveBit (leFlag t wa.toNat (s.opB wa) (s.opA wa))) := by
  rw [exec, execGe, withEqualAB_same hw, respond, State.respond_bit]

/-- A command on two operands of one width, at two legal but different widths (R74, R300). -/
theorem exec_widthMismatch (ha : widthOk s.cfg wa = true) (hb : widthOk s.cfg wb = true)
    (hne : wb ≠ wa) (k : Nat → Nat → Nat → Response)
    (hop : exec op s = respond s (withEqualAB s wa wb k)) :
    exec op s = .next (s.gaveError .widthMismatch) := by
  rw [hop, withEqualAB_mismatch ha hb hne, respond, State.respond_raise]

/-! ## Bitwise operations (R230 to R232) -/

/-- Settles O50, bit by bit; that outputs not produced keep their bits is the model's reading (log
entry 5). -/
theorem bitwiseResults : Obligations.BitwiseResults := by
  refine ⟨encodedAs_of_instrOf (fun _ => rfl) rfl, encodedAs_of_instrOf (fun _ => rfl) rfl,
    encodedAs_of_instrOf (fun _ => rfl) rfl, fun s wa wb ha hb => ⟨?same, fun hne => ⟨?_, ?_⟩,
    _, exec_not ha, rfl, testBit_complement (val_lt _ _ _)⟩⟩
  case same =>
    rintro rfl
    exact ⟨⟨_, exec_and ha, Nat.and_lt_two_pow _ (val_lt _ _ _), Nat.testBit_and _ _⟩,
      _, exec_or ha, Nat.or_lt_two_pow (val_lt _ _ _) (val_lt _ _ _), Nat.testBit_or _ _⟩
  all_goals exact exec_widthMismatch ha hb hne _ rfl

/-! ## Comparisons (R233 to R238) -/

/-- Unsigned the readings are the values themselves. -/
theorem ltFlag_unsigned (w a b : Nat) : ltFlag .unsigned w a b = decide (a < b) :=
  decide_eq_decide.mpr Int.ofNat_lt

theorem leFlag_unsigned (w a b : Nat) : leFlag .unsigned w a b = decide (a ≤ b) :=
  decide_eq_decide.mpr Int.ofNat_le

/-- Settles O51; that outputs not produced keep their bits is the model's reading (log entry 5). -/
theorem comparisonResults : Obligations.ComparisonResults := by
  refine ⟨encodedAs_of_instrOf (fun _ => rfl) rfl, encodedAs_of_instrOf (fun _ => rfl) rfl,
    encodedAs_of_instrOf (fun _ => rfl) rfl, encodedAs_of_instrOf (fun _ => rfl) rfl,
    encodedAs_of_instrOf (fun _ => rfl) rfl, encodedAs_of_instrOf (fun _ => rfl) rfl,
    fun s wa wb ha hb => ⟨?same, fun hne t => ?mismatch⟩⟩
  case same =>
    rintro rfl _ _ rfl rfl
    simp only [ne_eq, decide_not, gt_iff_lt, ge_iff_le, ← ltFlag_unsigned wb.toNat,
      ← leFlag_unsigned wb.toNat]
    exact ⟨exec_eq ha, exec_ne ha, exec_lt ha, exec_le ha, exec_gt ha, exec_ge ha, exec_lt ha,
      exec_le ha, exec_gt ha, exec_ge ha⟩
  case mismatch =>
    have hguard : ∀ i ∈ [Instr.eq wa wb, .ne wa wb, .lt t wa wb, .le t wa wb, .gt t wa wb,
        .ge t wa wb], ∃ k, exec i s = respond s (withEqualAB s wa wb k) := by
      simp only [List.forall_mem_cons]
      exact ⟨⟨_, rfl⟩, ⟨_, rfl⟩, ⟨_, rfl⟩, ⟨_, rfl⟩, ⟨_, rfl⟩, ⟨_, rfl⟩, nofun⟩
    intro i hi
    obtain ⟨k, hk⟩ := hguard i hi
    exact exec_widthMismatch ha hb hne k hk

/-! ## Laws of the comparisons (R239) -/

theorem leFlag_eq_not_ltFlag (t : Tag) (w a b : Nat) : leFlag t w a b = !ltFlag t w b a := by
  rw [leFlag, ltFlag, ← decide_not, decide_eq_decide, not_lt]

/-- A tag reads different patterns as different integers. -/
theorem valueOf_inj (ha : a < 2 ^ w) (hb : b < 2 ^ w) : valueOf t w a = valueOf t w b ↔ a = b := by
  refine ⟨fun h => ?_, congrArg _⟩
  rw [← truncInt_valueOf (t := t) ha, h, truncInt_valueOf hb]

/-- Trichotomy: of LT, EQ and GT exactly one gives 1. -/
theorem lt_eq_gt_flags_sum (ha : a < 2 ^ w) (hb : b < 2 ^ w) :
    (ltFlag t w a b).toNat + (eqFlag a b).toNat + (ltFlag t w b a).toNat = 1 := by
  have heq : eqFlag a b = decide (valueOf t w a = valueOf t w b) :=
    decide_eq_decide.mpr (valueOf_inj ha hb).symm
  rw [heq, ltFlag, ltFlag]
  rcases lt_trichotomy (valueOf t w a) (valueOf t w b) with h | h | h
  · simp [h, h.ne, h.le]
  · simp [h]
  · simp [h, h.ne', h.le]

/-- A wrapped difference is 0 exactly between equal values. -/
theorem truncInt_sub_eq_zero_iff (ha : a < 2 ^ w) (hb : b < 2 ^ w) :
    truncInt w ((a : Int) - (b : Int)) = 0 ↔ a = b := by
  have hundo := trunc_sub_add (b := b) ha
  constructor
  · intro h
    rw [h, Nat.zero_add, trunc_of_lt hb] at hundo
    exact hundo.symm
  · rintro rfl
    rw [Int.sub_self]
    rfl

/-- De Morgan's law within a width. -/
theorem complement_and (ha : a < 2 ^ w) (hb : b < 2 ^ w) :
    complement w (a &&& b) = complement w a ||| complement w b := by
  refine Nat.eq_of_testBit_eq fun i => ?_
  rw [Nat.testBit_or, testBit_complement (Nat.and_lt_two_pow a hb), testBit_complement ha,
    testBit_complement hb, Nat.testBit_and, Bool.not_and, Bool.and_or_distrib_left]

/-- Settles O52: each law of results is a law of flags or of values within the width; that outputs not
produced keep their bits is the model's reading (log entry 5). -/
theorem comparisonLaws : Obligations.ComparisonLaws := by
  intro s t wa hw
  have ha : s.opA wa < 2 ^ wa.toNat := val_lt _ _ _
  have hb : s.opB wa < 2 ^ wa.toNat := val_lt _ _ _
  refine ⟨_, _, _, exec_lt hw, exec_eq hw, exec_gt hw, ?le, ?ge, exec_ne hw,
    lt_eq_gt_flags_sum ha hb, ⟨_, truncInt_lt _ _, exec_sub hw, ?zero⟩,
    _, _, _, exec_and hw, exec_not hw, exec_not hw, _, _, exec_not hw, exec_or hw, ?deMorgan⟩
  case le => rw [exec_le hw, leFlag_eq_not_ltFlag]
  case ge => rw [exec_ge hw, leFlag_eq_not_ltFlag]
  case zero => rw [truncInt_sub_eq_zero_iff ha hb, eqFlag, decide_eq_true_iff]
  case deMorgan =>
    simp only [State.gaveR0_r0, State.opA, State.opB,
      val_busOf_of_widthOk hw rfl (Nat.and_lt_two_pow _ hb),
      val_busOf_of_widthOk hw rfl (complement_lt _ _), complement_and ha hb]

/-! ## Laws of AND and OR (R239) -/

/-- On the buses of `s` and every third bus the command `op` is commutative and associative, on the
values it leaves. -/
def CommutesAndAssociates (op : Instr) (s : State) : Prop :=
  ∃ u v, exec op s = .next u ∧ exec op { s with a := s.b, b := s.a } = .next v ∧
    u.r0 = v.r0 ∧ u.rw0 = v.rw0 ∧
    ∀ x : Bus, ∃ right l r, exec op { s with a := s.b, b := x } = .next right ∧
      exec op { s with a := u.r0, b := x } = .next l ∧
      exec op { s with b := right.r0 } = .next r ∧ l.r0 = r.r0 ∧ l.rw0 = r.rw0

/-- A command that leaves the value of a commutative and associative operation within its width. -/
theorem commutesAndAssociates_of_value (hw : widthOk s.cfg wa = true)
    (hop : ∀ u : State, u.cfg = s.cfg →
      exec op u = .next (u.gaveR0 (f (u.opA wa) (u.opB wa)) wa.toNat))
    (hlt : ∀ {x y}, x < 2 ^ wa.toNat → y < 2 ^ wa.toNat → f x y < 2 ^ wa.toNat)
    (hcomm : ∀ x y, f x y = f y x) (hassoc : ∀ x y z, f (f x y) z = f x (f y z)) :
    CommutesAndAssociates op s := by
  have hread : ∀ x y : Bus, val s.cfg (busOf s.cfg (f (val s.cfg x wa.toNat) (val s.cfg y wa.toNat))
      wa.toNat) wa.toNat = f (val s.cfg x wa.toNat) (val s.cfg y wa.toNat) := fun x y =>
    val_busOf_of_widthOk hw rfl (hlt (val_lt _ _ _) (val_lt _ _ _))
  refine ⟨_, _, hop _ rfl, hop _ rfl, ?commutes, rfl,
    fun x => ⟨_, _, _, hop _ rfl, hop _ rfl, hop _ rfl, ?associates, rfl⟩⟩
  case commutes => simp only [State.gaveR0_r0, State.opA, State.opB, hcomm (val s.cfg s.a wa.toNat)]
  case associates => simp only [State.gaveR0_r0, State.opA, State.opB, hread, hassoc]

/-- Settles O60: both commands leave the value of a commutative and associative operation. -/
theorem andOrLaws : Obligations.AndOrLaws := by
  intro s wa hw
  refine List.forall_mem_cons.mpr ⟨?_, List.forall_mem_singleton.mpr ?_⟩
  · exact commutesAndAssociates_of_value hw (fun _ hcfg => exec_and (hcfg ▸ hw))
      (fun _ hy => Nat.and_lt_two_pow _ hy) Nat.and_comm Nat.and_assoc
  · exact commutesAndAssociates_of_value hw (fun _ hcfg => exec_or (hcfg ▸ hw))
      Nat.or_lt_two_pow Nat.or_comm Nat.or_assoc

end Sys2Proof.Machine
end

section
/-! PROOFS. The family of 60_exceptions.md: a response depends only on what was captured (O16), an
error produces no output (O18), and which commands raise which error: WidthMismatch (O20), IndexError
(O21), DivisionByZero (O22) and ParseError (O23). -/

namespace Sys2Proof.Machine

variable {s : State}

/-! ## What a response depends on (R35, R307) -/

/-- The same response from two states of one configuration with the same captured words, whatever
else they hold. -/
def RespondAlike (x y : Host.Outcome State Fault Refusal) (s t : State) : Prop :=
  ∃ r, x = .next (s.respond r) ∧ y = .next (t.respond r)

/-- No meaning reads anything of the state but its configuration, A and B. -/
theorem exec_respondAlike (i : Instr) {s t : State} (hcfg : s.cfg = t.cfg) (ha : s.a = t.a)
    (hb : s.b = t.b) : RespondAlike (exec i s) (exec i t) s t := by
  cases s
  cases t
  cases hcfg
  cases ha
  cases hb
  cases i <;> exact ⟨_, rfl, rfl⟩

theorem runCaptured_respondAlike {s t : State} (hcfg : s.cfg = t.cfg) (hcmd : s.cmd = t.cmd)
    (ha : s.a = t.a) (hb : s.b = t.b) : RespondAlike (runCaptured s) (runCaptured t) s t := by
  rw [runCaptured, runCaptured, ← hcmd]
  split
  · exact exec_respondAlike _ hcfg ha hb
  · exact ⟨_, rfl, rfl⟩

/-- One response gives one status and one value of every output it makes valid. -/
theorem State.respond_agree {s t : State} (hcfg : s.cfg = t.cfg) (r : Response) :
    (s.respond r).st = (t.respond r).st ∧ (s.respond r).r0v = (t.respond r).r0v ∧
    (s.respond r).r1v = (t.respond r).r1v ∧ (s.respond r).cov = (t.respond r).cov ∧
    ((s.respond r).r0v = true →
      (s.respond r).r0 = (t.respond r).r0 ∧ (s.respond r).rw0 = (t.respond r).rw0) ∧
    ((s.respond r).r1v = true →
      (s.respond r).r1 = (t.respond r).r1 ∧ (s.respond r).rw1 = (t.respond r).rw1) ∧
    ((s.respond r).cov = true → (s.respond r).co = (t.respond r).co) := by
  cases r with
  | raise e => simp
  | ok o =>
    obtain ⟨r0, r1, co⟩ := o
    refine ⟨rfl, rfl, rfl, rfl, ?_, ?_, ?_⟩
    · cases r0 with
      | none => exact nofun
      | some p => exact fun _ => ⟨congrArg (busOf · p.1 p.2) hcfg, rfl⟩
    · cases r1 with
      | none => exact nofun
      | some p => exact fun _ => ⟨congrArg (busOf · p.1 p.2) hcfg, rfl⟩
    · cases co with
      | none => exact nofun
      | some c => exact fun _ => rfl

/-- Settles O16: both states complete with one response, which alone decides status and outputs. -/
theorem responseDependsOnlyOnCapture : Obligations.ResponseDependsOnlyOnCapture := by
  intro s t hcfg hcmd ha hb
  obtain ⟨r, hs, ht⟩ := runCaptured_respondAlike hcfg hcmd ha hb
  have hphase : (s.respond r).phase = (t.respond r).phase :=
    (s.respond_frame r).1.trans (t.respond_frame r).1.symm
  exact ⟨_, _, hs, ht, hphase, State.respond_agree hcfg r⟩

/-! ## Completion with an error (R303) -/

/-- A response with an error status is that error raised. -/
theorem State.respond_st_eq_error {r : Response} {e : ErrorCode} (h : (s.respond r).st = .error e) :
    s.respond r = s.gaveError e := by
  cases r with
  | ok o => cases h
  | raise e' =>
    cases h
    rfl

/-- Settles O18: the response can only be the error raised, and DONE is ready. -/
theorem errorProducesNoOutput : Obligations.ErrorProducesNoOutput := by
  intro s t e ht hst
  obtain ⟨r, hr⟩ := runCaptured_responds s
  rw [hr] at ht
  cases ht
  rw [State.respond_st_eq_error hst]
  exact ⟨rfl, rfl⟩

/-! ## WidthMismatch (R300) -/

/-- The commands whose two widths must agree (R300), of one tag and two widths. -/
def equalWidthCommands (t : Tag) (wa wb : Field16) : List Instr :=
  [.add wa wb, .sub wa wb, .mul t wa wb, .and wa wb, .or wa wb, .eq wa wb, .ne wa wb, .lt t wa wb,
    .le t wa wb, .gt t wa wb, .ge t wa wb]

theorem exec_equalWidthCommands_mismatch {t : Tag} {wa wb : Field16}
    (ha : widthOk s.cfg wa = true) (hb : widthOk s.cfg wb = true) (hne : wb ≠ wa) :
    ∀ i ∈ equalWidthCommands t wa wb, exec i s = .next (s.gaveError .widthMismatch) := by
  simp only [equalWidthCommands, List.forall_mem_cons]
  refine ⟨?_, ?_, ?_, ?_, ?_, ?_, ?_, ?_, ?_, ?_, ?_, nofun⟩
  all_goals exact exec_widthMismatch ha hb hne _ rfl

theorem widthsAgree_eq_false_iff {i : Instr} :
    i.widthsAgree = false ↔ i.needsEqualWidths = true ∧ i.wb? ≠ some i.wa := by
  simp [Instr.widthsAgree]

/-- Only these commands have widths that can disagree. -/
theorem mem_equalWidthCommands_of_widthsAgree {i : Instr} (h : i.widthsAgree = false) :
    ∃ t wa wb, wb ≠ wa ∧ i ∈ equalWidthCommands t wa wb := by
  obtain ⟨hneeds, hne⟩ := widthsAgree_eq_false_iff.mp h
  cases i with
  | add wa wb | sub wa wb | and wa wb | or wa wb | eq wa wb | ne wa wb =>
    exact ⟨.unsigned, wa, wb, fun he => hne (congrArg some he), by simp [equalWidthCommands]⟩
  | mul t wa wb | lt t wa wb | le t wa wb | gt t wa wb | ge t wa wb =>
    exact ⟨t, wa, wb, fun he => hne (congrArg some he), by simp [equalWidthCommands]⟩
  | _ => cases hneeds

/-- Settles O20: at legal widths the guard of these commands raises, and no other command has widths
that can disagree. -/
theorem widthMismatchCommands : Obligations.WidthMismatchCommands := by
  refine ⟨fun s t wa wb ha hb hne => exec_equalWidthCommands_mismatch ha hb hne,
    fun i s t' ht hst => ?_⟩
  obtain ⟨r, hr, hstatus⟩ := exec_status i s
  rw [hr] at ht
  cases ht
  obtain ⟨-, hagree⟩ := errorOf_eq_widthMismatch_iff.mp ((hstatus _).mp hst)
  exact mem_equalWidthCommands_of_widthsAgree hagree

/-! ## The errors checked last (R301, R302, R304, R305) -/

/-- An error of the operands is the status exactly where the checks before it pass (R301). -/
theorem errorOf_eq_some_iff {i : Instr} {e : ErrorCode} (hbad : e ≠ .badCommand)
    (hmismatch : e ≠ .widthMismatch) : errorOf s i = some e ↔
      (i.wellFormed s.cfg = true ∧ i.widthsAgree = true) ∧ operandError s i = some e := by
  rw [errorOf]
  split_ifs with hwf hagree
  · simp [hwf, hbad.symm]
  · simp [hagree, hmismatch.symm]
  · simp [hwf, hagree]

/-- A command completes, with an error of the operands exactly under the checks and the operands'
condition, whatever way `P` says it. -/
theorem exec_raises_iff {i : Instr} {e : ErrorCode} {P : Prop} (hbad : e ≠ .badCommand)
    (hmismatch : e ≠ .widthMismatch)
    (h : (i.wellFormed s.cfg = true ∧ i.widthsAgree = true) ∧ operandError s i = some e ↔ P) :
    ∃ t, exec i s = .next t ∧ (t.st = .error e ↔ P) := by
  obtain ⟨r, hr, hstatus⟩ := exec_status i s
  exact ⟨_, hr, (hstatus e).trans ((errorOf_eq_some_iff hbad hmismatch).trans h)⟩

/-- The checks of a command whose widths need not agree: its widths and its immediate are legal. -/
theorem checks_iff {c : Config} {i : Instr} (h : i.needsEqualWidths = false) :
    i.wellFormed c = true ∧ i.widthsAgree = true ↔
      widthOk c i.wa = true ∧ (∀ wb, i.wb? = some wb → widthOk c wb = true) ∧
        i.immLegal c = true := by
  simp [Instr.wellFormed, Instr.widthsAgree, h, widthFieldLegal_eq, Option.all_eq_true, and_assoc]

/-- Settles O21: the check of the index is the last of these five commands and no other has it. -/
theorem indexErrorExactly : Obligations.IndexErrorExactly := by
  refine fun i s => exec_raises_iff nofun nofun ?_
  cases i with
  | word | setword | wordmask | bit | setbit =>
    rw [checks_iff rfl]
    simp [operandError, Instr.wa, Instr.wb?, Instr.immLegal]
  -- every other row of `operandError` has another error or none
  | _ => simp [operandError]

/-- Settles O22: the check of the denominator is the last of these three commands and no other has
it. -/
theorem divisionByZeroExactly : Obligations.DivisionByZeroExactly := by
  refine fun i s => exec_raises_iff nofun nofun ?_
  cases i with
  | rdiv | div | rem =>
    rw [checks_iff rfl]
    simp [operandError, Instr.wa, Instr.wb?, Instr.immLegal, and_assoc]
  -- every other row of `operandError` has another error or none
  | _ => simp [operandError]

theorem operandError_frombits_iff {wa n : Field16} :
    operandError s (.frombits wa n) = some .parseError ↔
      ∃ j < n.toNat, byteAt s.cfg s.a j ≠ 0x30 ∧ byteAt s.cfg s.a j ≠ 0x31 := by
  simp only [operandError, Option.ite_none_left_eq_some, all_isBitChar_charsOn, not_forall, not_or,
    exists_prop, and_true, ne_eq]

/-- Settles O23: the check of the characters is FROMBITS's last and no other command has it. -/
theorem parseErrorExactly : Obligations.ParseErrorExactly := by
  refine fun i s => exec_raises_iff nofun nofun ?_
  cases i with
  | frombits wa n =>
    rw [checks_iff rfl, operandError_frombits_iff]
    simp [Instr.wa, Instr.wb?, Instr.immLegal, and_assoc]
  -- every other row of `operandError` has another error or none
  | _ => simp [operandError]

end Sys2Proof.Machine
end

section
/-! PROOFS. The family of 70_reset_and_hazards.md: a command runs to its completion (O12), the
response then stands (O13), an offer while BUSY is ignored (O8) and reset works from every phase
(O9). -/

namespace Sys2Proof.Machine

variable {s : State} {p : Pins} {rest : List HostEvent}

/-! ## A command in execution (R405, R407) -/

/-- While BUSY an edge without reset looks at none of its other ports. -/
theorem clockEdge_busy (hp : s.phase = .busy) (hr : p.rst = false) :
    clockEdge p s = if s.wait = 0 then runCaptured s else .next s.waited := by
  simp [clockEdge, cmdReady, hr, hp]

/-- Settles O8: the edge has one outcome for all ports with rst = 0, the idle ones included. -/
theorem offerWhileBusyIsIgnored : Obligations.OfferWhileBusyIsIgnored := by
  intro s p rest he hr hp
  refine ⟨by simp [cmdReady, hp], ?_⟩
  have hidle : clockEdge p (s.took rest) = clockEdge Pins.idle (s.took rest) :=
    (clockEdge_busy (s := s.took rest) hp hr).trans
      (clockEdge_busy (s := s.took rest) (p := .idle) hp rfl).symm
  rw [step_clk he, hidle]
  exact (step_clk (s := { s with events := .clk .idle :: rest }) rfl).symm

theorem step_waiting (hp : s.phase = .busy) (hw : s.wait ≠ 0) (he : s.events = .clk p :: rest)
    (hr : p.rst = false) : step s = .next (s.took rest).waited :=
  (step_clk he).trans ((clockEdge_busy (s := s.took rest) hp hr).trans (if_neg hw))

/-- Edges without reset, no more than the command still waits for, only count the wait down; the run
goes on from there. -/
theorem run_waiting (n : Nat) (ps : List Pins) (hp : s.phase = .busy) (hlen : ps.length ≤ s.wait)
    (hr : ∀ p ∈ ps, p.rst = false) (he : s.events = ps.map .clk ++ rest) :
    Host.Core.run core (ps.length + n) s
      = Host.Core.run core n { s with wait := s.wait - ps.length, events := rest } := by
  induction ps generalizing s with
  | nil =>
    subst he
    rw [List.length_nil, Nat.zero_add]
    rfl
  | cons p ps ih =>
    rw [List.length_cons] at hlen
    obtain ⟨hrp, hrps⟩ := List.forall_mem_cons.mp hr
    have hstep : step s = .next (s.took (ps.map .clk ++ rest)).waited :=
      step_waiting hp (by omega) he hrp
    have hrun := ih (s := (s.took (ps.map .clk ++ rest)).waited) hp (Nat.le_sub_of_add_le hlen)
      hrps rfl
    have hwait : s.wait - 1 - ps.length = s.wait - (ps.length + 1) := by omega
    rw [List.length_cons, Nat.add_right_comm]
    refine (run_next hstep _).trans (hrun.trans ?_)
    rw [State.waited_wait, State.took_wait, hwait]
    rfl

/-- Settles O12: `wait` edges count down (log entry 3), and the next one is the completing edge,
which accepts nothing (log entry 17). -/
theorem everyAcceptedCommandCompletes : Obligations.EveryAcceptedCommandCompletes := by
  intro s ps rest hp hlen hr he
  have hrun (k : Nat) (hk : k ≤ s.wait) (n : Nat) : Host.Core.run core (k + n) s
      = Host.Core.run core n
          { s with wait := s.wait - k, events := (ps.drop k).map .clk ++ rest } := by
    have htake : (ps.take k).length = k := List.length_take_of_le (by omega)
    have h := run_waiting (s := s) (rest := (ps.drop k).map .clk ++ rest) n (ps.take k) hp
      (htake.trans_le hk) (fun p h => hr p (List.mem_of_mem_take h))
      (by rw [he, ← List.append_assoc, ← List.map_append, List.take_append_drop])
    rwa [htake] at h
  refine ⟨fun k hk => ⟨_, hrun k hk 0, hp, rfl, rfl, rfl, rfl⟩, ?_⟩
  obtain ⟨p, hlast⟩ : ∃ p, ps.drop s.wait = [p] :=
    List.length_eq_one_iff.mp (by rw [List.length_drop]; omega)
  have hrp : p.rst = false := hr p (List.mem_of_mem_drop (hlast ▸ List.mem_singleton_self p))
  obtain ⟨r, hresp⟩ := runCaptured_responds { s with wait := 0, events := rest }
  obtain ⟨hphase, -, -, -, -, -, -, hevents, -⟩ :=
    State.respond_frame { s with wait := 0, events := rest } r
  refine ⟨_, ?_, hphase, hevents, hresp⟩
  rw [hrun s.wait le_rfl 1, hlast, Nat.sub_self]
  have hstep := step_completing_clk (s := { s with wait := 0, events := .clk p :: rest }) ⟨hp, rfl⟩
    rfl hrp
  exact run_next (hstep.trans hresp) 0

/-! ## A held response (R58, R406) -/

/-- An edge that neither resets nor offers a command, or a read of an output that holds a value. -/
def HostEvent.Quiet (s : State) (e : HostEvent) : Prop :=
  (∃ p : Pins, e = .clk p ∧ p.rst = false ∧ p.cmdValid = false) ∨
    ∃ o v, e = .read o ∧ readOutput s o = some v

theorem clockEdge_done (hp : s.phase = .done) (hr : p.rst = false) (hv : p.cmdValid = false) :
    clockEdge p s = .next s := by
  simp [clockEdge, hp, hr, hv]

/-- What a read gives does not depend on what the host does next or has read. -/
theorem readOutput_withHost (s : State) (events : List HostEvent) (seen : List (Output × ReadValue))
    (o : Output) : readOutput { s with events, seen } o = readOutput s o := by
  cases o <;> rfl

theorem step_quiet {e : HostEvent} (hp : s.phase = .done) (hq : e.Quiet s)
    (he : s.events = e :: rest) : ∃ seen, step s = .next { s with events := rest, seen } := by
  rcases hq with ⟨p, rfl, hr, hv⟩ | ⟨o, v, rfl, ho⟩
  · exact ⟨s.seen, (step_clk he).trans (clockEdge_done hp hr hv)⟩
  · exact ⟨(o, v) :: s.seen, step_read_value he ho⟩

/-- Quiet events change nothing but the record of the host. -/
theorem run_quiet (es : List HostEvent) (hp : s.phase = .done) (he : s.events = es ++ rest)
    (hq : ∀ e ∈ es, e.Quiet s) :
    ∃ seen, Host.Core.run core es.length s = .next { s with events := rest, seen } := by
  induction es generalizing s with
  | nil =>
    subst he
    exact ⟨s.seen, rfl⟩
  | cons e es ih =>
    obtain ⟨hqe, hqes⟩ := List.forall_mem_cons.mp hq
    obtain ⟨seen, hstep⟩ := step_quiet hp hqe he
    rw [List.length_cons, run_next hstep]
    refine ih hp rfl fun e h => ?_
    simpa only [HostEvent.Quiet, readOutput_withHost] using hqes e h

/-- Settles O13: after quiet events the unit is the same up to the record of the host, on which no
output depends. -/
theorem responseIsStable : Obligations.ResponseIsStable := by
  intro es s rest hp he hq
  obtain ⟨seen, hrun⟩ := run_quiet es hp he hq
  exact ⟨_, hrun, hp, rfl, rfl, rfl, rfl, rfl, readOutput_withHost s rest seen⟩

/-! ## Reset (R400, R401, R403) -/

theorem clockEdge_reset (hr : p.rst = true) : clockEdge p s = .next s.resetUnit := if_pos hr

/-- Settles O9: the edge answers `resetUnit`, which keeps the host's record (log entry 15). -/
theorem resetEdge : Obligations.ResetEdge := by
  intro s p rest he hr
  refine ⟨by simp [cmdReady, hr], (s.took rest).resetUnit, (step_clk he).trans (clockEdge_reset hr),
    rfl, statusWord_resetOf s.cfg, rwWord_resetOf s.cfg, rfl, rfl, rfl, fun _ ho => ?_, rfl, rfl,
    rfl⟩
  exact readOutput_eq_none (by simp) rfl rfl rfl ho

end Sys2Proof.Machine
end
